-- ==== Sys2Proof/Word.lean ====
section
/-! DEFINITION. The words of the picoboot-avrdude core: a byte, a 16-bit word, and the 4-byte wire frame (R10, R11, R80). -/

namespace Sys2Proof

/-- A byte (R10). -/
abbrev Byte := BitVec 8

/-- A 16-bit value: a frame payload, an image word, `BOOT_JUMP_WORD` (R7, R10). -/
abbrev Word := BitVec 16

/-- Format FRAME (R80, R81): `b0` payload-low, `b1` payload-high, `b2` checksum, `b3` command, `b0` first on the wire. -/
structure Frame where
  b0 : Byte
  b1 : Byte
  b2 : Byte
  b3 : Byte
  deriving DecidableEq, Repr, Inhabited

end Sys2Proof
end

