-- ==== Sys2Proof/Config.lean ====
section
/-! DEFINITION. The configuration of the block (R7, R20, R21), the parameters of 93_implementation_defined.md, and the values the spec leaves open. -/

namespace Sys2Proof

/-- The answer of one `Tx` (R12, R186). -/
inductive TxAnswer where
  | ok
  | fail
  deriving DecidableEq, Repr, Inhabited

/-- Parameter HANDSHAKE_FRAME (U13): what INIT sends before it reads its one acknowledgement. -/
inductive HandshakeMode where
  /-- The all-zero frame, sent unbuffered (R85, R181): the default. -/
  | zeroFrame
  /-- No frame: one `Rx` only (the alternative reading of U13). -/
  | noFrame
  deriving DecidableEq, Repr

/-- Parameter REDIRECT_MODE (U14): how the redirected vector is computed. -/
inductive RedirectMode where
  /-- The add is done in the 12-bit offset field (R154): the default. -/
  | field12
  /-- A plain 16-bit add (the alternative reading of U14). -/
  | add16
  deriving DecidableEq, Repr

/-- The configuration registers of R21 and the two parameters U13 and U14.
`CFG_MAX_FRAMES` is hardwired (`Config.maxFrames`) and so is no field. -/
structure Cfg where
  /-- CFG_IMAGE_SIZE, N. -/
  imageSize : Nat
  /-- CFG_PAGE_SIZE, S. -/
  pageSize : Nat
  /-- CFG_RESERVED_SIZE, V. -/
  reservedSize : Nat
  /-- CFG_BOOT_JUMP, BOOT_JUMP_WORD. -/
  bootJump : Word
  /-- HANDSHAKE_FRAME (U13). -/
  handshake : HandshakeMode
  /-- REDIRECT_MODE (U14). -/
  redirect : RedirectMode
  deriving DecidableEq, Repr

namespace Config

/-- CFG_MAX_FRAMES, hardwired to 8 (R7, R21). -/
abbrev maxFrames : Nat := 8

/-- FRAME_BYTES (R7). -/
abbrev frameBytes : Nat := 4

/-- ACK_BYTES (R7). -/
abbrev ackBytes : Nat := 1

/-- RJMP_NIBBLE, the required top nibble of the entry word (R7, R151). -/
abbrev rjmpNibble : Nat := 0xC

/-- RJMP_OFFSET_BITS, the width of the offset field that redirection adjusts (R7, R154). -/
abbrev rjmpOffsetBits : Nat := 12

/-- FLASH_TAG, the only writable memory class (R7, R140). -/
abbrev flashTag : String := "flash"

/-- ADDRESS_BITS, the width of an address in a frame payload (R7). -/
abbrev addressBits : Nat := 16

/-- BOOT_JUMP_WORD at reset: OPEN in the spec (R7, D4, N1), so no value is known here (log entry 2). -/
opaque bootJumpWord : Word

/-- The answer of the n-th `Tx` that no scripted answer covers: a draw of the environment, any value (R186, U3; log entry 4). -/
opaque freeTxAnswer : Nat → TxAnswer

/-- What a 17-bit request register holds after latching a number that does not fit it: unstated (R28, R180; log entry 6). -/
opaque oversizeLatch : Nat → BitVec 17

/-- The configuration arguments of `State.reset`: the sizes of the §8 example (R7), the defaults of U13 and U14 (log entry 1). -/
def atReset : Cfg where
  imageSize := 8192
  pageSize := 64
  reservedSize := 66
  bootJump := bootJumpWord
  handshake := .zeroFrame
  redirect := .field12

end Config

end Sys2Proof
end

