-- ==== Sys2Proof/Machine/Region.lean ====
section
/-! DEFINITION. The configuration's derived addresses and its admission (R7, R8, R56, R58). -/

namespace Sys2Proof

/-- R = N − V, the first byte of the reserved region (R7, R56). -/
def Cfg.reservedStart (c : Cfg) : Nat := c.imageSize - c.reservedSize

/-- RESV_PAGE = R − S + 2, the start of the reserved-region page (R7, R58). -/
def Cfg.resvPage (c : Cfg) : Nat := c.reservedStart - c.pageSize + 2

/-- BOOTLOADER_LEN = V − 2 (R7). -/
def Cfg.bootloaderLen (c : Cfg) : Nat := c.reservedSize - 2

/-- WF_CONFIG(N, S, V) (R8), in the rule's order.
The last line is the rule's `N − V − S + 2 >= S` with no subtraction. -/
def Cfg.wf (c : Cfg) : Bool :=
  decide (c.pageSize % 2 = 0) && decide (4 ≤ c.pageSize)
  && decide (c.imageSize % c.pageSize = 0) && decide (c.imageSize ≤ 0x10000)
  && decide (2 ≤ c.reservedSize) && decide ((c.reservedSize - 2) % c.pageSize = 0)
  && decide (c.reservedSize + c.pageSize + c.pageSize ≤ c.imageSize + 2)

end Sys2Proof
end

