-- ==== Sys2Proof/Syntax.lean ====
section
/-! DEFINITION. The instructions of the block: one constructor for each row of spec/opcode_table.json, and the transactions that carry them (R80 to R85). -/

namespace Sys2Proof

/-- One constructor per row of the opcode table. -/
inductive Instr where
  /-- LOAD, load-data, CMD 0x00 (R104): the two image bytes of a word, lower address first. -/
  | load (d0 d1 : Byte)
  /-- FILL, fill-temp-buffer, CMD 0x01 (R105): the in-page byte offset. -/
  | fill (off : Word)
  /-- ERASE, erase-page, CMD 0x03 (R106): the page's absolute address. -/
  | erase (base : Word)
  /-- WRITE, write-page, CMD 0x05 (R107): the page's absolute address. -/
  | write (base : Word)
  /-- HANDSHAKE, the all-zero frame sent unbuffered by INIT (R85). -/
  | handshake
  /-- ACK_SUCCESS, the acknowledgement byte 0x00 (R82, R101). -/
  | ackSuccess
  /-- ACK_VIOLATION, any other acknowledgement byte (R82, R101). -/
  | ackViolation (b : Byte)
  /-- INIT, the initialize entry point (R181). -/
  | init
  /-- PAGE_WRITE, the page-write entry point (R180): both operands are natural numbers. -/
  | pageWrite (address byteCount : Nat)
  /-- CLOSE, the close entry point (R182). -/
  | close
  deriving DecidableEq, Repr

/-- The three entry points of format HOSTOP (R83), by name. -/
inductive HostOp where
  | init
  | pageWrite
  | close
  deriving DecidableEq, Repr

/-- What an instruction is carried by: a frame on the transmit stream, a byte of the receive stream, or a named host call with its arguments (R80, R82, R83). -/
inductive Transaction where
  | frame (f : Frame)
  | ack (b : Byte)
  | hostop (op : HostOp) (args : List Nat)
  deriving DecidableEq, Repr

/-- The two byte streams of the link (R50). -/
inductive Stream where
  | transmit
  | receive
  deriving DecidableEq, Repr

/-- Why a transaction is no instruction (R103; the names BAD_CHECKSUM and UNKNOWN_CMD are D28's). -/
inductive DecodeError where
  /-- BAD_CHECKSUM: the checksum byte is not the exclusive-or of the other three. -/
  | badChecksum
  /-- UNKNOWN_CMD(c): the checksum holds and the command code is not in the map of R84. -/
  | unknownCmd (c : Byte)
  /-- A host call whose arguments are not those of R83. -/
  | badArguments
  /-- Fewer bytes than the format has (R91). -/
  | truncated
  deriving DecidableEq, Repr

end Sys2Proof
end

