-- ==== Sys2Proof/WellFormed.lean ====
section
/-! DEFINITION. Which instructions are well formed for a configuration: the operand ranges of R86. -/

namespace Sys2Proof

/-- The start address of a page that an ERASE or WRITE frame may carry: a multiple of S below R (R86, R106). -/
def pageAddressWf (c : Cfg) (base : Word) : Bool :=
  decide (base.toNat % c.pageSize = 0) && decide (base.toNat < c.reservedStart)

/-- The operand ranges the spec gives each instruction (R86, R105 to R107, R82). -/
def Instr.wf (c : Cfg) : Instr → Bool
  | .load _ _ => true
  | .fill off => decide (off.toNat % 2 = 0) && decide (off.toNat + 2 ≤ c.pageSize)
  | .erase base => pageAddressWf c base
  | .write base => pageAddressWf c base
  | .handshake => true
  | .ackSuccess => true
  | .ackViolation b => decide (b ≠ 0#8)
  | .init => true
  | .pageWrite _ _ => true
  | .close => true

end Sys2Proof
end

