-- ==== Sys2Proof/Decode.lean ====
section
/-! DEFINITION. The decoder of frames, acknowledgements and host calls, total and rejecting by name (R80 to R85, R101, R103), then the encoder (R100, R104 to R107). -/

namespace Sys2Proof

/-- `lo(v) = v[7:0]` (R10). -/
def lo (v : Word) : Byte := v.extractLsb' 0 8

/-- `hi(v) = v[15:8]` (R10). -/
def hi (v : Word) : Byte := v.extractLsb' 8 8

/-- The little-endian word of two bytes, `l | h << 8` (R54, R55). -/
def word16 (l h : Byte) : Word := h ++ l

/-- The Ack value (R29, R82). -/
inductive Ack where
  | success
  | protocolViolation (b : Byte)
  deriving DecidableEq, Repr

/-- The acknowledgement decoder (R101). -/
def decodeAck (b : Byte) : Ack := if b = 0#8 then .success else .protocolViolation b

/-- The instruction an acknowledgement byte is: ACK_SUCCESS first, then ACK_VIOLATION (the table's priorities; R82, R90). -/
def ackInstr (b : Byte) : Instr :=
  match decodeAck b with
  | .success => .ackSuccess
  | .protocolViolation v => .ackViolation v

/-- The frame classifier (R103): the checksum is checked first. -/
def decodeFrame (f : Frame) : Except DecodeError Instr :=
  if f.b2 ≠ f.b0 ^^^ f.b1 ^^^ f.b3 then .error .badChecksum
  else if f.b3 = 0x00#8 then .ok (.load f.b0 f.b1)
  else if f.b3 = 0x01#8 then .ok (.fill (word16 f.b0 f.b1))
  else if f.b3 = 0x03#8 then .ok (.erase (word16 f.b0 f.b1))
  else if f.b3 = 0x05#8 then .ok (.write (word16 f.b0 f.b1))
  else .error (.unknownCmd f.b3)

/-- A host call: INIT and CLOSE take nothing, PAGE_WRITE an address and a byte count (R83). -/
def decodeHostOp (op : HostOp) (args : List Nat) : Except DecodeError Instr :=
  match op, args with
  | .init, [] => .ok .init
  | .pageWrite, [address, byteCount] => .ok (.pageWrite address byteCount)
  | .close, [] => .ok .close
  | _, _ => .error .badArguments

/-- The decoder, total on every transaction. -/
def decode : Transaction → Except DecodeError Instr
  | .frame f => decodeFrame f
  | .ack b => .ok (ackInstr b)
  | .hostop op args => decodeHostOp op args

/-- The decoder on the bytes of a stream, with the bytes that are left: 4 bytes a frame, 1 byte an acknowledgement (R91, R82). -/
def decodeBytes : Stream → List Byte → Except DecodeError (Instr × List Byte)
  | .transmit, b0 :: b1 :: b2 :: b3 :: rest =>
    match decodeFrame ⟨b0, b1, b2, b3⟩ with
    | .ok i => .ok (i, rest)
    | .error e => .error e
  | .transmit, _ => .error .truncated
  | .receive, b :: rest => .ok (ackInstr b, rest)
  | .receive, [] => .error .truncated

/-- A whole transmission, its frame boundaries found by counting 4 bytes from its start (R91). -/
def decodeTransmission : List Byte → Except DecodeError (List Instr)
  | [] => .ok []
  | b0 :: b1 :: b2 :: b3 :: rest =>
    match decodeFrame ⟨b0, b1, b2, b3⟩, decodeTransmission rest with
    | .ok i, .ok is => .ok (i :: is)
    | .error e, _ => .error e
    | .ok _, .error e => .error e
  | _ => .error .truncated

/-- The frame whose 32-bit number is F: `b0` is F[31:24] and `b3` is F[7:0] (R80, R81). -/
def frameOfNumber (w : Nat) : Frame :=
  ⟨BitVec.ofNat 8 (w / 0x1000000), BitVec.ofNat 8 (w / 0x10000), BitVec.ofNat 8 (w / 0x100), BitVec.ofNat 8 w⟩

/-- The instruction the decoder reads from a word of the opcode table: 32 bits are a frame, 8 bits an acknowledgement.
A host call has no bit encoding (R83), so no word is one. -/
def decodeTableWord (nbits w : Nat) : Option Instr :=
  if nbits = 32 then (decodeFrame (frameOfNumber w)).toOption
  else if nbits = 8 then some (ackInstr (BitVec.ofNat 8 w))
  else none

/-! The encoder. -/

/-- The frame encoder (R100): a pure function that computes the checksum. -/
def enc (pl ph c : Byte) : Frame := ⟨pl, ph, pl ^^^ ph ^^^ c, c⟩

/-- LOAD's frame (R104). -/
def frameLoad (d0 d1 : Byte) : Frame := enc d0 d1 0x00#8

/-- FILL's frame (R105). -/
def frameFill (off : Word) : Frame := enc (lo off) (hi off) 0x01#8

/-- ERASE's frame (R106). -/
def frameErase (base : Word) : Frame := enc (lo base) (hi base) 0x03#8

/-- WRITE's frame (R107). -/
def frameWrite (base : Word) : Frame := enc (lo base) (hi base) 0x05#8

/-- The handshake frame (R85). -/
def frameHandshake : Frame := enc 0x00#8 0x00#8 0x00#8

/-- A frame's bytes in wire order (R54, R80). -/
def Frame.bytes (f : Frame) : List Byte := [f.b0, f.b1, f.b2, f.b3]

/-- The 32-bit number F of a frame (R80), notation only. -/
def Frame.number (f : Frame) : Nat :=
  f.b0.toNat * 0x1000000 + f.b1.toNat * 0x10000 + f.b2.toNat * 0x100 + f.b3.toNat

/-- The transaction an instruction is carried by. -/
def encode : Instr → Transaction
  | .load d0 d1 => .frame (frameLoad d0 d1)
  | .fill off => .frame (frameFill off)
  | .erase base => .frame (frameErase base)
  | .write base => .frame (frameWrite base)
  | .handshake => .frame frameHandshake
  | .ackSuccess => .ack 0x00#8
  | .ackViolation b => .ack b
  | .init => .hostop .init []
  | .pageWrite address byteCount => .hostop .pageWrite [address, byteCount]
  | .close => .hostop .close []

/-- What a reader of the stream takes an instruction for: HANDSHAKE is bit-identical to LOAD 0x00, 0x00 (R85); every other is itself. -/
def Instr.onWire : Instr → Instr
  | .handshake => .load 0x00#8 0x00#8
  | .load d0 d1 => .load d0 d1
  | .fill off => .fill off
  | .erase base => .erase base
  | .write base => .write base
  | .ackSuccess => .ackSuccess
  | .ackViolation b => .ackViolation b
  | .init => .init
  | .pageWrite address byteCount => .pageWrite address byteCount
  | .close => .close

end Sys2Proof
end

