-- ==== Sys2Proof/Machine/State.lean ====
section
/-! DEFINITION. The state of the block, of the two collaborators it acts on, and of the record of a run (10_state.md; R31, R32, R186, R188, R191). -/

namespace Sys2Proof.Machine

/-- SESS, the session register (R22). -/
inductive Sess where
  | idle
  | ready
  | aborted
  | halted
  | closed
  deriving DecidableEq, Repr

/-- SEQ, the sequencer register (R27). -/
inductive Seq where
  | idle
  | handshake
  | guard
  | redirect
  | fill
  | flush
  | erase
  | write
  | close
  deriving DecidableEq, Repr

/-- PW_PASS (R28). -/
inductive Pass where
  | resv
  | main
  deriving DecidableEq, Repr

/-- PW_HALF (R28). -/
inductive Half where
  | load
  | fill
  deriving DecidableEq, Repr

/-- The rule id that F_INVARIANT records: the rules that hold an `assert` (R201, R211). -/
inductive AssertRule where
  | r120
  | r124
  | r125
  | r130
  deriving DecidableEq, Repr

/-- The causes of R201, each with what it records. -/
inductive Cause where
  | linkSend
  | linkRecv
  | linkAck (b : Byte)
  | reservedRegion (address : Nat)
  | badResetVector (w : Word)
  | invariant (rule : AssertRule)
  deriving DecidableEq, Repr

/-- The outcome of an entry point (R200). -/
inductive Result where
  | ok (n : Nat)
  | unsupported
  | linkFailure (cause : Cause)
  | unrecoverable (cause : Cause)
  deriving DecidableEq, Repr

/-- The answer of one `Rx` (R12, R186); a timeout is `fail` (R187). -/
inductive RxAnswer where
  | byte (b : Byte)
  | fail
  deriving DecidableEq, Repr

/-- The observable events (R12, D1). -/
inductive Event where
  | imgw (a : Nat) (v : Byte)
  | tx (bytes : List Byte)
  | rx (answer : RxAnswer)
  | tclose
  deriving DecidableEq, Repr

/-- Bytes by address, in one canonical form (`Memory.wf`): addresses strictly rising, no entry equal to what an unlisted address reads as. -/
abbrev Memory := List Host.Cell

/-- The memory image behind the accessor: the caller's bytes, its memory-class tag TAG, and the two sizes the accessor supplies (R31, R188). -/
structure Image where
  mem : Memory
  tag : String
  /-- The buffer's total size in bytes. -/
  size : Nat
  /-- The reserved-region size constant the accessor supplies. -/
  reserved : Nat
  deriving DecidableEq, Repr

/-- The transport as the block meets it: the answers the environment has ready for the next `Tx` and `Rx` calls, oldest first (R186).
`txDraws` is the MODEL's own counter: how many `Tx` answers were drawn beyond the scripted ones (log entry 4). -/
structure Link where
  txAnswers : List TxAnswer
  rxAnswers : List RxAnswer
  txDraws : Nat
  deriving DecidableEq, Repr

/-- An entry-point call of the host (R83). -/
inductive HostCall where
  | init
  | pageWrite (address byteCount : Nat)
  | close
  deriving DecidableEq, Repr

/-- What the host does next while no entry point runs (R184, R189): it calls one, hands over an image, or starts a session (R230). -/
inductive HostInput where
  | call (c : HostCall)
  | image (im : Image)
  | session (cfg : Cfg)
  deriving DecidableEq, Repr

/-- The Page Writer registers (R28). -/
structure PageRegs where
  addr : BitVec 17
  count : BitVec 17
  pass : Pass
  base : Word
  idx : Word
  half : Half
  orig : Word
  deriving DecidableEq, Repr

/-- The machine. -/
structure State where
  /-- The configuration registers (R20, R21). -/
  cfg : Cfg
  /-- SESS (R22). -/
  sess : Sess
  /-- SEQ (R27). -/
  seq : Seq
  /-- PBUF[0..7] (R24). -/
  pbuf : Vector Frame 8
  /-- PCNT, 0 to 8 (R24). -/
  pcnt : Fin 9
  /-- ACKPEND, 0 to 8 (R26). -/
  ackpend : Fin 9
  /-- PW_ADDR, PW_COUNT, PW_PASS, PW_BASE, PW_IDX, PW_HALF, PW_ORIG (R28). -/
  pw : PageRegs
  /-- FAULTS, a set: no cause twice (R30). -/
  faults : List Cause
  /-- The caller's memory image (R31). -/
  img : Image
  /-- The transport (R32, R186). -/
  link : Link
  /-- What the host does next, first first (log entry 5). -/
  inbox : List HostInput
  /-- The events issued so far, in order (R191, R217). -/
  events : List Event
  /-- The outcomes returned so far, in order (R191, R200). -/
  results : List Result
  deriving DecidableEq, Repr

/-- Why the machine stops with a fault. -/
inductive Fault where
  /-- Raised by `imgRead` and `imgWrite`: the image has no such address (R50, R52).
  Safe: the block never makes such an access from a state that meets `Inv`. -/
  | imageAddress (a : Nat)
  /-- Raised by `step`: FAULTS holds F_INVARIANT, a faulted state is never final and admits nothing (R211, U17).
  Safe: the rules never reach it (R131). -/
  | invariantRecorded
  deriving DecidableEq, Repr

/-- Why an operation has no meaning. -/
inductive Refusal where
  /-- Raised by a refused arm of `exec` only. Safe. -/
  | notModelled (mnemonic : String)
  /-- Raised by the entry points and by the start of a session: the configuration fails WF_CONFIG (R8, R21, R230, U1). Safe. -/
  | configNotAdmitted
  /-- Raised by the entry points: SESS or SEQ does not admit the call, or the state is faulted (R183, R211, U9). Safe. -/
  | entryNotAdmitted
  /-- Raised by PAGE_WRITE: the accessor's sizes differ from the configuration (R188, U10). Safe. -/
  | accessorSizes
  /-- Raised by PAGE_WRITE: past the guards, the request is unaligned or not one full page (R144, U8). Safe. -/
  | requestNotOnePage
  deriving DecidableEq, Repr

/-- The Page Writer registers at reset: unspecified in the spec (R35, U6), zero here (log entry 3). -/
def PageRegs.atReset : PageRegs where
  addr := 0
  count := 0
  pass := .resv
  base := 0
  idx := 0
  half := .load
  orig := 0

/-- The image before the host hands one over: not state of the block (R35), an erased image of the configured sizes here (log entry 7). -/
def Image.atReset (c : Cfg) : Image where
  mem := []
  tag := Config.flashTag
  size := c.imageSize
  reserved := c.reservedSize

/-- The machine right after reset (R35, R230): the configuration latched, SESS = IDLE, PCNT = 0, ACKPEND = 0, SEQ = S_IDLE, FAULTS empty. -/
def State.reset : State where
  cfg := Config.atReset
  sess := .idle
  seq := .idle
  pbuf := Vector.replicate 8 ⟨0#8, 0#8, 0#8, 0#8⟩
  pcnt := 0
  ackpend := 0
  pw := PageRegs.atReset
  faults := []
  img := Image.atReset Config.atReset
  link := ⟨[], [], 0⟩
  inbox := []
  events := []
  results := []

/-! Named updates of one field each, with their lemmas in Laws/State.lean. -/

def State.setSess (v : Sess) (s : State) : State := { s with sess := v }
def State.setSeq (v : Seq) (s : State) : State := { s with seq := v }
def State.setPbuf (v : Vector Frame 8) (s : State) : State := { s with pbuf := v }
def State.setPcnt (v : Fin 9) (s : State) : State := { s with pcnt := v }
def State.setAckpend (v : Fin 9) (s : State) : State := { s with ackpend := v }
def State.setPw (v : PageRegs) (s : State) : State := { s with pw := v }
def State.setFaults (v : List Cause) (s : State) : State := { s with faults := v }
def State.setImg (v : Image) (s : State) : State := { s with img := v }
def State.setLink (v : Link) (s : State) : State := { s with link := v }
def State.setInbox (v : List HostInput) (s : State) : State := { s with inbox := v }
/-- Issue one event (R12, R13). -/
def State.emit (e : Event) (s : State) : State := { s with events := s.events ++ [e] }
/-- Return one outcome to the host (R200). -/
def State.ret (r : Result) (s : State) : State := { s with results := s.results ++ [r] }

end Sys2Proof.Machine
end

