-- ==== Sys2Proof/Machine/Flags.lean ====
section
/-! DEFINITION. What plays the role of flags (R29): FAULTS, the codes and classes of outcomes and causes (R200, R201, R209). -/

namespace Sys2Proof.Machine

/-- The outcome codes (R200). -/
def Result.code : Result → Byte
  | .ok _ => 0x00
  | .unsupported => 0x01
  | .linkFailure _ => 0x02
  | .unrecoverable _ => 0x03

/-- The cause codes (R201). -/
def Cause.code : Cause → Byte
  | .linkSend => 0x10
  | .linkRecv => 0x11
  | .linkAck _ => 0x12
  | .reservedRegion _ => 0x20
  | .badResetVector _ => 0x21
  | .invariant _ => 0x30

/-- Whether a cause is a link error (R201, R203). -/
def Cause.isLink : Cause → Bool
  | .linkSend => true
  | .linkRecv => true
  | .linkAck _ => true
  | .reservedRegion _ => false
  | .badResetVector _ => false
  | .invariant _ => false

/-- Whether a cause is an unrecoverable policy violation (R201, R204). -/
def Cause.isPolicy : Cause → Bool
  | .linkSend => false
  | .linkRecv => false
  | .linkAck _ => false
  | .reservedRegion _ => true
  | .badResetVector _ => true
  | .invariant _ => false

/-- Whether a cause is F_INVARIANT (R211). -/
def Cause.isInvariant : Cause → Bool
  | .linkSend => false
  | .linkRecv => false
  | .linkAck _ => false
  | .reservedRegion _ => false
  | .badResetVector _ => false
  | .invariant _ => true

/-- A faulted state: F_INVARIANT is in FAULTS (R211). -/
def State.faulted (s : State) : Bool := s.faults.any Cause.isInvariant

/-- Add a cause to the set FAULTS (R30). -/
def addCause (c : Cause) (fs : List Cause) : List Cause := if c ∈ fs then fs else fs ++ [c]

/-- Record a cause (R30). -/
def record (c : Cause) (s : State) : State := s.setFaults (addCause c s.faults)

end Sys2Proof.Machine
end

