-- ==== Sys2Proof/Machine/Ops.lean ====
section
/-! DEFINITION. The named operations over the image, the transport and the registers, and the ends an operation can come to: return, raise, failed assert (R12, R52, R53, R200 to R204, R211). -/

namespace Sys2Proof.Machine

/-- Go on with the next state, stop where the first part stopped. -/
def andThen (o : Host.Outcome State Fault Refusal) (f : State → Host.Outcome State Fault Refusal) :
    Host.Outcome State Fault Refusal :=
  match o with
  | .next s => f s
  | .fault r => .fault r
  | .refused r => .refused r

/-! Memory. -/

/-- What an image byte that the list does not name reads as: erased flash (log entry 7). -/
def unlistedByte : Byte := 0xFF#8

/-- The byte at an address (R52). -/
def memRead : Memory → Nat → Byte
  | [], _ => unlistedByte
  | (k, v) :: m, a => if k = a then v else memRead m a

/-- Replace the byte at an address (R53), keeping the canonical form. -/
def memWrite : Memory → Nat → Byte → Memory
  | [], a, v => if v = unlistedByte then [] else [(a, v)]
  | (k, w) :: m, a, v =>
    if a < k then (if v = unlistedByte then (k, w) :: m else (a, v) :: (k, w) :: m)
    else if a = k then (if v = unlistedByte then m else (a, v) :: m)
    else (k, w) :: memWrite m a v

/-- The canonical form from an address up. -/
def Memory.wfFrom : Nat → Memory → Bool
  | _, [] => true
  | n, (k, v) :: m => decide (n ≤ k) && decide (v ≠ unlistedByte) && Memory.wfFrom (k + 1) m

/-- The canonical form: addresses strictly rising, no entry equal to what an unlisted address reads as. -/
def Memory.wf (m : Memory) : Bool := Memory.wfFrom 0 m

/-- An image in canonical form, every listed address inside the buffer. -/
def Image.wf (im : Image) : Bool := Memory.wf im.mem && im.mem.all (fun c => decide (c.1 < im.size))

/-- The bytes of a list of cells, in canonical form; of two cells at one address the later one counts. -/
def memOfCells (cells : List Host.Cell) : Memory := cells.foldl (fun m c => memWrite m c.1 c.2) []

/-- The image the host hands over, in canonical form (R188). -/
def Image.canon (im : Image) : Image :=
  { im with mem := memOfCells (im.mem.filter (fun c => decide (c.1 < im.size))) }

/-- `MemRead(a, 1)`: only addresses 0 .. N−1 exist (R50, R52). -/
def imgRead (s : State) (a : Nat) : Option Byte :=
  if a < s.img.size then some (memRead s.img.mem a) else none

/-- The image after `MemWrite(a, 1, v)` and the event it is (R53). -/
def imgPut (a : Nat) (v : Byte) (s : State) : State :=
  (s.setImg { s.img with mem := memWrite s.img.mem a v }).emit (.imgw a v)

/-- `MemWrite(a, 1, v)` (R53). -/
def imgWrite (a : Nat) (v : Byte) (s : State) : Host.Outcome State Fault Refusal :=
  if a < s.img.size then .next (imgPut a v s) else .fault (.imageAddress a)

/-- Two byte writes, the lower address first (R61). -/
def imgWriteWord (a : Nat) (w : Word) (s : State) : Host.Outcome State Fault Refusal :=
  andThen (imgWrite a (lo w) s) (imgWrite (a + 1) (hi w))

/-! The transport. -/

/-- The environment's answer to the next `Tx`: the next scripted one, else a draw (R186, U3; log entry 4). -/
def txAnswer (l : Link) : TxAnswer :=
  match l.txAnswers with
  | [] => Config.freeTxAnswer l.txDraws
  | a :: _ => a

/-- The transport after that `Tx`. -/
def txTaken (l : Link) : Link :=
  match l.txAnswers with
  | [] => { l with txDraws := l.txDraws + 1 }
  | _ :: rest => { l with txAnswers := rest }

/-- The answers that are left for `Rx`. -/
def setRx (rest : List RxAnswer) (s : State) : State := s.setLink { s.link with rxAnswers := rest }

/-- One `Tx` call: its event, its answer consumed (R12, R185). -/
def txCall (bytes : List Byte) (s : State) : State := (s.emit (.tx bytes)).setLink (txTaken s.link)

/-! Ends of an operation. -/

/-- `return r`: SEQ goes back to S_IDLE and the host gets the outcome (R27, R180, R200). -/
def finish (r : Result) (s : State) : State := (s.setSeq .idle).ret r

/-- `raise` of a link error (R203): the cause recorded, SESS = ABORTED, SEQ = S_IDLE, LINK_FAILURE returned; all else kept (R127). -/
def raiseLink (c : Cause) (s : State) : State := finish (.linkFailure c) ((record c s).setSess .aborted)

/-- `raise` of an unrecoverable violation (R204): the cause recorded, SESS = HALTED, SEQ = S_IDLE, UNRECOVERABLE returned. -/
def raisePolicy (c : Cause) (s : State) : State := finish (.unrecoverable c) ((record c s).setSess .halted)

/-- An `assert` that is false: F_INVARIANT is recorded, nothing else happens (R12, R211). -/
def assertFailed (r : AssertRule) (s : State) : State := record (.invariant r) s

/-! Reset. -/

/-- Reset with a configuration (R35, R230): every register at its reset value.
The image, the transport, what the host does next and the record of the run are not the block's (R31, R32, R231). -/
def resetRegs (c : Cfg) (s : State) : State :=
  { State.reset with
    cfg := c, img := s.img, link := s.link, inbox := s.inbox, events := s.events, results := s.results }

/-- The start of a session: a configuration outside WF_CONFIG is refused at reset (R8, R21, R230). -/
def beginSession (c : Cfg) (s : State) : Host.Outcome State Fault Refusal :=
  if c.wf then .next (resetRegs c s) else .refused .configNotAdmitted

end Sys2Proof.Machine
end

