-- ==== Sys2Proof/Machine/Operands.lean ====
section
/-! DEFINITION. Every operand form: the payloads of R86 and the latching of a request (R28, R180). -/

namespace Sys2Proof.Machine

/-- The image address of the word that the sequencer is at, `PW_BASE + 2·PW_IDX` (R60, R86). -/
def wordAddress (s : State) : Nat := s.pw.base.toNat + 2 * s.pw.idx.toNat

/-- LOAD's payload: the two image bytes of the word as stored, the lower address first (R55, R86). -/
def loadPayload (s : State) : Option (Byte × Byte) :=
  match imgRead s (wordAddress s), imgRead s (wordAddress s + 1) with
  | some d0, some d1 => some (d0, d1)
  | _, _ => none

/-- FILL's payload: the in-page byte offset `2·PW_IDX` (R86, R87). -/
def fillPayload (s : State) : Word := BitVec.ofNat 16 (2 * s.pw.idx.toNat)

/-- A 16-bit image word, little-endian (R55). -/
def imgWord (s : State) (a : Nat) : Option Word :=
  match imgRead s a, imgRead s (a + 1) with
  | some l, some h => some (word16 l h)
  | _, _ => none

/-- A 17-bit request register after latching a natural number (R28): a number that does not fit leaves an unstated value (log entry 6). -/
def latch17 (n : Nat) : BitVec 17 := if n < 0x20000 then BitVec.ofNat 17 n else Config.oversizeLatch n

/-- `PW_ADDR <- address; PW_COUNT <- byteCount` (R180). -/
def latchRequest (address byteCount : Nat) (s : State) : State :=
  s.setPw { s.pw with addr := latch17 address, count := latch17 byteCount }

end Sys2Proof.Machine
end

