-- ==== Sys2Proof/Machine/Channel.lean ====
section
/-! DEFINITION. The Pipelined Ack Channel (41_ack_channel.md): submit, batch transmission, reconciliation, flush, the unbuffered exchange. -/

namespace Sys2Proof.Machine

/-- `readAck()` once `Rx` has answered `BYTE(b)` (R124).
The last acknowledgement of a transmission also sets `PCNT <- 0` (R121); after an unbuffered frame PCNT is 0 already (R130). -/
def receiveAck (b : Byte) (s : State) : State :=
  if s.ackpend.val = 0 then assertFailed .r124 s
  else
    let s := s.emit (.rx (.byte b))
    match decodeAck b with
    | .protocolViolation v => raiseLink (.linkAck v) s
    | .success =>
      let left : Fin 9 := ⟨s.ackpend.val - 1, by omega⟩
      if left.val = 0 then (s.setAckpend left).setPcnt 0 else s.setAckpend left

/-- `readAck()` once `Rx` has answered FAIL, an I/O error or a timeout (R124, R187). -/
def receiveFail (s : State) : State := raiseLink .linkRecv (s.emit (.rx .fail))

/-- Read the outstanding acknowledgements in order, as far as the environment has answered, and stop at the first failure (R121, R123).
With no answer left the block stays in its blocking read, ACKPEND still positive (R242). -/
def reconcileFrom : List RxAnswer → State → State
  | [], s => setRx [] s
  | a :: rest, s =>
    if s.ackpend.val = 0 then setRx (a :: rest) s
    else
      match a with
      | .fail => setRx rest (receiveFail s)
      | .byte b => if b = 0#8 then reconcileFrom rest (receiveAck b s) else setRx rest (receiveAck b s)

/-- Read the outstanding acknowledgements from the transport. -/
def reconcile (s : State) : State := reconcileFrom s.link.rxAnswers s

/-- One transmission and its k acknowledgements (the common part of R121 and R130). -/
def transmit (bytes : List Byte) (k : Fin 9) (s : State) : State :=
  match txAnswer s.link with
  | .fail => raiseLink .linkSend (txCall bytes s)
  | .ok => reconcile ((txCall bytes s).setAckpend k)

/-- The valid frames of PBUF, oldest first (R24). -/
def queued (s : State) : List Frame := s.pbuf.toList.take s.pcnt.val

/-- The frames of a batch, concatenated in FIFO order (R54, R121). -/
def batchBytes (fs : List Frame) : List Byte := fs.flatMap Frame.bytes

/-- `transmitAndReconcile()` (R121). -/
def transmitAndReconcile (s : State) : State := transmit (batchBytes (queued s)) s.pcnt s

/-- `PBUF[PCNT] <- f; PCNT <- PCNT + 1` (R120). -/
def enqueue (f : Frame) (s : State) (h : s.pcnt.val < 8) : State :=
  (s.setPbuf (s.pbuf.set s.pcnt.val f h)).setPcnt ⟨s.pcnt.val + 1, by omega⟩

/-- `submit(f)` (R120). -/
def submit (f : Frame) (s : State) : State :=
  if h : s.ackpend.val = 0 ∧ s.pcnt.val < 8 then
    let s := enqueue f s h.2
    if s.pcnt.val = Config.maxFrames then transmitAndReconcile s else s
  else assertFailed .r120 s

/-- `flush()` (R125, R126). -/
def flush (s : State) : State :=
  if s.ackpend.val ≠ 0 then assertFailed .r125 s
  else if s.pcnt.val = 0 then s
  else transmitAndReconcile s

/-- `sendUnbuffered(f)` (R130, R131). -/
def sendUnbuffered (f : Frame) (s : State) : State :=
  if s.pcnt.val = 0 ∧ s.ackpend.val = 0 then transmit f.bytes 1 s else assertFailed .r130 s

end Sys2Proof.Machine
end

