-- ==== Sys2Proof/Machine/Frames.lean ====
section
/-! DEFINITION. The meanings of the five frames the block sends (40_frame_codec.md, R85) and of the acknowledgements it receives (R101, R124). -/

namespace Sys2Proof.Machine

/-- LOAD d0, d1: its frame is submitted (R104, R120). -/
def execLoad (d0 d1 : Byte) (s : State) : Host.Outcome State Fault Refusal :=
  .next (submit (frameLoad d0 d1) s)

/-- FILL off: its frame is submitted (R105, R120). -/
def execFill (off : Word) (s : State) : Host.Outcome State Fault Refusal :=
  .next (submit (frameFill off) s)

/-- ERASE base: an unbuffered exchange (R106, R130). -/
def execErase (base : Word) (s : State) : Host.Outcome State Fault Refusal :=
  .next (sendUnbuffered (frameErase base) s)

/-- WRITE base: an unbuffered exchange (R107, R130). -/
def execWrite (base : Word) (s : State) : Host.Outcome State Fault Refusal :=
  .next (sendUnbuffered (frameWrite base) s)

/-- HANDSHAKE: the all-zero frame in an unbuffered exchange (R85, R130). -/
def execHandshake (s : State) : Host.Outcome State Fault Refusal :=
  .next (sendUnbuffered frameHandshake s)

/-- ACK_SUCCESS: the byte 0x00 is received (R101, R124). -/
def execAckSuccess (s : State) : Host.Outcome State Fault Refusal :=
  .next (receiveAck 0x00#8 s)

/-- ACK_VIOLATION b: any other byte is received (R101, R124). -/
def execAckViolation (b : Byte) (s : State) : Host.Outcome State Fault Refusal :=
  .next (receiveAck b s)

end Sys2Proof.Machine
end

