-- ==== Sys2Proof/Machine/PageWriter.lean ====
section
/-! DEFINITION. The Page Writer (42_page_writer.md): guards, reset-vector redirection, the start of a page pass, and the frames of a page. -/

namespace Sys2Proof.Machine

/-- The start of `pagePass(base, pass)`: PW_BASE, PW_PASS, SEQ = S_FILL, the fill loop at its first word (R160, R164). -/
def startPass (base : Nat) (pass : Pass) (s : State) : State :=
  (s.setPw { s.pw with pass := pass, base := BitVec.ofNat 16 base, idx := 0, half := .load }).setSeq .fill

/-- Whether a word encodes a relative jump, `w[15:12] == 0xC` (R151). -/
def isRelativeJump (w : Word) : Bool := decide (w.toNat / 2 ^ Config.rjmpOffsetBits = Config.rjmpNibble)

/-- VEC, the redirected vector (R154), or its ADD16 alternative (U14). -/
def redirectedVector (c : Cfg) (orig : Word) : Word :=
  match c.redirect with
  | .field12 =>
    0xC000#16 ||| BitVec.ofNat 16 ((orig.toNat % 2 ^ Config.rjmpOffsetBits + c.reservedSize / 2) % 2 ^ Config.rjmpOffsetBits)
  | .add16 => BitVec.ofNat 16 (orig.toNat + c.reservedSize / 2)

/-- The image writes of `redirect()`: the boot jump, then the vector (R153, R155). -/
def redirectWrites (orig : Word) (s : State) : Host.Outcome State Fault Refusal :=
  andThen (imgWriteWord 0 s.cfg.bootJump s)
    (imgWriteWord s.cfg.reservedStart (redirectedVector s.cfg orig))

/-- SEQ = S_REDIRECT: capture, check, boot-jump write, vector write (R150 to R155), then the pass of RESV_PAGE begins (R145, R156). -/
def redirectPhase (s : State) : Host.Outcome State Fault Refusal :=
  match imgWord s 0 with
  | none => .fault (.imageAddress 0)
  | some orig =>
    let s := s.setPw { s.pw with orig := orig }
    if isRelativeJump orig then
      andThen (redirectWrites orig s) (fun t => .next (startPass t.cfg.resvPage .resv t))
    else .next (raisePolicy (.badResetVector orig) s)

/-- SEQ = S_GUARD: the guards in their order, the request preconditions, and the choice of path (R140 to R147). -/
def guardPhase (address byteCount : Nat) (s : State) : Host.Outcome State Fault Refusal :=
  if s.img.tag ≠ Config.flashTag then .next (finish .unsupported s)
  else if s.cfg.reservedStart ≤ address then .next (raisePolicy (.reservedRegion address) s)
  else if s.cfg.reservedStart - s.cfg.pageSize < address then .next (finish (.ok byteCount) s)
  else if address % s.cfg.pageSize ≠ 0 ∨ byteCount ≠ s.cfg.pageSize then .refused .requestNotOnePage
  else if address = 0 then redirectPhase (s.setSeq .redirect)
  else .next (startPass address .main s)

/-- The frames of `WORD base, i` (R92, R160). -/
def wordFrames (read : Nat → Byte) (base i : Nat) : List Frame :=
  [frameLoad (read (base + 2 * i)) (read (base + 2 * i + 1)), frameFill (BitVec.ofNat 16 (2 * i))]

/-- The frames of the fill of a page of `size` bytes at `base`: `WORD base, 0` .. `WORD base, size/2 − 1` (R92, R160). -/
def fillFrames (read : Nat → Byte) (base size : Nat) : List Frame :=
  (List.range (size / 2)).flatMap (wordFrames read base)

end Sys2Proof.Machine
end

