-- ==== Sys2Proof/Machine/Sequencer.lean ====
section
/-! DEFINITION. The sequencer (R27): what the block does next inside an entry point, where it moves when that is done, and how far it runs before it blocks. -/

namespace Sys2Proof.Machine

/-- SEQ = S_CLOSE: `TClose(); SESS <- CLOSED; return OK(0)` (R182). -/
def closePhase (s : State) : State := finish (.ok 0) ((s.emit .tclose).setSess .closed)

/-- SEQ = S_FILL: the LOAD or FILL frame of the word at PW_IDX (R160). -/
def fillPhase (s : State) : Host.Outcome State Fault Refusal :=
  match s.pw.half with
  | .load =>
    match loadPayload s with
    | some (d0, d1) => execLoad d0 d1 s
    | none => .fault (.imageAddress (wordAddress s))
  | .fill => execFill (fillPayload s) s

/-- What the block does at each value of SEQ, no acknowledgement outstanding (R27, R147, R164, R181, R182; U13 for S_HANDSHAKE). -/
def seqPhase (s : State) : Host.Outcome State Fault Refusal :=
  match s.seq with
  | .idle => .next s
  | .handshake =>
    match s.cfg.handshake with
    | .zeroFrame => execHandshake s
    | .noFrame => .next (reconcile (s.setAckpend 1))
  | .guard => guardPhase s.pw.addr.toNat s.pw.count.toNat s
  | .redirect => redirectPhase s
  | .fill => fillPhase s
  | .flush => .next (flush s)
  | .erase => execErase s.pw.base s
  | .write => execWrite s.pw.base s
  | .close => .next (closePhase s)

/-- The end of one word's half in the fill loop (R160): LOAD, then FILL, then the next word, then S_FLUSH (R164). -/
def advanceFill (s : State) : State :=
  match s.pw.half with
  | .load => s.setPw { s.pw with half := .fill }
  | .fill =>
    if s.pw.idx.toNat + 1 < s.cfg.pageSize / 2 then
      s.setPw { s.pw with idx := BitVec.ofNat 16 (s.pw.idx.toNat + 1), half := .load }
    else s.setSeq .flush

/-- The end of a page's WRITE exchange: after the RESV pass page 0 itself (R145), after the MAIN pass the return (R148). -/
def advanceWrite (s : State) : State :=
  match s.pw.pass with
  | .resv => startPass 0 .main s
  | .main => finish (.ok s.pw.count.toNat) s

/-- Where SEQ moves when what it names is done (R164, R181). -/
def advance (s : State) : State :=
  match s.seq with
  | .idle => s
  | .handshake => finish (.ok 0) (s.setSess .ready)
  | .guard => s
  | .redirect => s
  | .fill => advanceFill s
  | .flush => s.setSeq .erase
  | .erase => s.setSeq .write
  | .write => advanceWrite s
  | .close => s

/-- Move on if the step `q` of the sequencer is done: not left by a raise, no acknowledgement outstanding, no failed assert. -/
def settle (q : Seq) (s : State) : State :=
  if s.seq = q ∧ s.ackpend.val = 0 ∧ s.faulted = false then advance s else s

/-- Whether the block is in a blocking read that has no answer yet (R186, R242). -/
def blocked (s : State) : Bool := decide (s.ackpend.val ≠ 0) && s.link.rxAnswers.isEmpty

/-- Whether an entry point is running and can go on. -/
def runnable (s : State) : Bool := decide (s.seq ≠ .idle) && !s.faulted && !blocked s

/-- One instruction inside an entry point: the next acknowledgement if one is outstanding, else what SEQ names; then SEQ moves on.
In a blocking read with no answer the block waits where it is (R242). -/
def innerStep (s : State) : Host.Outcome State Fault Refusal :=
  if s.ackpend.val = 0 then andThen (seqPhase s) (fun t => .next (settle s.seq t))
  else
    match s.link.rxAnswers with
    | [] => .next s
    | .fail :: rest => .next (receiveFail (setRx rest s))
    | .byte b :: rest =>
      match decodeAck b with
      | .success => andThen (execAckSuccess (setRx rest s)) (fun t => .next (settle s.seq t))
      | .protocolViolation v => andThen (execAckViolation v (setRx rest s)) (fun t => .next (settle s.seq t))

/-- Run an entry point until it returns or blocks, in at most the given number of inner steps. -/
def drive : Nat → State → Host.Outcome State Fault Refusal
  | 0, s => .next s
  | n + 1, s => if runnable s then andThen (innerStep s) (drive n) else .next s

/-- Inner steps that are enough for any entry point: two passes of S frames, a flush, an erase and a write each (R132, R145), and some to spare.
Were it too few, the call would go on in the next `step`. -/
def callFuel (c : Cfg) : Nat := 2 * (c.pageSize + 4) + 4

/-- Run the entry point that has just been entered (R184). -/
def runCall (s : State) : Host.Outcome State Fault Refusal := drive (callFuel s.cfg) s

/-- The host call as an instruction (R83). -/
def HostCall.instr : HostCall → Instr
  | .init => .init
  | .pageWrite address byteCount => .pageWrite address byteCount
  | .close => .close

/-- The instruction that `step` runs next and the state it runs it in: the host call at the head of the inbox, the acknowledgement byte at the head of the receive stream, or the frame that SEQ names.
None where the block waits, or does something that is no instruction (a flush, a failed `Rx`, a host input that is no call). -/
def fetch (s : State) : Option (Instr × State) :=
  if s.seq = .idle then
    match s.inbox with
    | .call c :: rest => some (c.instr, s.setInbox rest)
    | _ => none
  else if s.ackpend.val = 0 then
    match s.seq, s.cfg.handshake, s.pw.half with
    | .handshake, .zeroFrame, _ => some (.handshake, s)
    | .fill, _, .load => (loadPayload s).map (fun d => (.load d.1 d.2, s))
    | .fill, _, .fill => some (.fill (fillPayload s), s)
    | .erase, _, _ => some (.erase s.pw.base, s)
    | .write, _, _ => some (.write s.pw.base, s)
    | _, _, _ => none
  else
    match s.link.rxAnswers with
    | .byte b :: rest => some (ackInstr b, setRx rest s)
    | _ => none

/-- A transport with an answer for the next `Tx`: OK where none is scripted (log entry 8). -/
def withTxAnswer (l : Link) : Link :=
  match l.txAnswers with
  | [] => { l with txAnswers := [.ok] }
  | _ :: _ => l

/-- The state with no failed assert on record, so that `step` runs. -/
def clearInvariant (s : State) : State := s.setFaults (s.faults.filter (fun c => !c.isInvariant))

/-- Place a page frame where the sequencer builds it: SESS = READY, SEQ at its step, no acknowledgement outstanding (R27). -/
def placeAt (q : Seq) (pw : PageRegs) (s : State) : State :=
  ((((clearInvariant s).setSess .ready).setSeq q).setAckpend 0).setPw pw |>.setLink (withTxAnswer s.link)

/-- The two image bytes that a LOAD at page 0, word 0 reads, in a buffer that has them. -/
def placeWord (d0 d1 : Byte) (im : Image) : Image :=
  { im with mem := memWrite (memWrite im.mem 0 d0) 1 d1, size := max im.size 2 }

/-- Place a host call at the head of the inbox, in a session that admits it (R22). -/
def placeCall (c : HostCall) (q : Sess) (s : State) : State :=
  ((((clearInvariant s).setSess q).setSeq .idle).setInbox (.call c :: s.inbox)).setLink (withTxAnswer s.link)

/-- Place an acknowledgement byte at the head of the receive stream, in a session that is waiting for one (R124). -/
def placeAck (b : Byte) (s : State) : State :=
  let s := setRx (.byte b :: s.link.rxAnswers) (clearInvariant s)
  let s := if s.ackpend.val = 0 then s.setAckpend 1 else s
  if s.seq = .idle then s.setSeq .handshake else s

/-- The state whose next `step` runs the instruction (log entry 8).
A FILL at an odd offset is no frame the block can build (R86), so it has no such state. -/
def placeInstr (i : Instr) (s : State) : State :=
  match i with
  | .load d0 d1 => (placeAt .fill { s.pw with base := 0, idx := 0, half := .load } s).setImg (placeWord d0 d1 s.img)
  | .fill off =>
    if off.toNat % 2 = 0 then placeAt .fill { s.pw with idx := BitVec.ofNat 16 (off.toNat / 2), half := .fill } s else s
  | .erase base => placeAt .erase { s.pw with base := base } s
  | .write base => placeAt .write { s.pw with base := base } s
  | .handshake => ((placeAt .handshake s.pw s).setSess .idle)
  | .ackSuccess => placeAck 0#8 s
  | .ackViolation b => placeAck b s
  | .init => placeCall .init .idle s
  | .pageWrite address byteCount => placeCall (.pageWrite address byteCount) .ready s
  | .close => placeCall .close .ready s

end Sys2Proof.Machine
end

