-- ==== Sys2Proof/Machine/HostCalls.lean ====
section
/-! DEFINITION. The three entry points (43_host_interface.md), their admission, and what the block does between them. -/

namespace Sys2Proof.Machine

/-- Whether an entry point is admitted (R22, R183): the configuration is in WF_CONFIG, no invariant fault stands (R211), no entry point runs, and SESS admits it. -/
def entryRefusal (admits : Sess → Bool) (s : State) : Option Refusal :=
  if s.cfg.wf = false then some .configNotAdmitted
  else if s.faulted = false ∧ s.seq = .idle ∧ admits s.sess = true then none
  else some .entryNotAdmitted

/-- INIT is admitted in IDLE (R22, R181). -/
def Sess.admitsInit : Sess → Bool
  | .idle => true
  | .ready => false
  | .aborted => false
  | .halted => false
  | .closed => false

/-- PAGE_WRITE is admitted in READY (R22, R180). -/
def Sess.admitsPageWrite : Sess → Bool
  | .idle => false
  | .ready => true
  | .aborted => false
  | .halted => false
  | .closed => false

/-- CLOSE is admitted in IDLE, READY and ABORTED (R22, R182). -/
def Sess.admitsClose : Sess → Bool
  | .idle => true
  | .ready => true
  | .aborted => true
  | .halted => false
  | .closed => false

/-- INIT() (R181): the handshake, then SESS = READY. -/
def execInit (s : State) : Host.Outcome State Fault Refusal :=
  match entryRefusal Sess.admitsInit s with
  | some r => .refused r
  | none => runCall (s.setSeq .handshake)

/-- Whether the accessor's sizes are the configuration's (R188). -/
def accessorMatches (s : State) : Bool :=
  decide (s.img.size = s.cfg.imageSize) && decide (s.img.reserved = s.cfg.reservedSize)

/-- PAGE_WRITE(address, byteCount) (R180): the request is latched and `pageWrite` runs (R147). -/
def execPageWrite (address byteCount : Nat) (s : State) : Host.Outcome State Fault Refusal :=
  match entryRefusal Sess.admitsPageWrite s with
  | some r => .refused r
  | none =>
    if accessorMatches s then
      andThen (guardPhase address byteCount ((latchRequest address byteCount s).setSeq .guard)) runCall
    else .refused .accessorSizes

/-- CLOSE() (R182). -/
def execClose (s : State) : Host.Outcome State Fault Refusal :=
  match entryRefusal Sess.admitsClose s with
  | some r => .refused r
  | none => .next (closePhase (s.setSeq .close))

/-- A call of the host. -/
def callEntry (c : HostCall) (s : State) : Host.Outcome State Fault Refusal :=
  match c with
  | .init => execInit s
  | .pageWrite address byteCount => execPageWrite address byteCount s
  | .close => execClose s

/-- What the block does in S_IDLE: it waits for the host (R27, R231), takes the image it hands over (R188), starts a session (R230), or runs the entry point it calls (R184).
A session start is taken at every SESS, READY among them: the spec does not say whether the earlier session must have ended (DESIGN CHOICE, log entry 23). -/
def hostStep (s : State) : Host.Outcome State Fault Refusal :=
  match s.inbox with
  | [] => .next s
  | .call c :: rest => callEntry c (s.setInbox rest)
  | .image im :: rest => .next ((s.setInbox rest).setImg im.canon)
  | .session cfg :: rest => beginSession cfg (s.setInbox rest)

/-- What a faulted state admits: nothing but the start of a session, which empties FAULTS (R30, R211, R230). -/
def faultedStep (s : State) : Host.Outcome State Fault Refusal :=
  match s.inbox with
  | .session cfg :: rest => beginSession cfg (s.setInbox rest)
  | _ => .fault .invariantRecorded

/-- One step of the machine. -/
def machineStep (s : State) : Host.Outcome State Fault Refusal :=
  if s.faulted then faultedStep s
  else if s.seq = .idle then hostStep s
  else innerStep s

end Sys2Proof.Machine
end

