-- ==== Sys2Proof/Machine/Dispatch.lean ====
section
/-! DEFINITION. One arm per instruction: its meaning. -/

namespace Sys2Proof.Machine

def exec (i : Instr) (s : State) : Host.Outcome State Fault Refusal :=
  match i with
  | .load d0 d1 => Sys2Proof.Machine.execLoad d0 d1 s
  | .fill off => Sys2Proof.Machine.execFill off s
  | .erase base => Sys2Proof.Machine.execErase base s
  | .write base => Sys2Proof.Machine.execWrite base s
  | .handshake => Sys2Proof.Machine.execHandshake s
  | .ackSuccess => Sys2Proof.Machine.execAckSuccess s
  | .ackViolation b => Sys2Proof.Machine.execAckViolation b s
  | .init => Sys2Proof.Machine.execInit s
  | .pageWrite address byteCount => Sys2Proof.Machine.execPageWrite address byteCount s
  | .close => Sys2Proof.Machine.execClose s

end Sys2Proof.Machine
end

