-- ==== Sys2Proof/Machine/Step.lean ====
section
/-! DEFINITION. The step function, and the state whose next step runs a given word. -/

namespace Sys2Proof.Machine

/-- One step: one instruction, or one host input that is no instruction, or waiting. -/
def step (s : State) : Host.Outcome State Fault Refusal := machineStep s

/-- `s` with the instruction of a table word placed where `step` takes its next instruction from.
A word that is no instruction leaves `s` as it is: nothing of the block holds such a word. -/
def State.withFetchWord (s : State) (nbits w : Nat) : State :=
  match decodeTableWord nbits w with
  | some i => placeInstr i s
  | none => s

end Sys2Proof.Machine
end

