-- ==== Sys2Proof/Safety.lean ====
section
/-! DEFINITION. What a safe run is, in the terms the statements use: the invariant of the machine, the wire, the moves of SESS, and the events the rules give a page. -/

namespace Sys2Proof.Machine

/-! The invariant. -/

/-- What holds while a page is being transmitted (S_FILL to S_WRITE): the session is READY, the image is the configured flash image,
PW_COUNT is the page size, and PW_BASE is a page that the pass may send: an ordinary page or page 0 in the MAIN pass, RESV_PAGE in the RESV pass (R58, R144, R164, R166). -/
def PageInv (s : State) : Prop :=
  s.sess = .ready ∧ s.img.tag = Config.flashTag
  ∧ s.img.size = s.cfg.imageSize ∧ s.img.reserved = s.cfg.reservedSize
  ∧ s.pw.count.toNat = s.cfg.pageSize
  ∧ s.pw.base.toNat % s.cfg.pageSize = 0
  ∧ match s.pw.pass with
    | .main => s.pw.base.toNat + s.cfg.pageSize ≤ s.cfg.reservedStart
    | .resv => s.pw.base.toNat = s.cfg.resvPage

/-- How many frames of the page the fill loop has built before the one it is at (R160). -/
def framesBuilt (s : State) : Nat :=
  2 * s.pw.idx.toNat + match s.pw.half with
    | .load => 0
    | .fill => 1

/-- The channel during the fill (R25, R26): between frames the buffer holds what the last batch left over, and while acknowledgements are outstanding it is full. -/
def FillInv (s : State) : Prop :=
  s.pw.idx.toNat < s.cfg.pageSize / 2
  ∧ if s.ackpend.val = 0 then s.pcnt.val = framesBuilt s % 8
    else s.pcnt.val = 8 ∧ framesBuilt s % 8 = 7

/-- The channel during the end-of-fill flush (R161, R125). -/
def FlushInv (s : State) : Prop :=
  s.pcnt.val = s.cfg.pageSize % 8 ∧ s.ackpend.val ≤ s.pcnt.val

/-- The channel during an unbuffered exchange (R130, R131). -/
def UnbufferedInv (s : State) : Prop := s.pcnt.val = 0 ∧ s.ackpend.val ≤ 1

/-- What holds at each value of SEQ between two steps.
Between steps SEQ is never S_GUARD, S_REDIRECT or S_CLOSE: nothing can block there. -/
def PhaseInv (s : State) : Prop :=
  match s.seq with
  | .idle => s.sess = .idle ∨ s.sess = .ready → s.pcnt.val = 0 ∧ s.ackpend.val = 0
  | .handshake => s.sess = .idle ∧ UnbufferedInv s
  | .guard => False
  | .redirect => False
  | .fill => PageInv s ∧ FillInv s
  | .flush => PageInv s ∧ FlushInv s
  | .erase => PageInv s ∧ UnbufferedInv s
  | .write => PageInv s ∧ UnbufferedInv s
  | .close => False

/-- The invariant of the machine: an admitted configuration (R8), a canonical image, FAULTS a set with no F_INVARIANT (R30, R131, R211), and SEQ's own (R25, R26, R34). -/
structure Inv (s : State) : Prop where
  cfg_wf : s.cfg.wf = true
  img_wf : s.img.wf = true
  faults_nodup : s.faults.Nodup
  no_invariant_fault : s.faulted = false
  phase : PhaseInv s

/-! The wire. -/

/-- The frames that go out in batches (R84, R104, R105). -/
def isPipelined : Instr → Bool
  | .load _ _ => true
  | .fill _ => true
  | .erase _ => false
  | .write _ => false
  | .handshake => false
  | .ackSuccess => false
  | .ackViolation _ => false
  | .init => false
  | .pageWrite _ _ => false
  | .close => false

/-- A transmission as a reader of the stream sees it: 1 to 8 LOAD and FILL frames, or one ERASE frame, or one WRITE frame (R91, R103, R131). -/
def TransmissionOk (bytes : List Byte) : Prop :=
  ∃ is : List Instr, decodeTransmission bytes = .ok is ∧
    ((1 ≤ is.length ∧ is.length ≤ 8 ∧ is.all isPipelined = true)
      ∨ (∃ base, is = [.erase base]) ∨ (∃ base, is = [.write base]))

/-- The buffer holds LOAD and FILL frames only, and every transmission so far was well formed. -/
def WireOk (s : State) : Prop :=
  (∀ f ∈ queued s, ∃ i, decodeFrame f = .ok i ∧ isPipelined i = true)
  ∧ ∀ bytes, Event.tx bytes ∈ s.events → TransmissionOk bytes

/-- Whether a page address may be erased or written: page-aligned, and no byte of the page is a bootloader code byte (R58, R64). -/
def PageMaySend (c : Cfg) (base : Word) : Prop :=
  base.toNat % c.pageSize = 0 ∧ base.toNat + c.pageSize ≤ c.reservedStart + 2

/-! Outcomes and moves of SESS. -/

/-- The moves of SESS (R23), staying where it is among them. -/
def SessMove : Sess → Sess → Prop
  | .idle, .idle => True
  | .idle, .ready => True
  | .idle, .aborted => True
  | .idle, .closed => True
  | .ready, .ready => True
  | .ready, .aborted => True
  | .ready, .halted => True
  | .ready, .closed => True
  | .aborted, .aborted => True
  | .aborted, .closed => True
  | .halted, .halted => True
  | .closed, .closed => True
  | _, _ => False

/-- Whether the next step takes a host input that starts a session: one stands first, and the block is in S_IDLE or faulted.
An input behind a running call is not taken. -/
def startsSession (s : State) : Bool :=
  (decide (s.seq = .idle) || s.faulted) &&
    match s.inbox with
    | .session _ :: _ => true
    | _ => false

/-- Whether the next step takes a host input that hands over an image: one stands first, and the block is in S_IDLE.
An input behind a running call is not taken. -/
def handsImage (s : State) : Bool :=
  decide (s.seq = .idle) &&
    match s.inbox with
    | .image _ :: _ => true
    | _ => false

/-- The byte that an image the host hands over holds at an address: the last cell listed for it, 0xFF where none is, and nothing at or above the size (log entries 7 and 18). -/
def handedByte (im : Image) (a : Nat) : Byte :=
  if a < im.size then
    match (im.mem.filter (fun c => c.1 = a)).getLast? with
    | some c => c.2
    | none => 0xFF#8
  else 0xFF#8

/-- The link error a failing acknowledgement is (R201), none for the success byte. -/
def failureCause : RxAnswer → Option Cause
  | .fail => some .linkRecv
  | .byte b => if b = 0#8 then none else some (.linkAck b)

/-- A failing transport call and the cause it is recorded under (R201, R205). -/
def FailingCall : Event → Cause → Prop
  | .tx _, .linkSend => True
  | .rx a, c => failureCause a = some c
  | _, _ => False

/-! Conditions under which instructions run. -/

/-- An instruction whose frame is sent pipelined, and that frame written out (R104, R105). -/
def PipelinedFrame (i : Instr) (f : Frame) : Prop :=
  (∃ d0 d1, i = .load d0 d1 ∧ f = ⟨d0, d1, d0 ^^^ d1, 0x00#8⟩)
  ∨ (∃ off, i = .fill off ∧ f = ⟨lo off, hi off, lo off ^^^ hi off ^^^ 0x01#8, 0x01#8⟩)

/-- An instruction whose frame is sent unbuffered, and that frame written out (R85, R106, R107). -/
def UnbufferedFrame (i : Instr) (f : Frame) : Prop :=
  (∃ base, i = .erase base ∧ f = ⟨lo base, hi base, lo base ^^^ hi base ^^^ 0x03#8, 0x03#8⟩)
  ∨ (∃ base, i = .write base ∧ f = ⟨lo base, hi base, lo base ^^^ hi base ^^^ 0x05#8, 0x05#8⟩)
  ∨ (i = .handshake ∧ f = ⟨0x00#8, 0x00#8, 0x00#8, 0x00#8⟩)

/-- A host call that is admitted when SESS is `q` (R22, R183). -/
abbrev Admitted (q : Sess) (s : State) : Prop :=
  s.cfg.wf = true ∧ s.faulted = false ∧ s.seq = .idle ∧ s.sess = q

/-- An admitted PAGE_WRITE whose accessor has the configured sizes (R180, R188). -/
abbrev PageWriteAdmitted (s : State) : Prop :=
  Admitted .ready s ∧ s.img.size = s.cfg.imageSize ∧ s.img.reserved = s.cfg.reservedSize

/-- The channel is empty and nothing is outstanding (R34). -/
abbrev ChannelEmpty (s : State) : Prop := s.pcnt.val = 0 ∧ s.ackpend.val = 0

/-! The events the rules give a page whose every answer is a success (R132, R160 to R164). -/

/-- The batches of a fill: eight frames each, the last one what is left (R120, R125). -/
def batches (fs : List Frame) : List (List Frame) :=
  (List.range ((fs.length + 7) / 8)).map (fun j => (fs.drop (8 * j)).take 8)

/-- One batch and its acknowledgements (R121). -/
def batchEvents (fs : List Frame) : List Event :=
  .tx (batchBytes fs) :: List.replicate fs.length (.rx (.byte 0#8))

/-- One unbuffered exchange (R130). -/
def exchangeEvents (f : Frame) : List Event := [.tx f.bytes, .rx (.byte 0#8)]

/-- One page pass (R164). -/
def pageEvents (read : Nat → Byte) (base size : Nat) : List Event :=
  (batches (fillFrames read base size)).flatMap batchEvents
    ++ exchangeEvents (frameErase (BitVec.ofNat 16 base)) ++ exchangeEvents (frameWrite (BitVec.ofNat 16 base))

/-- How many `Tx` calls a page pass makes (R132, R165). -/
def pageTxCount (size : Nat) : Nat := size / 8 + (if size % 8 = 0 then 0 else 1) + 2

/-- How many `Rx` calls a page pass makes (R132, R165). -/
def pageRxCount (size : Nat) : Nat := size + 2

/-- The number of the redirected vector: the add in the 12-bit field (R154), or the alternative 16-bit add (U14). -/
def vectorNumber (c : Cfg) (orig : Word) : Nat :=
  match c.redirect with
  | .field12 => 0xC000 + (orig.toNat % 0x1000 + c.reservedSize / 2) % 0x1000
  | .add16 => (orig.toNat + c.reservedSize / 2) % 0x10000

/-- The four image writes of the redirection (R153, R155). -/
def redirectEvents (c : Cfg) (vec : Word) : List Event :=
  [.imgw 0 (lo c.bootJump), .imgw 1 (hi c.bootJump), .imgw c.reservedStart (lo vec), .imgw (c.reservedStart + 1) (hi vec)]

/-- The image bytes after the redirection (R153, R155). -/
def redirectedRead (c : Cfg) (vec : Word) (read : Nat → Byte) (a : Nat) : Byte :=
  if a = 0 then lo c.bootJump
  else if a = 1 then hi c.bootJump
  else if a = c.reservedStart then lo vec
  else if a = c.reservedStart + 1 then hi vec
  else read a

/-- The word index that an AVR `RJMP` at word `p` jumps to in a flash of `n` words: general knowledge of R158, no behaviour of the block. -/
def rjmpTarget (n p : Nat) (w : Word) : Int :=
  let k : Int := (w.toNat % 0x1000 : Nat)
  let off : Int := if k < 0x800 then k else k - 0x1000
  ((p : Int) + off + 1) % (n : Int)

end Sys2Proof.Machine
end

