-- ==== Sys2Proof/Certificates/Slice0/Obligations.lean ====
section
/-! DEFINITION. The statements for the provers, one `def Obligations.<Name> : Prop` each, grouped by the spec's files. -/

open Sys2Proof Sys2Proof.Machine

/-! Frame Codec (40_frame_codec.md, 30_encoding.md). -/

/-- R100: the encoder's four bytes, for every input. -/
def Obligations.EncoderBuildsTheFourBytes : Prop :=
  ∀ pl ph c : Byte, enc pl ph c = ⟨pl, ph, pl ^^^ ph ^^^ c, c⟩ ∧ (enc pl ph c).bytes = [pl, ph, pl ^^^ ph ^^^ c, c]

/-- R102: the checksum laws. `m` stands for the changed bits, one or several. -/
def Obligations.ChecksumLaws : Prop :=
  ∀ pl ph c m : Byte,
    (enc pl ph c).b0 ^^^ (enc pl ph c).b1 ^^^ (enc pl ph c).b2 ^^^ (enc pl ph c).b3 = 0#8
    ∧ (∀ cs, pl ^^^ ph ^^^ cs ^^^ c = 0#8 → cs = (enc pl ph c).b2)
    ∧ (enc (pl ^^^ m) ph c).b2 = (enc pl ph c).b2 ^^^ m
    ∧ (enc pl (ph ^^^ m) c).b2 = (enc pl ph c).b2 ^^^ m
    ∧ (enc pl ph (c ^^^ m)).b2 = (enc pl ph c).b2 ^^^ m
    ∧ (enc (pl ^^^ m) (ph ^^^ m) c).b2 = (enc pl ph c).b2
    ∧ (enc (pl ^^^ m) ph (c ^^^ m)).b2 = (enc pl ph c).b2
    ∧ (enc pl (ph ^^^ m) (c ^^^ m)).b2 = (enc pl ph c).b2

/-- R101, R82, R90: every acknowledgement byte has its meaning. -/
def Obligations.AckDecoderIsTotal : Prop :=
  decodeAck 0x00#8 = .success ∧ decode (.ack 0x00#8) = .ok .ackSuccess
  ∧ ∀ b : Byte, b ≠ 0x00#8 → decodeAck b = .protocolViolation b ∧ decode (.ack b) = .ok (.ackViolation b)

/-- Decoding an encoded well-formed instruction gives it back, HANDSHAKE as the LOAD frame it is bit-identical to (R85). -/
def Obligations.DecodeOfEncode : Prop :=
  ∀ (c : Cfg) (i : Instr), i.wf c = true →
    decode (encode i) = .ok i.onWire ∧ (i ≠ .handshake → i.onWire = i) ∧ encode i.onWire = encode i

/-- The other direction: a transaction that decodes is the encoding of the instruction that the decoder reads it as (R82, R83, R101, R103).
The zero frame is HANDSHAKE's encoding too (R85). -/
def Obligations.EncodeOfDecode : Prop :=
  ∀ (x : Transaction) (i : Instr), decode x = .ok i → encode i = x

/-- R103: which frames are rejected, and under which name; the checksum is checked first. -/
def Obligations.ClassifierRejectsByName : Prop :=
  ∀ f : Frame,
    (decodeFrame f = .error .badChecksum ↔ f.b2 ≠ f.b0 ^^^ f.b1 ^^^ f.b3)
    ∧ ∀ c : Byte, decodeFrame f = .error (.unknownCmd c) ↔
        f.b2 = f.b0 ^^^ f.b1 ^^^ f.b3 ∧ f.b3 = c ∧ c ≠ 0x00#8 ∧ c ≠ 0x01#8 ∧ c ≠ 0x03#8 ∧ c ≠ 0x05#8

/-- A few frames and acknowledgement bytes written out from the spec's encodings (R81, R82, R84, R101; V-R103) decode to what they stand for.
The two clauses about `decodeTableWord`, how a table word is read and that one with a wrong checksum is no instruction, are the model's reading (log entry 16). -/
def Obligations.WrittenOutWordsDecode : Prop :=
  decodeBytes .transmit [0x12#8, 0x34#8, 0x26#8, 0x00#8] = .ok (.load 0x12#8 0x34#8, [])
  ∧ decodeBytes .transmit [0x3E#8, 0x00#8, 0x3F#8, 0x01#8] = .ok (.fill 0x003E#16, [])
  ∧ decodeBytes .transmit [0x80#8, 0x1F#8, 0x9C#8, 0x03#8] = .ok (.erase 0x1F80#16, [])
  ∧ decodeBytes .transmit [0x80#8, 0x1F#8, 0x9A#8, 0x05#8] = .ok (.write 0x1F80#16, [])
  ∧ decodeBytes .receive [0x00#8] = .ok (.ackSuccess, [])
  ∧ decodeBytes .receive [0x3F#8] = .ok (.ackViolation 0x3F#8, [])
  ∧ decodeTableWord 32 0x801F9A05 = some (.write 0x1F80#16)
  ∧ decodeTableWord 32 0x00000001 = none

/-! Configuration (00_scope.md, 10_state.md). -/

/-- R8: the admitted configurations, in the rule's own words over the integers; any other is refused at the start of a session (R21, R230).
That every entry point of a state that holds another is refused, and that a faulted state takes a session start, are the model's reading (log entries 15 and 12). -/
def Obligations.ConfigurationAdmission : Prop :=
  ∀ c : Cfg,
    (c.wf = true ↔
      (c.pageSize % 2 = 0 ∧ 4 ≤ c.pageSize)
      ∧ (c.imageSize % c.pageSize = 0 ∧ c.imageSize ≤ 0x10000)
      ∧ (2 ≤ c.reservedSize ∧ (c.reservedSize - 2) % c.pageSize = 0)
      ∧ (c.imageSize : Int) - c.reservedSize - c.pageSize + 2 ≥ c.pageSize)
    ∧ (c.wf = false → ∀ (s : State) (rest : List HostInput),
        (s.inbox = .session c :: rest → s.seq = .idle ∨ s.faulted = true → step s = .refused .configNotAdmitted)
        ∧ (s.cfg = c → exec .init s = .refused .configNotAdmitted
            ∧ (∀ a n, exec (.pageWrite a n) s = .refused .configNotAdmitted) ∧ exec .close s = .refused .configNotAdmitted))

/-- R9: where the reserved-region page lies. -/
def Obligations.ReservedPageArithmetic : Prop :=
  ∀ c : Cfg, c.wf = true →
    (c.reservedStart + 2) % c.pageSize = 0 ∧ c.resvPage % c.pageSize = 0
    ∧ c.reservedStart - c.pageSize < c.resvPage ∧ c.resvPage < c.reservedStart
    ∧ ∀ a, c.reservedStart - c.pageSize < a → a < c.reservedStart → (a % c.pageSize = 0 ↔ a = c.resvPage)

/-- R35: the reset values the spec gives. -/
def Obligations.ResetValues : Prop :=
  State.reset.sess = .idle ∧ State.reset.pcnt.val = 0 ∧ State.reset.ackpend.val = 0 ∧ State.reset.seq = .idle
  ∧ State.reset.faults = []

/-- R230, R231, R8: the start of a session, from S_IDLE or from a faulted state, with an admitted configuration and with another.
That it is taken at any SESS (log entry 23) and from a faulted state inside a call (log entry 12), and that the record of events and outcomes is kept across sessions (log entry 17), are the model's choices. -/
def Obligations.SessionStart : Prop :=
  ∀ (s : State) (c : Cfg) (rest : List HostInput),
    s.inbox = .session c :: rest → s.seq = .idle ∨ s.faulted = true →
      (c.wf = true → ∃ t, step s = .next t
        ∧ t.sess = .idle ∧ t.pcnt.val = 0 ∧ t.ackpend.val = 0 ∧ t.seq = .idle ∧ t.faults = [] ∧ t.cfg = c
        ∧ t.img = s.img ∧ t.link = s.link ∧ t.events = s.events ∧ t.results = s.results ∧ t.inbox = rest)
      ∧ (c.wf = false → step s = .refused .configNotAdmitted)

/-! Pipelined Ack Channel (41_ack_channel.md). -/

/-- R120, R104, R105: below capacity a LOAD or FILL is queued at PBUF[PCNT] and nothing else changes: no event, no answer used. -/
def Obligations.SubmitBelowCapacityQueues : Prop :=
  ∀ (i : Instr) (f : Frame) (s : State), PipelinedFrame i f → s.ackpend.val = 0 → s.pcnt.val < 7 →
    ∃ t, exec i s = .next t ∧ t = { s with pbuf := t.pbuf, pcnt := t.pcnt }
      ∧ t.pcnt.val = s.pcnt.val + 1
      ∧ ∀ j : Fin 8, t.pbuf[j] = if j.val = s.pcnt.val then f else s.pbuf[j]

/-- R120, R121: the eighth LOAD or FILL sends all eight frames in one transmission, in FIFO order, and reads eight acknowledgements. -/
def Obligations.SubmitAtCapacitySendsTheBatch : Prop :=
  ∀ (i : Instr) (f : Frame) (s : State) (rest : List RxAnswer),
    PipelinedFrame i f → s.ackpend.val = 0 → s.pcnt.val = 7 → txAnswer s.link = .ok →
    s.link.rxAnswers = List.replicate 8 (.byte 0#8) ++ rest →
    ∃ t, exec i s = .next t
      ∧ t = { s with
          pbuf := t.pbuf
          pcnt := 0
          link := { txTaken s.link with rxAnswers := rest }
          events := s.events ++ .tx (batchBytes (s.pbuf.toList.take 7 ++ [f])) :: List.replicate 8 (.rx (.byte 0#8)) }
      ∧ ∀ j : Fin 8, t.pbuf[j] = if j.val = 7 then f else s.pbuf[j]

/-- R121, R203, R127: a failed send of a full batch: no acknowledgement is read, the session is aborted, PCNT stays at 8 and PBUF holds the batch. -/
def Obligations.FailedBatchSendAborts : Prop :=
  ∀ (i : Instr) (f : Frame) (s : State),
    PipelinedFrame i f → s.ackpend.val = 0 → s.pcnt.val = 7 → txAnswer s.link = .fail →
    ∃ t, exec i s = .next t
      ∧ t = { s with
          pbuf := t.pbuf
          pcnt := 8
          link := txTaken s.link
          events := s.events ++ [.tx (batchBytes (s.pbuf.toList.take 7 ++ [f]))]
          faults := addCause .linkSend s.faults
          sess := .aborted
          seq := .idle
          results := s.results ++ [.linkFailure .linkSend] }
      ∧ ∀ j : Fin 8, t.pbuf[j] = if j.val = 7 then f else s.pbuf[j]

/-- R123, R124, R203: in a batch of eight the first failing acknowledgement, after `j` successes, ends it: the rest are never read, and PBUF still holds the batch (R127). -/
def Obligations.BatchStopsAtFirstFailure : Prop :=
  ∀ (i : Instr) (f : Frame) (s : State) (j : Nat) (a : RxAnswer) (c : Cause) (rest : List RxAnswer),
    PipelinedFrame i f → s.ackpend.val = 0 → s.pcnt.val = 7 → txAnswer s.link = .ok → j < 8 →
    failureCause a = some c → s.link.rxAnswers = List.replicate j (.byte 0#8) ++ a :: rest →
    ∃ t, exec i s = .next t
      ∧ t = { s with
          pbuf := t.pbuf
          pcnt := 8
          ackpend := t.ackpend
          link := { txTaken s.link with rxAnswers := rest }
          events := s.events ++ .tx (batchBytes (s.pbuf.toList.take 7 ++ [f])) :: List.replicate j (.rx (.byte 0#8)) ++ [.rx a]
          faults := addCause c s.faults
          sess := .aborted
          seq := .idle
          results := s.results ++ [.linkFailure c] }
      ∧ t.ackpend.val = 8 - j
      ∧ ∀ n : Fin 8, t.pbuf[n] = if n.val = 7 then f else s.pbuf[n]

/-- R130, R106, R107, R85: an unbuffered frame goes out alone and one acknowledgement is read; nothing else changes. -/
def Obligations.UnbufferedExchangeCompletes : Prop :=
  ∀ (i : Instr) (f : Frame) (s : State) (rest : List RxAnswer),
    UnbufferedFrame i f → ChannelEmpty s → txAnswer s.link = .ok → s.link.rxAnswers = .byte 0#8 :: rest →
    exec i s = .next { s with
      link := { txTaken s.link with rxAnswers := rest }
      events := s.events ++ [.tx [f.b0, f.b1, f.b2, f.b3], .rx (.byte 0#8)] }

/-- R130, R124, R203: an unbuffered exchange whose send fails, or whose acknowledgement fails: the failing call is the last event. -/
def Obligations.UnbufferedExchangeFails : Prop :=
  ∀ (i : Instr) (f : Frame) (s : State), UnbufferedFrame i f → ChannelEmpty s →
    (txAnswer s.link = .fail →
      exec i s = .next { s with
        link := txTaken s.link
        events := s.events ++ [.tx [f.b0, f.b1, f.b2, f.b3]]
        faults := addCause .linkSend s.faults
        sess := .aborted
        seq := .idle
        results := s.results ++ [.linkFailure .linkSend] })
    ∧ ∀ (a : RxAnswer) (c : Cause) (rest : List RxAnswer),
      txAnswer s.link = .ok → failureCause a = some c → s.link.rxAnswers = a :: rest →
      exec i s = .next { s with
        ackpend := 1
        link := { txTaken s.link with rxAnswers := rest }
        events := s.events ++ [.tx [f.b0, f.b1, f.b2, f.b3], .rx a]
        faults := addCause c s.faults
        sess := .aborted
        seq := .idle
        results := s.results ++ [.linkFailure c] }

/-- R124, R121, R82: a success acknowledgement counts one off; the last one empties the buffer.
That PCNT becomes 0 with the read of the last one, in any state, is the model's reading (log entry 20); R124 itself writes ACKPEND only. -/
def Obligations.AckSuccessCountsOff : Prop :=
  ∀ s : State, s.ackpend.val ≠ 0 →
    ∃ t, exec .ackSuccess s = .next t
      ∧ t = { s with ackpend := t.ackpend, pcnt := t.pcnt, events := s.events ++ [.rx (.byte 0#8)] }
      ∧ t.ackpend.val + 1 = s.ackpend.val
      ∧ t.pcnt.val = if s.ackpend.val = 1 then 0 else s.pcnt.val

/-- R124, R203, R127: any other acknowledgement byte aborts the session; the counts and the buffer are kept. -/
def Obligations.AckViolationAborts : Prop :=
  ∀ (b : Byte) (s : State), b ≠ 0#8 → s.ackpend.val ≠ 0 →
    exec (.ackViolation b) s = .next { s with
      events := s.events ++ [.rx (.byte b)]
      faults := addCause (.linkAck b) s.faults
      sess := .aborted
      seq := .idle
      results := s.results ++ [.linkFailure (.linkAck b)] }

/-- R125, R126, R121, R124: a flush sends what is buffered as one batch, and nothing if nothing is. -/
def Obligations.FlushForcesThePartialBatch : Prop :=
  ∀ s : State, s.ackpend.val = 0 →
    (s.pcnt.val = 0 → flush s = s)
    ∧ ∀ rest, s.pcnt.val ≠ 0 → txAnswer s.link = .ok →
        s.link.rxAnswers = List.replicate s.pcnt.val (.byte 0#8) ++ rest →
        flush s = { s with
          pcnt := 0
          link := { txTaken s.link with rxAnswers := rest }
          events := s.events ++ .tx (batchBytes (s.pbuf.toList.take s.pcnt.val)) :: List.replicate s.pcnt.val (.rx (.byte 0#8)) }

/-- R131, R211: a false assert issues no event and records F_INVARIANT with its rule.
That nothing else happens and that the record is a next state is the model's own reading (log entry 12). -/
def Obligations.FailedAssertIsRecorded : Prop :=
  ∀ s : State,
    (∀ i f, PipelinedFrame i f → ¬ (s.ackpend.val = 0 ∧ s.pcnt.val < 8) →
      exec i s = .next { s with faults := addCause (.invariant .r120) s.faults })
    ∧ (∀ i f, UnbufferedFrame i f → ¬ ChannelEmpty s →
      exec i s = .next { s with faults := addCause (.invariant .r130) s.faults })
    ∧ (s.ackpend.val = 0 →
      exec .ackSuccess s = .next { s with faults := addCause (.invariant .r124) s.faults }
      ∧ ∀ b, exec (.ackViolation b) s = .next { s with faults := addCause (.invariant .r124) s.faults })
    ∧ (s.ackpend.val ≠ 0 → flush s = { s with faults := addCause (.invariant .r125) s.faults })

/-- R211: a faulted state admits no entry point.
That a step from it ends in a fault unless the host starts a session is the model's own reading (log entry 12). -/
def Obligations.FaultedStateAdmitsNothing : Prop :=
  ∀ s : State, s.cfg.wf = true → s.faulted = true →
    exec .init s = .refused .entryNotAdmitted
    ∧ (∀ a n, exec (.pageWrite a n) s = .refused .entryNotAdmitted)
    ∧ exec .close s = .refused .entryNotAdmitted
    ∧ (startsSession s = false → step s = .fault .invariantRecorded)

/-- Acknowledgements delivered in two portions leave the same state as delivered at once (R186, R242): where the block blocks does not show.
That a run is cut into steps there is the model's choice (log entry 10). -/
def Obligations.SplitDeliveryIsTheSame : Prop :=
  ∀ (s : State) (k : Nat) (more : List RxAnswer), k ≤ s.ackpend.val →
    s.link.rxAnswers = List.replicate k (.byte 0#8) →
    reconcile (setRx more (reconcile s)) = reconcile (setRx (s.link.rxAnswers ++ more) s)

/-! Page Writer (42_page_writer.md). -/

/-- R140, R202: a tag that is not `flash` gives UNSUPPORTED before every other check; only the request registers are latched. -/
def Obligations.OtherMemoryClassIsUnsupported : Prop :=
  ∀ (s : State) (a n : Nat), PageWriteAdmitted s → s.img.tag ≠ "flash" →
    ∃ t, exec (.pageWrite a n) s = .next t
      ∧ t = { s with
          pw := { s.pw with addr := t.pw.addr, count := t.pw.count }
          results := s.results ++ [.unsupported] }
      ∧ (a < 0x20000 → t.pw.addr.toNat = a) ∧ (n < 0x20000 → t.pw.count.toNat = n)

/-- R141, R204: a flash request at or above R halts the block: no event, no image write. -/
def Obligations.ReservedRegionRequestHalts : Prop :=
  ∀ (s : State) (a n : Nat), PageWriteAdmitted s → s.img.tag = "flash" → s.cfg.reservedStart ≤ a →
    ∃ t, exec (.pageWrite a n) s = .next t
      ∧ t = { s with
          pw := { s.pw with addr := t.pw.addr, count := t.pw.count }
          faults := addCause (.reservedRegion a) s.faults
          sess := .halted
          results := s.results ++ [.unrecoverable (.reservedRegion a)] }

/-- R142: a flash request with R − S < address < R is a silent success with the requested count, whatever the count and the alignment. -/
def Obligations.PairedPageIsSilentSuccess : Prop :=
  ∀ (s : State) (a n : Nat), PageWriteAdmitted s → s.img.tag = "flash" →
    s.cfg.reservedStart - s.cfg.pageSize < a → a < s.cfg.reservedStart →
    ∃ t, exec (.pageWrite a n) s = .next t
      ∧ t = { s with
          pw := { s.pw with addr := t.pw.addr, count := t.pw.count }
          results := s.results ++ [.ok n] }

/-- R144: past the guards, a request that is unaligned or not one full page is refused. -/
def Obligations.PartialOrUnalignedRequestIsRefused : Prop :=
  ∀ (s : State) (a n : Nat), PageWriteAdmitted s → s.img.tag = "flash" →
    a ≤ s.cfg.reservedStart - s.cfg.pageSize → (a % s.cfg.pageSize ≠ 0 ∨ n ≠ s.cfg.pageSize) →
    exec (.pageWrite a n) s = .refused .requestNotOnePage

/-- R150, R151, R204: page 0 with an entry word whose top nibble is not 0xC halts the block: PW_ORIG holds the word, no event, no image write. -/
def Obligations.BadEntryWordHalts : Prop :=
  ∀ (s : State) (orig : Word), PageWriteAdmitted s → s.img.tag = "flash" →
    orig.toNat = (memRead s.img.mem 0).toNat + 0x100 * (memRead s.img.mem 1).toNat →
    orig.toNat / 0x1000 ≠ 0xC →
    ∃ t, exec (.pageWrite 0 s.cfg.pageSize) s = .next t
      ∧ t = { s with
          pw := { s.pw with addr := t.pw.addr, count := t.pw.count, orig := orig }
          faults := addCause (.badResetVector orig) s.faults
          sess := .halted
          results := s.results ++ [.unrecoverable (.badResetVector orig)] }

/-- R154: the redirected vector in the default mode FIELD12: the add wraps inside the 12-bit field and the top nibble is 0xC. -/
def Obligations.VectorAddsInTheOffsetField : Prop :=
  ∀ (c : Cfg) (orig : Word), c.redirect = .field12 →
    (redirectedVector c orig).toNat = 0xC000 + (orig.toNat % 0x1000 + c.reservedSize / 2) % 0x1000
    ∧ isRelativeJump (redirectedVector c orig) = true

/-- U14: the alternative mode ADD16, and that the two modes agree outside the band, for an entry word that passed the check. -/
def Obligations.RedirectModesAgreeOutsideTheBand : Prop :=
  ∀ (c d : Cfg) (orig : Word), c.redirect = .field12 → d.redirect = .add16 → d.reservedSize = c.reservedSize →
    (redirectedVector d orig).toNat = (orig.toNat + d.reservedSize / 2) % 0x10000
    ∧ (isRelativeJump orig = true → orig.toNat % 0x1000 + c.reservedSize / 2 < 0x1000 →
        redirectedVector d orig = redirectedVector c orig)

/-- The note of R158 (general knowledge): in the default mode the moved jump keeps its target where the flash has N/2 words, N/2 dividing 0x1000. -/
def Obligations.RedirectionKeepsTheTarget : Prop :=
  ∀ (c : Cfg) (orig : Word), c.wf = true → c.redirect = .field12 → 0x1000 % (c.imageSize / 2) = 0 →
    rjmpTarget (c.imageSize / 2) (c.reservedStart / 2) (redirectedVector c orig) = rjmpTarget (c.imageSize / 2) 0 orig

/-- R150 to R157: an accepted page-0 request, whatever the link answers, first issues its four image writes in order, and leaves the image with exactly those four bytes changed.
The vector is that of the configured mode (R154, U14).
That a call cut at an unanswered `Rx` is a next state is the model's choice (log entry 10). -/
def Obligations.RedirectionRewritesFourBytes : Prop :=
  ∀ (s : State) (orig : Word), PageWriteAdmitted s → ChannelEmpty s → s.img.wf = true → s.img.tag = "flash" →
    orig.toNat = (memRead s.img.mem 0).toNat + 0x100 * (memRead s.img.mem 1).toNat →
    orig.toNat / 0x1000 = 0xC →
    ∃ t vec es, exec (.pageWrite 0 s.cfg.pageSize) s = .next t
      ∧ vec.toNat = vectorNumber s.cfg orig
      ∧ t.pw.orig = orig
      ∧ t.events = s.events ++ redirectEvents s.cfg vec ++ es
      ∧ (∀ a, memRead t.img.mem a = redirectedRead s.cfg vec (memRead s.img.mem) a)
      ∧ t.img.tag = s.img.tag ∧ t.img.size = s.img.size ∧ t.img.reserved = s.img.reserved
      ∧ t.cfg = s.cfg ∧ t.inbox = s.inbox
      ∧ (t.sess = .ready ∨ t.sess = .aborted)

/-- R146, R160 to R164, R148: an ordinary page whose every answer is a success: the fill in batches, ERASE, WRITE, and OK with the count; nothing else changes. -/
def Obligations.OrdinaryPageIsWritten : Prop :=
  ∀ (s : State) (a : Nat) (txs : List TxAnswer) (rxs : List RxAnswer),
    PageWriteAdmitted s → ChannelEmpty s → s.img.tag = "flash" →
    0 < a → a ≤ s.cfg.reservedStart - s.cfg.pageSize → a % s.cfg.pageSize = 0 →
    s.link.txAnswers = List.replicate (pageTxCount s.cfg.pageSize) .ok ++ txs →
    s.link.rxAnswers = List.replicate (pageRxCount s.cfg.pageSize) (.byte 0#8) ++ rxs →
    ∃ t, exec (.pageWrite a s.cfg.pageSize) s = .next t
      ∧ t = { s with
          pbuf := t.pbuf
          pw := t.pw
          link := ⟨txs, rxs, s.link.txDraws⟩
          events := s.events ++ pageEvents (memRead s.img.mem) a s.cfg.pageSize
          results := s.results ++ [.ok s.cfg.pageSize] }
      ∧ t.pw = { t.pw with pass := .main, base := BitVec.ofNat 16 a, half := .fill, orig := s.pw.orig }
      ∧ t.pw.addr.toNat = a ∧ t.pw.count.toNat = s.cfg.pageSize ∧ t.pw.idx.toNat = s.cfg.pageSize / 2 - 1

/-- R145, R156, R164: page 0 whose every answer is a success: the four image writes, then the whole pass of RESV_PAGE, then the whole pass of page 0, both reading the rewritten image; OK with the count.
The vector is that of the configured mode (R154, U14). -/
def Obligations.PageZeroIsWritten : Prop :=
  ∀ (s : State) (orig : Word) (txs : List TxAnswer) (rxs : List RxAnswer),
    PageWriteAdmitted s → ChannelEmpty s → s.img.wf = true → s.img.tag = "flash" →
    orig.toNat = (memRead s.img.mem 0).toNat + 0x100 * (memRead s.img.mem 1).toNat →
    orig.toNat / 0x1000 = 0xC →
    s.link.txAnswers = List.replicate (2 * pageTxCount s.cfg.pageSize) .ok ++ txs →
    s.link.rxAnswers = List.replicate (2 * pageRxCount s.cfg.pageSize) (.byte 0#8) ++ rxs →
    ∃ (t : State) (vec : Word), exec (.pageWrite 0 s.cfg.pageSize) s = .next t
      ∧ vec.toNat = vectorNumber s.cfg orig
      ∧ t = { s with
          pbuf := t.pbuf
          pw := t.pw
          img := { s.img with mem := t.img.mem }
          link := ⟨txs, rxs, s.link.txDraws⟩
          events := s.events ++ redirectEvents s.cfg vec
            ++ pageEvents (redirectedRead s.cfg vec (memRead s.img.mem)) s.cfg.resvPage s.cfg.pageSize
            ++ pageEvents (redirectedRead s.cfg vec (memRead s.img.mem)) 0 s.cfg.pageSize
          results := s.results ++ [.ok s.cfg.pageSize] }
      ∧ (∀ a, memRead t.img.mem a = redirectedRead s.cfg vec (memRead s.img.mem) a)
      ∧ t.pw = { t.pw with pass := .main, base := 0, half := .fill, orig := orig }
      ∧ t.pw.addr.toNat = 0 ∧ t.pw.count.toNat = s.cfg.pageSize ∧ t.pw.idx.toNat = s.cfg.pageSize / 2 - 1

/-- R132, R165: how many `Tx` and `Rx` events a successful page pass has, for every even page size of at least one word. -/
def Obligations.PagePassEventCounts : Prop :=
  ∀ (read : Nat → Byte) (base size : Nat), size % 2 = 0 → 2 ≤ size →
    ((pageEvents read base size).filter (fun e => match e with | .tx _ => true | _ => false)).length
      = size / 8 + (if size % 8 = 0 then 0 else 1) + 2
    ∧ ((pageEvents read base size).filter (fun e => match e with | .rx _ => true | _ => false)).length = size + 2
    ∧ (pageEvents read base size).length = pageTxCount size + pageRxCount size

/-! Host entry points (43_host_interface.md). -/

/-- R181: INIT with an accepted handshake (HANDSHAKE_FRAME at its default). -/
def Obligations.InitOpensTheSession : Prop :=
  ∀ (s : State) (rest : List RxAnswer), Admitted .idle s → ChannelEmpty s → s.cfg.handshake = .zeroFrame →
    txAnswer s.link = .ok → s.link.rxAnswers = .byte 0#8 :: rest →
    exec .init s = .next { s with
      sess := .ready
      link := { txTaken s.link with rxAnswers := rest }
      events := s.events ++ [.tx [0x00#8, 0x00#8, 0x00#8, 0x00#8], .rx (.byte 0#8)]
      results := s.results ++ [.ok 0] }

/-- R181, R203: INIT whose send fails, or whose acknowledgement fails. -/
def Obligations.InitFailureAborts : Prop :=
  ∀ s : State, Admitted .idle s → ChannelEmpty s → s.cfg.handshake = .zeroFrame →
    (txAnswer s.link = .fail →
      exec .init s = .next { s with
        sess := .aborted
        link := txTaken s.link
        events := s.events ++ [.tx [0x00#8, 0x00#8, 0x00#8, 0x00#8]]
        faults := addCause .linkSend s.faults
        results := s.results ++ [.linkFailure .linkSend] })
    ∧ ∀ (a : RxAnswer) (c : Cause) (rest : List RxAnswer),
      txAnswer s.link = .ok → failureCause a = some c → s.link.rxAnswers = a :: rest →
      exec .init s = .next { s with
        sess := .aborted
        ackpend := 1
        link := { txTaken s.link with rxAnswers := rest }
        events := s.events ++ [.tx [0x00#8, 0x00#8, 0x00#8, 0x00#8], .rx a]
        faults := addCause c s.faults
        results := s.results ++ [.linkFailure c] }

/-- U13: in the alternative reading of the handshake INIT sends no frame and reads one acknowledgement.
That ACKPEND counts that byte is the model's choice (log entry 11); it is 0 before and after. -/
def Obligations.InitWithoutAFrame : Prop :=
  ∀ (s : State) (rest : List RxAnswer), Admitted .idle s → ChannelEmpty s → s.cfg.handshake = .noFrame →
    s.link.rxAnswers = .byte 0#8 :: rest →
    exec .init s = .next { s with
      sess := .ready
      link := { s.link with rxAnswers := rest }
      events := s.events ++ [.rx (.byte 0#8)]
      results := s.results ++ [.ok 0] }

/-- R182: CLOSE from IDLE, READY or ABORTED releases the transport and does nothing else. -/
def Obligations.CloseReleasesTheTransport : Prop :=
  ∀ s : State, Admitted .idle s ∨ Admitted .ready s ∨ Admitted .aborted s →
    exec .close s = .next { s with
      sess := .closed
      events := s.events ++ [.tclose]
      results := s.results ++ [.ok 0] }

/-- R183, R22: an entry point that SESS or SEQ does not admit is refused. -/
def Obligations.EntryPointsNotAdmittedAreRefused : Prop :=
  ∀ s : State, s.cfg.wf = true →
    (s.seq ≠ .idle ∨ s.sess ≠ .idle → exec .init s = .refused .entryNotAdmitted)
    ∧ (s.seq ≠ .idle ∨ s.sess ≠ .ready → ∀ a n, exec (.pageWrite a n) s = .refused .entryNotAdmitted)
    ∧ (s.seq ≠ .idle ∨ s.sess = .halted ∨ s.sess = .closed → exec .close s = .refused .entryNotAdmitted)

/-- R188: a PAGE_WRITE whose accessor's sizes differ from the configuration is refused.
That this comes before every guard, the tag guard of R140 among them, is the model's reading (log entry 14). -/
def Obligations.OtherAccessorSizesAreRefused : Prop :=
  ∀ (s : State) (a n : Nat), Admitted .ready s →
    s.img.size ≠ s.cfg.imageSize ∨ s.img.reserved ≠ s.cfg.reservedSize →
    exec (.pageWrite a n) s = .refused .accessorSizes

/-! Outcomes and errors (60_exceptions.md). -/

/-- R200, R201: the codes of the outcomes and of the causes. -/
def Obligations.OutcomeAndCauseCodes : Prop :=
  (∀ n, (Result.ok n).code = 0x00#8) ∧ Result.unsupported.code = 0x01#8
  ∧ (∀ c, (Result.linkFailure c).code = 0x02#8) ∧ (∀ c, (Result.unrecoverable c).code = 0x03#8)
  ∧ Cause.linkSend.code = 0x10#8 ∧ Cause.linkRecv.code = 0x11#8 ∧ (∀ b, (Cause.linkAck b).code = 0x12#8)
  ∧ (∀ a, (Cause.reservedRegion a).code = 0x20#8) ∧ (∀ w, (Cause.badResetVector w).code = 0x21#8)
  ∧ (∀ r, (Cause.invariant r).code = 0x30#8)

/-- R203, R205, R206: a step that aborts the session returns LINK_FAILURE with its cause recorded, its last event is the first failing call, and it issues nothing after it. -/
def Obligations.AbortIsPrecise : Prop :=
  ∀ s t : State, Inv s → step s = .next t → s.sess ≠ .aborted → t.sess = .aborted →
    ∃ es e c, t.events = s.events ++ es ++ [e] ∧ FailingCall e c
      ∧ (∀ a, Event.rx a ∈ es → a = .byte 0#8) ∧ Event.tclose ∉ es
      ∧ t.results = s.results ++ [.linkFailure c] ∧ t.faults = addCause c s.faults
      ∧ t.seq = .idle ∧ t.cfg = s.cfg

/-- R204: a step that halts the block has issued no event and written no image byte, and returns UNRECOVERABLE with its cause recorded. -/
def Obligations.HaltIsPrecise : Prop :=
  ∀ s t : State, Inv s → step s = .next t → s.sess ≠ .halted → t.sess = .halted →
    s.sess = .ready ∧ t.events = s.events ∧ t.img = s.img ∧ t.link = s.link
      ∧ ∃ c, c.isPolicy = true ∧ t.results = s.results ++ [.unrecoverable c] ∧ t.faults = addCause c s.faults
          ∧ t.seq = .idle

/-! The whole machine. -/

/-- A step runs the instruction that is fetched: a host call whole, an acknowledgement or a frame followed by the sequencer's move.
What one step takes up is the model's choice (log entry 10). -/
def Obligations.StepRunsTheFetchedInstruction : Prop :=
  ∀ (s u : State) (i : Instr), s.faulted = false → fetch s = some (i, u) →
    step s = if s.seq = .idle then exec i u else andThen (exec i u) (fun t => .next (settle s.seq t))

/-- R231, R242, R186: with no host input in S_IDLE, and in a blocking read with no answer, the block waits where it is.
That waiting is a step to the same state is the model's choice (log entry 9). -/
def Obligations.WaitingChangesNothing : Prop :=
  ∀ s : State, s.faulted = false →
    (s.seq = .idle → s.inbox = [] → step s = .next s)
    ∧ (s.seq ≠ .idle → s.ackpend.val ≠ 0 → s.link.rxAnswers = [] → step s = .next s)

/-- The invariant holds at reset. -/
def Obligations.ResetMeetsTheInvariant : Prop := Inv State.reset

/-- Every step keeps the invariant: an admitted configuration, a canonical image, FAULTS a set without F_INVARIANT (R131, R211), the channel's counts and the page at each value of SEQ (R25, R26, R34, R58). -/
def Obligations.StepKeepsTheInvariant : Prop :=
  ∀ s t : State, Inv s → step s = .next t → Inv t

/-- From a state that meets the invariant no step ends in a fault: no image access outside 0 .. N−1 (R52), no failed assert (R131). -/
def Obligations.NoFaultFromTheInvariant : Prop :=
  ∀ (s : State) (r : Fault), Inv s → step s ≠ .fault r

/-- R34: whenever a step returns an outcome, or leaves the block between entry points, with SESS in IDLE or READY, the channel is empty and SEQ is at S_IDLE. -/
def Obligations.ReturnedCallsLeaveTheChannelEmpty : Prop :=
  ∀ s t : State, Inv s → step s = .next t → t.results ≠ s.results ∨ t.seq = .idle → t.sess = .idle ∨ t.sess = .ready →
    t.pcnt.val = 0 ∧ t.ackpend.val = 0 ∧ t.seq = .idle

/-- R23: SESS moves only as the rule says, unless the step starts a session. -/
def Obligations.SessionMoves : Prop :=
  ∀ s t : State, Inv s → step s = .next t → startsSession s = false → SessMove s.sess t.sess

/-- R200: a step returns at most one outcome; a call that is entered has returned exactly when SEQ is back at S_IDLE; a step that waits, takes an image or starts a session returns none. -/
def Obligations.OneOutcomePerCall : Prop :=
  ∀ s t : State, Inv s → step s = .next t →
    (s.seq ≠ .idle → (t.seq = .idle ∧ ∃ r, t.results = s.results ++ [r]) ∨ (t.seq ≠ .idle ∧ t.results = s.results))
    ∧ (s.seq = .idle → ∀ c rest, s.inbox = .call c :: rest →
        (t.seq = .idle ∧ ∃ r, t.results = s.results ++ [r]) ∨ (t.seq ≠ .idle ∧ t.results = s.results))
    ∧ (s.seq = .idle → (∀ c rest, s.inbox ≠ .call c :: rest) → t.results = s.results)

/-- R30, R13, R20: a step that starts no session removes no cause, undoes no event or outcome, and writes no configuration register. -/
def Obligations.RecordsOnlyGrow : Prop :=
  ∀ s t : State, step s = .next t → startsSession s = false →
    (∀ c ∈ s.faults, c ∈ t.faults) ∧ (∃ es, t.events = s.events ++ es) ∧ (∃ rs, t.results = s.results ++ rs)
    ∧ t.cfg = s.cfg

/-- R31, R53: the block writes no image byte but 0, 1, R and R+1, and never the tag or the sizes. -/
def Obligations.ImageChangesOnlyAtFourBytes : Prop :=
  ∀ s t : State, step s = .next t → startsSession s = false → handsImage s = false →
    (∀ a, a ≠ 0 → a ≠ 1 → a ≠ s.cfg.reservedStart → a ≠ s.cfg.reservedStart + 1 →
      memRead t.img.mem a = memRead s.img.mem a)
    ∧ t.img.tag = s.img.tag ∧ t.img.size = s.img.size ∧ t.img.reserved = s.img.reserved

/-- R88, R91, R103, R131: every step keeps the wire well formed: each transmission is 1 to 8 LOAD and FILL frames, or one ERASE, or one WRITE. -/
def Obligations.StepKeepsTheWireWellFormed : Prop :=
  ∀ s t : State, WireOk s → step s = .next t → WireOk t

/-- R58, R64, R166: no ERASE or WRITE frame a step sends names a page with a bootloader code byte. -/
def Obligations.BootloaderPagesAreNeverSent : Prop :=
  ∀ s t : State, Inv s → step s = .next t →
    ∃ es, t.events = s.events ++ es ∧ ∀ base,
      (Event.tx (frameErase base).bytes ∈ es → PageMaySend s.cfg base)
      ∧ (Event.tx (frameWrite base).bytes ∈ es → PageMaySend s.cfg base)

/-- R58, R64: the bootloader code bytes of the image do not matter: two states that differ only in image bytes at or above R+2 take the same step, and still differ only there. -/
def Obligations.BootloaderBytesDoNotMatter : Prop :=
  ∀ (s t : State) (m : Memory), Inv s → Memory.wf m = true →
    (∀ a, a < s.cfg.reservedStart + 2 → memRead m a = memRead s.img.mem a) → step s = .next t →
    ∃ t', step (s.setImg { s.img with mem := m }) = .next t' ∧ t' = t.setImg { t.img with mem := t'.img.mem }
      ∧ (∀ a, a < s.cfg.reservedStart + 2 → memRead t'.img.mem a = memRead t.img.mem a)

/-- R188, R31: the step takes an image that the host hands over, with its tag and its sizes, and changes nothing else.
Which byte an address holds where several cells or none are listed for it, and the canonical form, are the model's choices (log entries 7 and 18). -/
def Obligations.ImageHandover : Prop :=
  ∀ (s : State) (im : Image) (rest : List HostInput), s.faulted = false → s.seq = .idle → s.inbox = .image im :: rest →
    ∃ t, step s = .next t
      ∧ t = { s with inbox := rest, img := { im with mem := t.img.mem } }
      ∧ t.img.wf = true
      ∧ ∀ a, memRead t.img.mem a = handedByte im a
end

