-- ==== Sys2Proof/Laws/Codec.lean ====
section
/-! SUPPORT. Spec lemmas of the codec (R54, R100 to R107). -/

namespace Sys2Proof

theorem lo_toNat (w : Word) : (lo w).toNat = w.toNat % 256 := by simp [lo]

theorem hi_toNat (w : Word) : (hi w).toNat = w.toNat / 256 := by
  have := w.isLt
  simp only [hi, BitVec.extractLsb'_toNat, Nat.shiftRight_eq_div_pow]
  omega

theorem word16_toNat (l h : Byte) : (word16 l h).toNat = h.toNat * 256 + l.toNat := by
  simp only [word16, BitVec.toNat_append]
  rw [Nat.shiftLeft_eq, Nat.mul_comm, ← Nat.two_pow_add_eq_or_of_lt l.isLt, Nat.mul_comm]

@[simp] theorem lo_word16 (l h : Byte) : lo (word16 l h) = l := by
  apply BitVec.eq_of_toNat_eq
  have := l.isLt
  rw [lo_toNat, word16_toNat]
  omega

@[simp] theorem hi_word16 (l h : Byte) : hi (word16 l h) = h := by
  apply BitVec.eq_of_toNat_eq
  have := l.isLt
  rw [hi_toNat, word16_toNat]
  omega

@[simp] theorem word16_lo_hi (w : Word) : word16 (lo w) (hi w) = w := by
  apply BitVec.eq_of_toNat_eq
  rw [word16_toNat, lo_toNat, hi_toNat]
  omega

theorem decodeFrame_enc (pl ph c : Byte) :
    decodeFrame (enc pl ph c) =
      if c = 0x00#8 then .ok (.load pl ph)
      else if c = 0x01#8 then .ok (.fill (word16 pl ph))
      else if c = 0x03#8 then .ok (.erase (word16 pl ph))
      else if c = 0x05#8 then .ok (.write (word16 pl ph))
      else .error (.unknownCmd c) := by
  have h : ¬ (enc pl ph c).b2 ≠ (enc pl ph c).b0 ^^^ (enc pl ph c).b1 ^^^ (enc pl ph c).b3 := fun h => h rfl
  rw [decodeFrame, if_neg h]
  rfl

@[simp] theorem decodeFrame_frameLoad (d0 d1 : Byte) : decodeFrame (frameLoad d0 d1) = .ok (.load d0 d1) := by
  simp [frameLoad, decodeFrame_enc]

@[simp] theorem decodeFrame_frameFill (off : Word) : decodeFrame (frameFill off) = .ok (.fill off) := by
  simp [frameFill, decodeFrame_enc]

@[simp] theorem decodeFrame_frameErase (base : Word) : decodeFrame (frameErase base) = .ok (.erase base) := by
  simp [frameErase, decodeFrame_enc]

@[simp] theorem decodeFrame_frameWrite (base : Word) : decodeFrame (frameWrite base) = .ok (.write base) := by
  simp [frameWrite, decodeFrame_enc]

@[simp] theorem decodeFrame_frameHandshake : decodeFrame frameHandshake = .ok (.load 0x00#8 0x00#8) := by decide

/-- The checksum law of a built frame (R102). -/
theorem enc_xor (pl ph c : Byte) :
    (enc pl ph c).b0 ^^^ (enc pl ph c).b1 ^^^ (enc pl ph c).b2 ^^^ (enc pl ph c).b3 = 0#8 := by
  show pl ^^^ ph ^^^ (pl ^^^ ph ^^^ c) ^^^ c = 0#8
  rw [← BitVec.xor_assoc (pl ^^^ ph), BitVec.xor_self, BitVec.zero_xor, BitVec.xor_self]

@[simp] theorem Frame.bytes_length (f : Frame) : f.bytes.length = 4 := rfl

/-- A transmission begins with the frame that was sent first (R91). -/
theorem decodeTransmission_cons {f : Frame} {i : Instr} {bytes : List Byte} {is : List Instr}
    (hf : decodeFrame f = .ok i) (hr : decodeTransmission bytes = .ok is) :
    decodeTransmission (f.bytes ++ bytes) = .ok (i :: is) := by
  cases f
  simp only [Frame.bytes, List.cons_append, List.nil_append, decodeTransmission]
  rw [hf, hr]

end Sys2Proof
end

