-- ==== Sys2Proof/Laws/Memory.lean ====
section
/-! SUPPORT. The laws of the image's memory: read after write, and that every operation keeps the canonical form. -/

namespace Sys2Proof.Machine

/-- Below the first listed address nothing is listed. -/
theorem memRead_of_lt {m : Memory} {n x : Nat} (h : Memory.wfFrom n m = true) (hx : x < n) :
    memRead m x = unlistedByte := by
  induction m generalizing n with
  | nil => rfl
  | cons c m ih =>
    obtain ⟨k, w⟩ := c
    simp only [Memory.wfFrom, Bool.and_eq_true, decide_eq_true_eq] at h
    rw [memRead, if_neg (by omega)]
    exact ih h.2 (by omega)

/-- A read after a write (R65: an image read sees the last image write to its address). -/
theorem memRead_memWrite {m : Memory} {n : Nat} (hm : Memory.wfFrom n m = true) (a b : Nat) (v : Byte) :
    memRead (memWrite m a v) b = if b = a then v else memRead m b := by
  induction m generalizing n with
  | nil =>
    by_cases hb : b = a
    · by_cases hv : v = unlistedByte <;> simp [memWrite, memRead, hv, hb]
    · by_cases hv : v = unlistedByte <;> simp [memWrite, memRead, hv, hb, Ne.symm hb]
  | cons c m ih =>
    obtain ⟨k, w⟩ := c
    simp only [Memory.wfFrom, Bool.and_eq_true, decide_eq_true_eq] at hm
    have ih := ih hm.2
    have low : ∀ x, x ≤ k → memRead m x = unlistedByte := fun x hx => memRead_of_lt hm.2 (by omega)
    simp only [memWrite]
    by_cases h1 : a < k
    · by_cases hv : v = unlistedByte
      · simp only [h1, hv, if_true]
        by_cases hb : b = a
        · have hk : ¬ k = a := by omega
          simp [memRead, hb, low a (by omega), hk]
        · simp [hb]
      · simp only [h1, hv, if_true, if_false, memRead]
        by_cases hb : b = a
        · simp [hb]
        · simp [hb, Ne.symm hb]
    · by_cases h2 : a = k
      · by_cases hv : v = unlistedByte
        · simp only [h2, hv, if_true, Nat.lt_irrefl, if_false]
          by_cases hb : b = k
          · simp [hb, low k (by omega)]
          · simp [memRead, hb, Ne.symm hb]
        · simp only [h2, hv, if_true, Nat.lt_irrefl, if_false]
          by_cases hb : b = k
          · simp [memRead, hb]
          · simp [memRead, hb, Ne.symm hb]
      · simp only [h1, h2, if_false, memRead, ih]
        by_cases hb : k = b
        · have hk : ¬ b = a := by omega
          simp [hb, hk]
        · simp [hb]

theorem wfFrom_mono {m : Memory} {n k : Nat} (h : Memory.wfFrom n m = true) (hk : k ≤ n) :
    Memory.wfFrom k m = true := by
  cases m with
  | nil => rfl
  | cons c m =>
    obtain ⟨j, w⟩ := c
    simp only [Memory.wfFrom, Bool.and_eq_true, decide_eq_true_eq] at h ⊢
    exact ⟨⟨by omega, h.1.2⟩, h.2⟩

theorem wfFrom_memWrite {m : Memory} {n a : Nat} (hm : Memory.wfFrom n m = true) (ha : n ≤ a) (v : Byte) :
    Memory.wfFrom n (memWrite m a v) = true := by
  induction m generalizing n with
  | nil =>
    simp only [memWrite]
    split <;> simp_all [Memory.wfFrom]
  | cons c m ih =>
    obtain ⟨k, w⟩ := c
    simp only [Memory.wfFrom, Bool.and_eq_true, decide_eq_true_eq] at hm
    obtain ⟨⟨h1, h2⟩, h3⟩ := hm
    simp only [memWrite]
    split
    · split
      · simp [Memory.wfFrom, h1, h2, h3]
      · rename_i h4 h5
        simp only [Memory.wfFrom, Bool.and_eq_true, decide_eq_true_eq]
        exact ⟨⟨ha, h5⟩, ⟨⟨by omega, h2⟩, h3⟩⟩
    · split
      · split
        · exact wfFrom_mono h3 (by omega)
        · rename_i h4 h5 h6
          simp only [Memory.wfFrom, Bool.and_eq_true, decide_eq_true_eq]
          exact ⟨⟨ha, h6⟩, by rw [h5]; exact h3⟩
      · simp only [Memory.wfFrom, Bool.and_eq_true, decide_eq_true_eq]
        exact ⟨⟨h1, h2⟩, ih h3 (by omega)⟩

/-- A write keeps the canonical form. -/
theorem memWrite_wf {m : Memory} (hm : Memory.wf m = true) (a : Nat) (v : Byte) : Memory.wf (memWrite m a v) = true :=
  wfFrom_memWrite hm (Nat.zero_le a) v

/-- A write lists no address that was not listed, but the one written. -/
theorem memWrite_all {m : Memory} {a : Nat} {v : Byte} {p : Nat → Bool}
    (hm : m.all (fun c => p c.1) = true) (ha : p a = true) :
    (memWrite m a v).all (fun c => p c.1) = true := by
  induction m with
  | nil => simp only [memWrite]; split <;> simp [ha]
  | cons c m ih =>
    obtain ⟨k, w⟩ := c
    simp only [List.all_cons, Bool.and_eq_true] at hm
    obtain ⟨h1, h2⟩ := hm
    have ih := ih h2
    simp only [memWrite]
    split
    · split
      · rw [List.all_cons, h1, h2]; rfl
      · rw [List.all_cons, List.all_cons, ha, h1, h2]; rfl
    · split
      · split
        · exact h2
        · rw [List.all_cons, ha, h2]; rfl
      · rw [List.all_cons, h1, ih]; rfl

theorem memRead_memWrite_of_wf {m : Memory} (hm : Memory.wf m = true) (a b : Nat) (v : Byte) :
    memRead (memWrite m a v) b = if b = a then v else memRead m b :=
  memRead_memWrite hm a b v

theorem foldl_memWrite_wf (p : Nat → Bool) (cells : List Host.Cell) (m : Memory) (hm : Memory.wf m = true)
    (h1 : m.all (fun c => p c.1) = true) (h2 : cells.all (fun c => p c.1) = true) :
    Memory.wf (cells.foldl (fun m c => memWrite m c.1 c.2) m) = true
      ∧ (cells.foldl (fun m c => memWrite m c.1 c.2) m).all (fun c => p c.1) = true := by
  induction cells generalizing m with
  | nil => exact ⟨hm, h1⟩
  | cons c cells ih =>
    simp only [List.all_cons, Bool.and_eq_true] at h2
    exact ih _ (memWrite_wf hm _ _) (memWrite_all h1 h2.1) h2.2

/-- What the writes of a list of cells leave at an address: the last cell listed for it, else what was there. -/
theorem memRead_foldl_memWrite (cells : List Host.Cell) {m : Memory} (hm : Memory.wf m = true) (a : Nat) :
    memRead (cells.foldl (fun m c => memWrite m c.1 c.2) m) a
      = match (cells.filter (fun c => c.1 = a)).getLast? with
        | some c => c.2
        | none => memRead m a := by
  induction cells generalizing m with
  | nil => rfl
  | cons c cells ih =>
    rw [List.foldl_cons, ih (memWrite_wf hm _ _), memRead_memWrite_of_wf hm]
    by_cases h : c.1 = a
    · rw [List.filter_cons_of_pos (by simpa using h), List.getLast?_cons]
      cases (cells.filter (fun c => c.1 = a)).getLast? <;> simp [h]
    · rw [List.filter_cons_of_neg (by simpa using h)]
      cases (cells.filter (fun c => c.1 = a)).getLast? <;> simp [Ne.symm h]

/-- The image the host hands over is canonical. -/
theorem Image.canon_wf (im : Image) : im.canon.wf = true := by
  have h := foldl_memWrite_wf (fun a => decide (a < im.size))
    (im.mem.filter (fun c => decide (c.1 < im.size))) [] rfl rfl
    (by simp [List.all_eq_true])
  simp only [Image.wf, Image.canon, memOfCells, Bool.and_eq_true]
  exact h

/-- An image write keeps the image canonical. -/
theorem Image.wf_memWrite {im : Image} (h : im.wf = true) {a : Nat} (ha : a < im.size) (v : Byte) :
    Image.wf { im with mem := memWrite im.mem a v } = true := by
  simp only [Image.wf, Bool.and_eq_true] at h ⊢
  exact ⟨memWrite_wf h.1 a v, memWrite_all (p := fun a => decide (a < im.size)) h.2 (by simpa using ha)⟩

theorem Image.mem_wf {im : Image} (h : im.wf = true) : Memory.wf im.mem = true := by
  simp only [Image.wf, Bool.and_eq_true] at h
  exact h.1

end Sys2Proof.Machine
end

