-- ==== Sys2Proof/Laws/State.lean ====
section
/-! SUPPORT. One lemma per field of State per named update, true by rfl. -/

namespace Sys2Proof.Machine

variable (s : State)

@[simp] theorem setSess_cfg (v : Sess) : (s.setSess v).cfg = s.cfg := rfl
@[simp] theorem setSess_sess (v : Sess) : (s.setSess v).sess = v := rfl
@[simp] theorem setSess_seq (v : Sess) : (s.setSess v).seq = s.seq := rfl
@[simp] theorem setSess_pbuf (v : Sess) : (s.setSess v).pbuf = s.pbuf := rfl
@[simp] theorem setSess_pcnt (v : Sess) : (s.setSess v).pcnt = s.pcnt := rfl
@[simp] theorem setSess_ackpend (v : Sess) : (s.setSess v).ackpend = s.ackpend := rfl
@[simp] theorem setSess_pw (v : Sess) : (s.setSess v).pw = s.pw := rfl
@[simp] theorem setSess_faults (v : Sess) : (s.setSess v).faults = s.faults := rfl
@[simp] theorem setSess_img (v : Sess) : (s.setSess v).img = s.img := rfl
@[simp] theorem setSess_link (v : Sess) : (s.setSess v).link = s.link := rfl
@[simp] theorem setSess_inbox (v : Sess) : (s.setSess v).inbox = s.inbox := rfl
@[simp] theorem setSess_events (v : Sess) : (s.setSess v).events = s.events := rfl
@[simp] theorem setSess_results (v : Sess) : (s.setSess v).results = s.results := rfl

@[simp] theorem setSeq_cfg (v : Seq) : (s.setSeq v).cfg = s.cfg := rfl
@[simp] theorem setSeq_sess (v : Seq) : (s.setSeq v).sess = s.sess := rfl
@[simp] theorem setSeq_seq (v : Seq) : (s.setSeq v).seq = v := rfl
@[simp] theorem setSeq_pbuf (v : Seq) : (s.setSeq v).pbuf = s.pbuf := rfl
@[simp] theorem setSeq_pcnt (v : Seq) : (s.setSeq v).pcnt = s.pcnt := rfl
@[simp] theorem setSeq_ackpend (v : Seq) : (s.setSeq v).ackpend = s.ackpend := rfl
@[simp] theorem setSeq_pw (v : Seq) : (s.setSeq v).pw = s.pw := rfl
@[simp] theorem setSeq_faults (v : Seq) : (s.setSeq v).faults = s.faults := rfl
@[simp] theorem setSeq_img (v : Seq) : (s.setSeq v).img = s.img := rfl
@[simp] theorem setSeq_link (v : Seq) : (s.setSeq v).link = s.link := rfl
@[simp] theorem setSeq_inbox (v : Seq) : (s.setSeq v).inbox = s.inbox := rfl
@[simp] theorem setSeq_events (v : Seq) : (s.setSeq v).events = s.events := rfl
@[simp] theorem setSeq_results (v : Seq) : (s.setSeq v).results = s.results := rfl

@[simp] theorem setPbuf_cfg (v : Vector Frame 8) : (s.setPbuf v).cfg = s.cfg := rfl
@[simp] theorem setPbuf_sess (v : Vector Frame 8) : (s.setPbuf v).sess = s.sess := rfl
@[simp] theorem setPbuf_seq (v : Vector Frame 8) : (s.setPbuf v).seq = s.seq := rfl
@[simp] theorem setPbuf_pbuf (v : Vector Frame 8) : (s.setPbuf v).pbuf = v := rfl
@[simp] theorem setPbuf_pcnt (v : Vector Frame 8) : (s.setPbuf v).pcnt = s.pcnt := rfl
@[simp] theorem setPbuf_ackpend (v : Vector Frame 8) : (s.setPbuf v).ackpend = s.ackpend := rfl
@[simp] theorem setPbuf_pw (v : Vector Frame 8) : (s.setPbuf v).pw = s.pw := rfl
@[simp] theorem setPbuf_faults (v : Vector Frame 8) : (s.setPbuf v).faults = s.faults := rfl
@[simp] theorem setPbuf_img (v : Vector Frame 8) : (s.setPbuf v).img = s.img := rfl
@[simp] theorem setPbuf_link (v : Vector Frame 8) : (s.setPbuf v).link = s.link := rfl
@[simp] theorem setPbuf_inbox (v : Vector Frame 8) : (s.setPbuf v).inbox = s.inbox := rfl
@[simp] theorem setPbuf_events (v : Vector Frame 8) : (s.setPbuf v).events = s.events := rfl
@[simp] theorem setPbuf_results (v : Vector Frame 8) : (s.setPbuf v).results = s.results := rfl

@[simp] theorem setPcnt_cfg (v : Fin 9) : (s.setPcnt v).cfg = s.cfg := rfl
@[simp] theorem setPcnt_sess (v : Fin 9) : (s.setPcnt v).sess = s.sess := rfl
@[simp] theorem setPcnt_seq (v : Fin 9) : (s.setPcnt v).seq = s.seq := rfl
@[simp] theorem setPcnt_pbuf (v : Fin 9) : (s.setPcnt v).pbuf = s.pbuf := rfl
@[simp] theorem setPcnt_pcnt (v : Fin 9) : (s.setPcnt v).pcnt = v := rfl
@[simp] theorem setPcnt_ackpend (v : Fin 9) : (s.setPcnt v).ackpend = s.ackpend := rfl
@[simp] theorem setPcnt_pw (v : Fin 9) : (s.setPcnt v).pw = s.pw := rfl
@[simp] theorem setPcnt_faults (v : Fin 9) : (s.setPcnt v).faults = s.faults := rfl
@[simp] theorem setPcnt_img (v : Fin 9) : (s.setPcnt v).img = s.img := rfl
@[simp] theorem setPcnt_link (v : Fin 9) : (s.setPcnt v).link = s.link := rfl
@[simp] theorem setPcnt_inbox (v : Fin 9) : (s.setPcnt v).inbox = s.inbox := rfl
@[simp] theorem setPcnt_events (v : Fin 9) : (s.setPcnt v).events = s.events := rfl
@[simp] theorem setPcnt_results (v : Fin 9) : (s.setPcnt v).results = s.results := rfl

@[simp] theorem setAckpend_cfg (v : Fin 9) : (s.setAckpend v).cfg = s.cfg := rfl
@[simp] theorem setAckpend_sess (v : Fin 9) : (s.setAckpend v).sess = s.sess := rfl
@[simp] theorem setAckpend_seq (v : Fin 9) : (s.setAckpend v).seq = s.seq := rfl
@[simp] theorem setAckpend_pbuf (v : Fin 9) : (s.setAckpend v).pbuf = s.pbuf := rfl
@[simp] theorem setAckpend_pcnt (v : Fin 9) : (s.setAckpend v).pcnt = s.pcnt := rfl
@[simp] theorem setAckpend_ackpend (v : Fin 9) : (s.setAckpend v).ackpend = v := rfl
@[simp] theorem setAckpend_pw (v : Fin 9) : (s.setAckpend v).pw = s.pw := rfl
@[simp] theorem setAckpend_faults (v : Fin 9) : (s.setAckpend v).faults = s.faults := rfl
@[simp] theorem setAckpend_img (v : Fin 9) : (s.setAckpend v).img = s.img := rfl
@[simp] theorem setAckpend_link (v : Fin 9) : (s.setAckpend v).link = s.link := rfl
@[simp] theorem setAckpend_inbox (v : Fin 9) : (s.setAckpend v).inbox = s.inbox := rfl
@[simp] theorem setAckpend_events (v : Fin 9) : (s.setAckpend v).events = s.events := rfl
@[simp] theorem setAckpend_results (v : Fin 9) : (s.setAckpend v).results = s.results := rfl

@[simp] theorem setPw_cfg (v : PageRegs) : (s.setPw v).cfg = s.cfg := rfl
@[simp] theorem setPw_sess (v : PageRegs) : (s.setPw v).sess = s.sess := rfl
@[simp] theorem setPw_seq (v : PageRegs) : (s.setPw v).seq = s.seq := rfl
@[simp] theorem setPw_pbuf (v : PageRegs) : (s.setPw v).pbuf = s.pbuf := rfl
@[simp] theorem setPw_pcnt (v : PageRegs) : (s.setPw v).pcnt = s.pcnt := rfl
@[simp] theorem setPw_ackpend (v : PageRegs) : (s.setPw v).ackpend = s.ackpend := rfl
@[simp] theorem setPw_pw (v : PageRegs) : (s.setPw v).pw = v := rfl
@[simp] theorem setPw_faults (v : PageRegs) : (s.setPw v).faults = s.faults := rfl
@[simp] theorem setPw_img (v : PageRegs) : (s.setPw v).img = s.img := rfl
@[simp] theorem setPw_link (v : PageRegs) : (s.setPw v).link = s.link := rfl
@[simp] theorem setPw_inbox (v : PageRegs) : (s.setPw v).inbox = s.inbox := rfl
@[simp] theorem setPw_events (v : PageRegs) : (s.setPw v).events = s.events := rfl
@[simp] theorem setPw_results (v : PageRegs) : (s.setPw v).results = s.results := rfl

@[simp] theorem setFaults_cfg (v : List Cause) : (s.setFaults v).cfg = s.cfg := rfl
@[simp] theorem setFaults_sess (v : List Cause) : (s.setFaults v).sess = s.sess := rfl
@[simp] theorem setFaults_seq (v : List Cause) : (s.setFaults v).seq = s.seq := rfl
@[simp] theorem setFaults_pbuf (v : List Cause) : (s.setFaults v).pbuf = s.pbuf := rfl
@[simp] theorem setFaults_pcnt (v : List Cause) : (s.setFaults v).pcnt = s.pcnt := rfl
@[simp] theorem setFaults_ackpend (v : List Cause) : (s.setFaults v).ackpend = s.ackpend := rfl
@[simp] theorem setFaults_pw (v : List Cause) : (s.setFaults v).pw = s.pw := rfl
@[simp] theorem setFaults_faults (v : List Cause) : (s.setFaults v).faults = v := rfl
@[simp] theorem setFaults_img (v : List Cause) : (s.setFaults v).img = s.img := rfl
@[simp] theorem setFaults_link (v : List Cause) : (s.setFaults v).link = s.link := rfl
@[simp] theorem setFaults_inbox (v : List Cause) : (s.setFaults v).inbox = s.inbox := rfl
@[simp] theorem setFaults_events (v : List Cause) : (s.setFaults v).events = s.events := rfl
@[simp] theorem setFaults_results (v : List Cause) : (s.setFaults v).results = s.results := rfl

@[simp] theorem setImg_cfg (v : Image) : (s.setImg v).cfg = s.cfg := rfl
@[simp] theorem setImg_sess (v : Image) : (s.setImg v).sess = s.sess := rfl
@[simp] theorem setImg_seq (v : Image) : (s.setImg v).seq = s.seq := rfl
@[simp] theorem setImg_pbuf (v : Image) : (s.setImg v).pbuf = s.pbuf := rfl
@[simp] theorem setImg_pcnt (v : Image) : (s.setImg v).pcnt = s.pcnt := rfl
@[simp] theorem setImg_ackpend (v : Image) : (s.setImg v).ackpend = s.ackpend := rfl
@[simp] theorem setImg_pw (v : Image) : (s.setImg v).pw = s.pw := rfl
@[simp] theorem setImg_faults (v : Image) : (s.setImg v).faults = s.faults := rfl
@[simp] theorem setImg_img (v : Image) : (s.setImg v).img = v := rfl
@[simp] theorem setImg_link (v : Image) : (s.setImg v).link = s.link := rfl
@[simp] theorem setImg_inbox (v : Image) : (s.setImg v).inbox = s.inbox := rfl
@[simp] theorem setImg_events (v : Image) : (s.setImg v).events = s.events := rfl
@[simp] theorem setImg_results (v : Image) : (s.setImg v).results = s.results := rfl

@[simp] theorem setLink_cfg (v : Link) : (s.setLink v).cfg = s.cfg := rfl
@[simp] theorem setLink_sess (v : Link) : (s.setLink v).sess = s.sess := rfl
@[simp] theorem setLink_seq (v : Link) : (s.setLink v).seq = s.seq := rfl
@[simp] theorem setLink_pbuf (v : Link) : (s.setLink v).pbuf = s.pbuf := rfl
@[simp] theorem setLink_pcnt (v : Link) : (s.setLink v).pcnt = s.pcnt := rfl
@[simp] theorem setLink_ackpend (v : Link) : (s.setLink v).ackpend = s.ackpend := rfl
@[simp] theorem setLink_pw (v : Link) : (s.setLink v).pw = s.pw := rfl
@[simp] theorem setLink_faults (v : Link) : (s.setLink v).faults = s.faults := rfl
@[simp] theorem setLink_img (v : Link) : (s.setLink v).img = s.img := rfl
@[simp] theorem setLink_link (v : Link) : (s.setLink v).link = v := rfl
@[simp] theorem setLink_inbox (v : Link) : (s.setLink v).inbox = s.inbox := rfl
@[simp] theorem setLink_events (v : Link) : (s.setLink v).events = s.events := rfl
@[simp] theorem setLink_results (v : Link) : (s.setLink v).results = s.results := rfl

@[simp] theorem setInbox_cfg (v : List HostInput) : (s.setInbox v).cfg = s.cfg := rfl
@[simp] theorem setInbox_sess (v : List HostInput) : (s.setInbox v).sess = s.sess := rfl
@[simp] theorem setInbox_seq (v : List HostInput) : (s.setInbox v).seq = s.seq := rfl
@[simp] theorem setInbox_pbuf (v : List HostInput) : (s.setInbox v).pbuf = s.pbuf := rfl
@[simp] theorem setInbox_pcnt (v : List HostInput) : (s.setInbox v).pcnt = s.pcnt := rfl
@[simp] theorem setInbox_ackpend (v : List HostInput) : (s.setInbox v).ackpend = s.ackpend := rfl
@[simp] theorem setInbox_pw (v : List HostInput) : (s.setInbox v).pw = s.pw := rfl
@[simp] theorem setInbox_faults (v : List HostInput) : (s.setInbox v).faults = s.faults := rfl
@[simp] theorem setInbox_img (v : List HostInput) : (s.setInbox v).img = s.img := rfl
@[simp] theorem setInbox_link (v : List HostInput) : (s.setInbox v).link = s.link := rfl
@[simp] theorem setInbox_inbox (v : List HostInput) : (s.setInbox v).inbox = v := rfl
@[simp] theorem setInbox_events (v : List HostInput) : (s.setInbox v).events = s.events := rfl
@[simp] theorem setInbox_results (v : List HostInput) : (s.setInbox v).results = s.results := rfl

@[simp] theorem emit_cfg (v : Event) : (s.emit v).cfg = s.cfg := rfl
@[simp] theorem emit_sess (v : Event) : (s.emit v).sess = s.sess := rfl
@[simp] theorem emit_seq (v : Event) : (s.emit v).seq = s.seq := rfl
@[simp] theorem emit_pbuf (v : Event) : (s.emit v).pbuf = s.pbuf := rfl
@[simp] theorem emit_pcnt (v : Event) : (s.emit v).pcnt = s.pcnt := rfl
@[simp] theorem emit_ackpend (v : Event) : (s.emit v).ackpend = s.ackpend := rfl
@[simp] theorem emit_pw (v : Event) : (s.emit v).pw = s.pw := rfl
@[simp] theorem emit_faults (v : Event) : (s.emit v).faults = s.faults := rfl
@[simp] theorem emit_img (v : Event) : (s.emit v).img = s.img := rfl
@[simp] theorem emit_link (v : Event) : (s.emit v).link = s.link := rfl
@[simp] theorem emit_inbox (v : Event) : (s.emit v).inbox = s.inbox := rfl
@[simp] theorem emit_events (v : Event) : (s.emit v).events = s.events ++ [v] := rfl
@[simp] theorem emit_results (v : Event) : (s.emit v).results = s.results := rfl

@[simp] theorem ret_cfg (v : Result) : (s.ret v).cfg = s.cfg := rfl
@[simp] theorem ret_sess (v : Result) : (s.ret v).sess = s.sess := rfl
@[simp] theorem ret_seq (v : Result) : (s.ret v).seq = s.seq := rfl
@[simp] theorem ret_pbuf (v : Result) : (s.ret v).pbuf = s.pbuf := rfl
@[simp] theorem ret_pcnt (v : Result) : (s.ret v).pcnt = s.pcnt := rfl
@[simp] theorem ret_ackpend (v : Result) : (s.ret v).ackpend = s.ackpend := rfl
@[simp] theorem ret_pw (v : Result) : (s.ret v).pw = s.pw := rfl
@[simp] theorem ret_faults (v : Result) : (s.ret v).faults = s.faults := rfl
@[simp] theorem ret_img (v : Result) : (s.ret v).img = s.img := rfl
@[simp] theorem ret_link (v : Result) : (s.ret v).link = s.link := rfl
@[simp] theorem ret_inbox (v : Result) : (s.ret v).inbox = s.inbox := rfl
@[simp] theorem ret_events (v : Result) : (s.ret v).events = s.events := rfl
@[simp] theorem ret_results (v : Result) : (s.ret v).results = s.results ++ [v] := rfl

end Sys2Proof.Machine
end

