-- ==== Sys2Proof/Laws/Ops.lean ====
section
/-! SUPPORT. Spec lemmas of the operations of Machine/Ops.lean and Machine/Flags.lean. -/

namespace Sys2Proof.Machine

@[simp] theorem andThen_next (s : State) (f : State → Host.Outcome State Fault Refusal) :
    andThen (.next s) f = f s := rfl

@[simp] theorem andThen_fault (r : Fault) (f : State → Host.Outcome State Fault Refusal) :
    andThen (.fault r) f = .fault r := rfl

@[simp] theorem andThen_refused (r : Refusal) (f : State → Host.Outcome State Fault Refusal) :
    andThen (.refused r) f = .refused r := rfl

/-- A sequence answers a next state exactly if both parts do. -/
theorem andThen_eq_next {o : Host.Outcome State Fault Refusal} {f : State → Host.Outcome State Fault Refusal}
    {t : State} : andThen o f = .next t ↔ ∃ s, o = .next s ∧ f s = .next t := by
  cases o <;> simp

/-- A sequence faults exactly if its first part does, or its second part after it. -/
theorem andThen_eq_fault {o : Host.Outcome State Fault Refusal} {f : State → Host.Outcome State Fault Refusal}
    {r : Fault} : andThen o f = .fault r ↔ o = .fault r ∨ ∃ s, o = .next s ∧ f s = .fault r := by
  cases o <;> simp

theorem andThen_assoc (o : Host.Outcome State Fault Refusal) (f g : State → Host.Outcome State Fault Refusal) :
    andThen (andThen o f) g = andThen o (fun s => andThen (f s) g) := by
  cases o <;> rfl

theorem mem_addCause {c d : Cause} {fs : List Cause} : c ∈ addCause d fs ↔ c = d ∨ c ∈ fs := by
  unfold addCause
  split
  · constructor
    · exact Or.inr
    · rintro (rfl | h)
      · assumption
      · exact h
  · simp [or_comm]

/-- FAULTS stays a set (R30). -/
theorem nodup_addCause {c : Cause} {fs : List Cause} (h : fs.Nodup) : (addCause c fs).Nodup := by
  unfold addCause
  split
  · exact h
  · rename_i hc
    exact List.nodup_append.2 ⟨h, by simp, by rintro a ha b hb rfl; simp at hb; exact hc (hb ▸ ha)⟩

/-- A recorded cause makes the state faulted only if it is F_INVARIANT (R211). -/
theorem any_addCause (c : Cause) (fs : List Cause) :
    (addCause c fs).any Cause.isInvariant = (c.isInvariant || fs.any Cause.isInvariant) := by
  unfold addCause
  split
  · rename_i h
    cases hc : c.isInvariant
    · simp
    · simpa using ⟨c, h, hc⟩
  · simp [List.any_append, Bool.or_comm]

theorem raiseLink_eq (c : Cause) (s : State) : raiseLink c s =
    { s with faults := addCause c s.faults, sess := .aborted, seq := .idle, results := s.results ++ [.linkFailure c] } := rfl

theorem raisePolicy_eq (c : Cause) (s : State) : raisePolicy c s =
    { s with faults := addCause c s.faults, sess := .halted, seq := .idle, results := s.results ++ [.unrecoverable c] } := rfl

theorem finish_eq (r : Result) (s : State) : finish r s =
    { s with seq := .idle, results := s.results ++ [r] } := rfl

theorem assertFailed_eq (r : AssertRule) (s : State) : assertFailed r s =
    { s with faults := addCause (.invariant r) s.faults } := rfl

theorem txCall_eq (bytes : List Byte) (s : State) : txCall bytes s =
    { s with link := txTaken s.link, events := s.events ++ [.tx bytes] } := rfl

theorem setRx_eq (rest : List RxAnswer) (s : State) : setRx rest s =
    { s with link := { s.link with rxAnswers := rest } } := rfl

theorem imgPut_eq (a : Nat) (v : Byte) (s : State) : imgPut a v s =
    { s with img := { s.img with mem := memWrite s.img.mem a v }, events := s.events ++ [.imgw a v] } := rfl

@[simp] theorem txTaken_rx (l : Link) : (txTaken l).rxAnswers = l.rxAnswers := by
  unfold txTaken; split <;> rfl

/-- A failed assert leaves the state faulted (R211). -/
theorem faulted_assertFailed (r : AssertRule) (s : State) : (assertFailed r s).faulted = true := by
  simp [assertFailed, record, State.faulted, any_addCause, Cause.isInvariant]

end Sys2Proof.Machine
end

