-- ==== Sys2Proof/Laws/Channel.lean ====
section
/-! SUPPORT. What the Ack Channel's operations can do, said once (41_ack_channel.md). -/

namespace Sys2Proof.Machine

/-- An event of a transmission that has not failed. -/
def CalmEvent : Event → Prop
  | .tx _ => True
  | .rx (.byte b) => b = 0#8
  | _ => False

/-- From `s` to `t` the channel has only moved its own registers, used up answers and issued calm events. -/
structure Quiet (s t : State) : Prop where
  frame : t = { s with pbuf := t.pbuf, pcnt := t.pcnt, ackpend := t.ackpend, link := t.link, events := t.events }
  events : ∃ es, t.events = s.events ++ es ∧ ∀ e ∈ es, CalmEvent e

/-- From `s` to `t` the channel has raised a link error at its first failing call, which is the last event. -/
def Raised (s t : State) : Prop :=
  ∃ u c e, Quiet s u ∧ c.isLink = true ∧ FailingCall e c ∧ t = { raiseLink c (u.emit e) with link := t.link }

/-- What an operation of the channel does whose asserts hold. -/
def LinkResult (s t : State) : Prop := Quiet s t ∨ Raised s t

theorem Quiet.refl (s : State) : Quiet s s := ⟨rfl, [], by simp, by simp⟩

theorem Quiet.trans {s t u : State} (h : Quiet s t) (g : Quiet t u) : Quiet s u := by
  obtain ⟨f1, es1, e1, c1⟩ := h
  obtain ⟨f2, es2, e2, c2⟩ := g
  refine ⟨?_, es1 ++ es2, by rw [e2, e1, List.append_assoc], ?_⟩
  · rw [f1] at f2; exact f2
  · intro e he
    rcases List.mem_append.1 he with he | he
    · exact c1 e he
    · exact c2 e he

theorem Raised.of_quiet {s t u : State} (h : Quiet s t) (g : Raised t u) : Raised s u := by
  obtain ⟨v, c, e, hv, hc, he, hu⟩ := g
  exact ⟨v, c, e, h.trans hv, hc, he, hu⟩

theorem LinkResult.of_quiet {s t u : State} (h : Quiet s t) (g : LinkResult t u) : LinkResult s u :=
  g.imp (h.trans ·) (Raised.of_quiet h)

theorem Quiet.setRx {s t : State} (h : Quiet s t) (r : List RxAnswer) : Quiet s (setRx r t) := by
  obtain ⟨f, es⟩ := h
  exact ⟨by rw [f]; rfl, es⟩

theorem Raised.setRx {s t : State} (h : Raised s t) (r : List RxAnswer) : Raised s (setRx r t) := by
  obtain ⟨u, c, e, hu, hc, he, ht⟩ := h
  exact ⟨u, c, e, hu, hc, he, by rw [ht]; rfl⟩

/-! One acknowledgement (R124). -/

theorem receiveAck_success {s : State} (h : s.ackpend.val ≠ 0) : receiveAck 0#8 s =
    { s with
      events := s.events ++ [.rx (.byte 0#8)]
      ackpend := ⟨s.ackpend.val - 1, by omega⟩
      pcnt := if s.ackpend.val = 1 then 0 else s.pcnt } := by
  have hd : decodeAck 0#8 = .success := rfl
  unfold receiveAck
  rw [if_neg h]
  by_cases h1 : s.ackpend.val = 1
  · have h2 : s.ackpend.val - 1 = 0 := by omega
    simp [hd, h1]; rfl
  · have h2 : ¬ s.ackpend.val - 1 = 0 := by omega
    simp [hd, h1, h2]; rfl

theorem receiveAck_assert {s : State} (h : s.ackpend.val = 0) (b : Byte) : receiveAck b s = assertFailed .r124 s := by
  simp only [receiveAck, if_pos h]

theorem decodeAck_violation {b : Byte} (hb : b ≠ 0#8) : decodeAck b = .protocolViolation b := if_neg hb

theorem receiveAck_violation {s : State} {b : Byte} (h : s.ackpend.val ≠ 0) (hb : b ≠ 0#8) :
    receiveAck b s = raiseLink (.linkAck b) (s.emit (.rx (.byte b))) := by
  simp only [receiveAck, if_neg h, decodeAck_violation hb]

theorem receiveAck_success_quiet {s : State} (h : s.ackpend.val ≠ 0) : Quiet s (receiveAck 0#8 s) := by
  rw [receiveAck_success h]
  exact ⟨rfl, [_], rfl, by simp [CalmEvent]⟩

theorem receiveAck_violation_raised {s : State} {b : Byte} (h : s.ackpend.val ≠ 0) (hb : b ≠ 0#8) :
    Raised s (receiveAck b s) := by
  rw [receiveAck_violation h hb]
  exact ⟨s, .linkAck b, .rx (.byte b), Quiet.refl s, rfl, if_neg hb, rfl⟩

theorem receiveFail_raised (s : State) : Raised s (receiveFail s) :=
  ⟨s, .linkRecv, .rx .fail, Quiet.refl s, rfl, rfl, rfl⟩

/-! Reconciliation (R121, R123). -/

/-- Reconciliation, one answer at a time. -/
theorem reconcileFrom_cons_success {s : State} (h : s.ackpend.val ≠ 0) (rest : List RxAnswer) :
    reconcileFrom (.byte 0#8 :: rest) s = reconcileFrom rest (receiveAck 0#8 s) := by
  simp [reconcileFrom, h]

theorem reconcileFrom_cons_violation {s : State} {b : Byte} (h : s.ackpend.val ≠ 0) (hb : b ≠ 0#8) (rest : List RxAnswer) :
    reconcileFrom (.byte b :: rest) s = setRx rest (receiveAck b s) := by
  simp only [reconcileFrom, if_neg h, if_neg hb]

theorem reconcileFrom_cons_fail {s : State} (h : s.ackpend.val ≠ 0) (rest : List RxAnswer) :
    reconcileFrom (.fail :: rest) s = setRx rest (receiveFail s) := by
  simp [reconcileFrom, h]

theorem reconcileFrom_done {s : State} (h : s.ackpend.val = 0) (l : List RxAnswer) :
    reconcileFrom l s = setRx l s := by
  cases l <;> simp [reconcileFrom, h]

/-- Reconciliation of `s` ends quietly or in a raise. -/
theorem reconcileFrom_result (l : List RxAnswer) (s : State) : LinkResult s (reconcileFrom l s) := by
  induction l generalizing s with
  | nil => exact .inl ((Quiet.refl s).setRx [])
  | cons a rest ih =>
    by_cases h : s.ackpend.val = 0
    · rw [reconcileFrom_done h]; exact .inl ((Quiet.refl s).setRx _)
    · cases a with
      | fail => rw [reconcileFrom_cons_fail h]; exact .inr ((receiveFail_raised s).setRx rest)
      | byte b =>
        by_cases hb : b = 0#8
        · subst hb
          rw [reconcileFrom_cons_success h]
          exact LinkResult.of_quiet (receiveAck_success_quiet h) (ih _)
        · rw [reconcileFrom_cons_violation h hb]
          exact .inr ((receiveAck_violation_raised h hb).setRx rest)

/-- Where the counts stand after reconciliation that has not raised: all read and PCNT back to 0, or blocked with the rest outstanding. -/
theorem reconcileFrom_counts (l : List RxAnswer) (s : State) (h : s.ackpend.val ≠ 0) (hs : s.seq ≠ .idle)
    (ht : (reconcileFrom l s).seq = s.seq) :
    ((reconcileFrom l s).ackpend.val = 0 ∧ (reconcileFrom l s).pcnt.val = 0)
      ∨ ((reconcileFrom l s).ackpend.val ≠ 0 ∧ (reconcileFrom l s).ackpend.val ≤ s.ackpend.val
          ∧ (reconcileFrom l s).pcnt = s.pcnt ∧ (reconcileFrom l s).link.rxAnswers = []) := by
  induction l generalizing s with
  | nil => right; simp [reconcileFrom, setRx, h]
  | cons a rest ih =>
    cases a with
    | fail =>
      rw [reconcileFrom_cons_fail h] at ht
      exact absurd ht.symm hs
    | byte b =>
      by_cases hb : b = 0#8
      · subst hb
        rw [reconcileFrom_cons_success h] at ht ⊢
        by_cases h1 : s.ackpend.val = 1
        · left
          have : (receiveAck 0#8 s).ackpend.val = 0 := by rw [receiveAck_success h]; simp [h1]
          rw [reconcileFrom_done this, receiveAck_success h]
          simp [setRx, h1]
        · have ha : (receiveAck 0#8 s).ackpend.val = s.ackpend.val - 1 := by rw [receiveAck_success h]
          have hq : (receiveAck 0#8 s).seq = s.seq := by rw [receiveAck_success h]
          have hp : (receiveAck 0#8 s).pcnt = s.pcnt := by rw [receiveAck_success h]; simp [h1]
          have := ih (receiveAck 0#8 s) (by omega) (by rw [hq]; exact hs) (by rw [ht, hq])
          rcases this with h2 | h2
          · exact .inl h2
          · exact .inr ⟨h2.1, by omega, by rw [h2.2.2.1, hp], h2.2.2.2⟩
      · rw [reconcileFrom_cons_violation h hb, receiveAck_violation h hb] at ht
        exact absurd ht.symm hs

/-- Reconciliation with a success for every outstanding acknowledgement (R121). -/
theorem reconcileFrom_successes (n : Nat) (rest : List RxAnswer) (s : State) (h : s.ackpend.val = n) (hn : n ≠ 0) :
    reconcileFrom (List.replicate n (.byte 0#8) ++ rest) s =
      { s with
        ackpend := 0, pcnt := 0
        link := { s.link with rxAnswers := rest }
        events := s.events ++ List.replicate n (.rx (.byte 0#8)) } := by
  induction n generalizing s with
  | zero => exact absurd rfl hn
  | succ n ih =>
    rw [List.replicate_succ, List.cons_append, reconcileFrom_cons_success (by omega)]
    by_cases h1 : n = 0
    · subst h1
      have : (receiveAck 0#8 s).ackpend.val = 0 := by rw [receiveAck_success (by omega)]; simp [h]
      rw [List.replicate_zero, List.nil_append, reconcileFrom_done this, receiveAck_success (by omega)]
      simp [setRx_eq, h]
    · rw [ih _ (by rw [receiveAck_success (by omega)]; simp [h]) h1, receiveAck_success (by omega)]
      simp [List.replicate_succ]

/-- Reconciliation with `j` successes and then a failure: it stops there (R123). -/
theorem reconcileFrom_failure (j : Nat) (a : RxAnswer) (c : Cause) (rest : List RxAnswer) (s : State)
    (hj : j < s.ackpend.val) (ha : failureCause a = some c) :
    reconcileFrom (List.replicate j (.byte 0#8) ++ a :: rest) s =
      { s with
        ackpend := ⟨s.ackpend.val - j, by omega⟩
        link := { s.link with rxAnswers := rest }
        events := s.events ++ List.replicate j (.rx (.byte 0#8)) ++ [.rx a]
        faults := addCause c s.faults, sess := .aborted, seq := .idle
        results := s.results ++ [.linkFailure c] } := by
  induction j generalizing s with
  | zero =>
    have h : s.ackpend.val ≠ 0 := by omega
    rw [List.replicate_zero, List.nil_append]
    cases a with
    | fail =>
      simp only [failureCause, Option.some.injEq] at ha
      rw [reconcileFrom_cons_fail h, ← ha]
      simp [setRx, receiveFail, raiseLink, finish, record, State.setLink, State.emit, State.ret, State.setSeq, State.setSess, State.setFaults]
    | byte b =>
      by_cases hb : b = 0#8
      · simp [failureCause, hb] at ha
      · simp only [failureCause, if_neg hb, Option.some.injEq] at ha
        rw [reconcileFrom_cons_violation h hb, receiveAck_violation h hb, ← ha]
        simp [setRx, raiseLink, finish, record, State.setLink, State.emit, State.ret, State.setSeq, State.setSess, State.setFaults]
  | succ j ih =>
    have h : s.ackpend.val ≠ 0 := by omega
    rw [List.replicate_succ, List.cons_append, reconcileFrom_cons_success h,
      ih _ (by rw [receiveAck_success h]; simp; omega)]
    have h1 : s.ackpend.val ≠ 1 := by omega
    simp [receiveAck_success h, h1, List.replicate_succ, Nat.sub_sub, Nat.add_comm]

/-! One transmission (R121, R130). -/

theorem transmit_ok {s : State} (h : txAnswer s.link = .ok) (bytes : List Byte) (k : Fin 9) :
    transmit bytes k s = reconcileFrom s.link.rxAnswers ((txCall bytes s).setAckpend k) := by
  simp [transmit, h, reconcile, txCall]

theorem transmit_fail {s : State} (h : txAnswer s.link = .fail) (bytes : List Byte) (k : Fin 9) :
    transmit bytes k s = raiseLink .linkSend (txCall bytes s) := by
  simp [transmit, h]

theorem txCall_setAckpend_quiet (bytes : List Byte) (k : Fin 9) (s : State) :
    Quiet s ((txCall bytes s).setAckpend k) :=
  ⟨rfl, [_], rfl, by simp [CalmEvent]⟩

theorem transmit_result (bytes : List Byte) (k : Fin 9) (s : State) : LinkResult s (transmit bytes k s) := by
  cases h : txAnswer s.link with
  | ok =>
    rw [transmit_ok h]
    exact LinkResult.of_quiet (txCall_setAckpend_quiet bytes k s) (reconcileFrom_result _ _)
  | fail =>
    rw [transmit_fail h]
    exact .inr ⟨s, .linkSend, .tx bytes, Quiet.refl s, rfl, trivial, rfl⟩

theorem transmit_counts {bytes : List Byte} {k : Fin 9} {s : State} (hk : k.val ≠ 0) (hs : s.seq ≠ .idle)
    (ht : (transmit bytes k s).seq = s.seq) :
    ((transmit bytes k s).ackpend.val = 0 ∧ (transmit bytes k s).pcnt.val = 0)
      ∨ ((transmit bytes k s).ackpend.val ≠ 0 ∧ (transmit bytes k s).ackpend.val ≤ k.val
          ∧ (transmit bytes k s).pcnt = s.pcnt ∧ (transmit bytes k s).link.rxAnswers = []) := by
  cases h : txAnswer s.link with
  | ok =>
    rw [transmit_ok h] at ht ⊢
    exact reconcileFrom_counts _ ((txCall bytes s).setAckpend k) hk hs ht
  | fail =>
    rw [transmit_fail h] at ht
    exact absurd ht.symm hs

/-- A transmission whose send is accepted and whose every acknowledgement is a success (R121, R130). -/
theorem transmit_success {s : State} {bytes : List Byte} {k : Fin 9} {rest : List RxAnswer} (hk : k.val ≠ 0)
    (htx : txAnswer s.link = .ok) (hrx : s.link.rxAnswers = List.replicate k.val (.byte 0#8) ++ rest) :
    transmit bytes k s =
      { s with
        ackpend := 0, pcnt := 0
        link := { txTaken s.link with rxAnswers := rest }
        events := s.events ++ .tx bytes :: List.replicate k.val (.rx (.byte 0#8)) } := by
  rw [transmit_ok htx, hrx, reconcileFrom_successes k.val rest _ rfl hk]
  simp [txCall_eq, State.setAckpend]

/-- A transmission whose first failing acknowledgement is number `j` (R123, R203). -/
theorem transmit_failure {s : State} {bytes : List Byte} {k : Fin 9} {j : Nat} {a : RxAnswer} {c : Cause}
    {rest : List RxAnswer} (hj : j < k.val) (ha : failureCause a = some c)
    (htx : txAnswer s.link = .ok) (hrx : s.link.rxAnswers = List.replicate j (.byte 0#8) ++ a :: rest) :
    transmit bytes k s =
      { s with
        ackpend := ⟨k.val - j, by omega⟩
        link := { txTaken s.link with rxAnswers := rest }
        events := s.events ++ .tx bytes :: List.replicate j (.rx (.byte 0#8)) ++ [.rx a]
        faults := addCause c s.faults, sess := .aborted, seq := .idle
        results := s.results ++ [.linkFailure c] } := by
  rw [transmit_ok htx, hrx, reconcileFrom_failure j a c rest _ hj ha]
  simp [txCall_eq, State.setAckpend]

/-! Submit, flush, the unbuffered exchange (R120, R125, R130). -/

theorem enqueue_quiet (f : Frame) (s : State) (h : s.pcnt.val < 8) : Quiet s (enqueue f s h) :=
  ⟨rfl, [], by simp [enqueue], by simp⟩

theorem submit_below {s : State} (ha : s.ackpend.val = 0) (hp : s.pcnt.val < 7) (f : Frame) :
    submit f s = enqueue f s (by omega) := by
  have h : s.ackpend.val = 0 ∧ s.pcnt.val < 8 := ⟨ha, by omega⟩
  simp only [submit, dif_pos h]
  rw [if_neg]
  simp [enqueue, Config.maxFrames]; omega

theorem submit_full {s : State} (ha : s.ackpend.val = 0) (hp : s.pcnt.val = 7) (f : Frame) :
    submit f s = transmitAndReconcile (enqueue f s (by omega)) := by
  have h : s.ackpend.val = 0 ∧ s.pcnt.val < 8 := ⟨ha, by omega⟩
  simp only [submit, dif_pos h]
  rw [if_pos]
  simp [enqueue, Config.maxFrames, hp]

theorem submit_assert {s : State} (h : ¬ (s.ackpend.val = 0 ∧ s.pcnt.val < 8)) (f : Frame) :
    submit f s = assertFailed .r120 s := by
  simp only [submit, dif_neg h]

theorem submit_result {s : State} (ha : s.ackpend.val = 0) (hp : s.pcnt.val < 8) (f : Frame) :
    LinkResult s (submit f s) := by
  by_cases h7 : s.pcnt.val = 7
  · rw [submit_full ha h7]
    exact LinkResult.of_quiet (enqueue_quiet f s _) (transmit_result _ _ _)
  · rw [submit_below ha (by omega)]
    exact .inl (enqueue_quiet f s _)

theorem flush_empty {s : State} (ha : s.ackpend.val = 0) (hp : s.pcnt.val = 0) : flush s = s := by
  simp [flush, ha, hp]

theorem flush_some {s : State} (ha : s.ackpend.val = 0) (hp : s.pcnt.val ≠ 0) : flush s = transmitAndReconcile s := by
  simp [flush, ha, hp]

theorem flush_assert {s : State} (ha : s.ackpend.val ≠ 0) : flush s = assertFailed .r125 s := by
  simp [flush, ha]

theorem flush_result {s : State} (ha : s.ackpend.val = 0) : LinkResult s (flush s) := by
  by_cases hp : s.pcnt.val = 0
  · rw [flush_empty ha hp]; exact .inl (Quiet.refl s)
  · rw [flush_some ha hp]; exact transmit_result _ _ _

theorem sendUnbuffered_empty {s : State} (hp : s.pcnt.val = 0) (ha : s.ackpend.val = 0) (f : Frame) :
    sendUnbuffered f s = transmit f.bytes 1 s := by
  simp [sendUnbuffered, hp, ha]

theorem sendUnbuffered_assert {s : State} (h : ¬ (s.pcnt.val = 0 ∧ s.ackpend.val = 0)) (f : Frame) :
    sendUnbuffered f s = assertFailed .r130 s := by
  simp only [sendUnbuffered, if_neg h]

theorem sendUnbuffered_result {s : State} (hp : s.pcnt.val = 0) (ha : s.ackpend.val = 0) (f : Frame) :
    LinkResult s (sendUnbuffered f s) := by
  rw [sendUnbuffered_empty hp ha]; exact transmit_result _ _ _

end Sys2Proof.Machine
end

