-- ==== Sys2Proof/Laws/Region.lean ====
section
/-! SUPPORT. What WF_CONFIG gives (R8, R9), in the forms that omega uses. -/

namespace Sys2Proof

theorem Cfg.wf_iff (c : Cfg) : c.wf = true ↔
    c.pageSize % 2 = 0 ∧ 4 ≤ c.pageSize ∧ c.imageSize % c.pageSize = 0 ∧ c.imageSize ≤ 0x10000
      ∧ 2 ≤ c.reservedSize ∧ (c.reservedSize - 2) % c.pageSize = 0
      ∧ c.reservedSize + c.pageSize + c.pageSize ≤ c.imageSize + 2 := by
  simp [Cfg.wf, and_assoc]

/-- The sizes of an admitted configuration, as inequalities. -/
theorem Cfg.wf_sizes {c : Cfg} (h : c.wf = true) :
    4 ≤ c.pageSize ∧ c.pageSize % 2 = 0 ∧ c.imageSize ≤ 0x10000 ∧ 2 ≤ c.reservedSize
      ∧ c.reservedStart + c.reservedSize = c.imageSize ∧ 2 * c.pageSize ≤ c.reservedStart + 2
      ∧ c.resvPage + c.pageSize = c.reservedStart + 2 := by
  obtain ⟨h1, h2, -, h4, h5, -, h7⟩ := (Cfg.wf_iff c).1 h
  simp only [Cfg.resvPage, Cfg.reservedStart]
  omega

/-- R + 2 and RESV_PAGE are multiples of S (R9). -/
theorem Cfg.wf_aligned {c : Cfg} (h : c.wf = true) :
    (c.reservedStart + 2) % c.pageSize = 0 ∧ c.resvPage % c.pageSize = 0 := by
  obtain ⟨-, -, h3, -, h5, h6, -⟩ := (Cfg.wf_iff c).1 h
  obtain ⟨-, -, -, -, g1, -, g2⟩ := Cfg.wf_sizes h
  have hd : c.pageSize ∣ c.reservedStart + 2 := by
    have e : c.reservedStart + 2 = c.imageSize - (c.reservedSize - 2) := by omega
    rw [e]
    exact Nat.dvd_sub (Nat.dvd_of_mod_eq_zero h3) (Nat.dvd_of_mod_eq_zero h6)
  refine ⟨Nat.mod_eq_zero_of_dvd hd, Nat.mod_eq_zero_of_dvd ?_⟩
  have e : c.resvPage = (c.reservedStart + 2) - c.pageSize := by omega
  rw [e]
  exact Nat.dvd_sub hd (dvd_refl _)

/-- A page that begins at most at R − S ends at most at R (R59, R142). -/
theorem Cfg.wf_page_end {c : Cfg} (h : c.wf = true) {a : Nat}
    (hle : a ≤ c.reservedStart - c.pageSize) : a + c.pageSize ≤ c.reservedStart := by
  obtain ⟨g0, -, -, -, -, g2, -⟩ := Cfg.wf_sizes h
  omega

end Sys2Proof
end

