-- ==== Sys2Proof/Laws/Exec.lean ====
section
/-! SUPPORT. What the arms of exec come down to: the channel's operations, the guards and the run of a call. -/

namespace Sys2Proof.Machine

/-- LOAD and FILL submit their frame (R104, R105). -/
theorem exec_pipelined {i : Instr} {f : Frame} (h : PipelinedFrame i f) (s : State) :
    exec i s = .next (submit f s) := by
  rcases h with ⟨d0, d1, rfl, rfl⟩ | ⟨off, rfl, rfl⟩
  · simp [exec, execLoad, frameLoad, enc]
  · rfl

/-- ERASE, WRITE and HANDSHAKE send their frame unbuffered (R106, R107, R85). -/
theorem exec_unbuffered {i : Instr} {f : Frame} (h : UnbufferedFrame i f) (s : State) :
    exec i s = .next (sendUnbuffered f s) := by
  rcases h with ⟨_, rfl, rfl⟩ | ⟨_, rfl, rfl⟩ | ⟨rfl, rfl⟩ <;> rfl

/-- `PBUF[PCNT] <- f` changes that entry only (R120). -/
theorem enqueue_pbuf (f : Frame) (s : State) (h : s.pcnt.val < 8) (j : Fin 8) :
    (enqueue f s h).pbuf[j] = if j.val = s.pcnt.val then f else s.pbuf[j] := by
  simp [enqueue, Vector.getElem_set, eq_comm]

/-- The queue after the append: the frame stands last (R120). -/
theorem queued_enqueue (f : Frame) (s : State) (h : s.pcnt.val < 8) :
    queued (enqueue f s h) = queued s ++ [f] := by
  have hl : s.pbuf.toList.length = 8 := by simp
  simp only [queued, enqueue, setPcnt_pcnt, setPcnt_pbuf, setPbuf_pbuf]
  rw [Vector.toList_set]
  apply List.ext_getElem
  · simp; omega
  · intro n h1 h2
    simp only [List.getElem_take, List.getElem_set, List.getElem_append, List.length_take, hl]
    have h3 : n < s.pcnt.val + 1 := by simp at h1; omega
    by_cases h4 : n = s.pcnt.val
    · simp [h4]
    · have h5 : n < s.pcnt.val := by omega
      rw [if_neg (fun h => h4 h.symm), dif_pos (by omega)]

/-- An admitted call is not refused (R22). -/
theorem entryRefusal_none {q : Sess} {p : Sess → Bool} {s : State} (h : Admitted q s) (hp : p q = true) :
    entryRefusal p s = none := by
  obtain ⟨h1, h2, h3, h4⟩ := h
  simp [entryRefusal, h1, h2, h3, h4, hp]

/-- A number below 2^17 is latched as it is (R28). -/
theorem latch17_toNat {n : Nat} (h : n < 0x20000) : (latch17 n).toNat = n := by
  rw [latch17, if_pos h, BitVec.toNat_ofNat]; omega

/-- The state in which the guards of a request are evaluated (R147, R180). -/
def requested (a n : Nat) (s : State) : State := (latchRequest a n s).setSeq .guard

theorem requested_eq (a n : Nat) (s : State) : requested a n s =
    { s with pw := { s.pw with addr := latch17 a, count := latch17 n }, seq := .guard } := rfl

/-- PAGE_WRITE once it is admitted (R180). -/
theorem exec_pageWrite {s : State} (h : PageWriteAdmitted s) (a n : Nat) :
    exec (.pageWrite a n) s = andThen (guardPhase a n (requested a n s)) runCall := by
  have := entryRefusal_none h.1 (p := Sess.admitsPageWrite) rfl
  simp [exec, execPageWrite, this, accessorMatches, h.2.1, h.2.2, requested]

/-- INIT once it is admitted (R181). -/
theorem exec_init {s : State} (h : Admitted .idle s) : exec .init s = runCall (s.setSeq .handshake) := by
  simp [exec, execInit, entryRefusal_none h (p := Sess.admitsInit) rfl]

/-! The guards, one lemma for each way out (R140 to R147). -/

theorem guardPhase_unsupported {a n : Nat} {s : State} (h : s.img.tag ≠ "flash") :
    guardPhase a n s = .next (finish .unsupported s) := by
  unfold guardPhase; rw [if_pos h]

theorem guardPhase_reserved {a n : Nat} {s : State} (h : s.img.tag = "flash") (ha : s.cfg.reservedStart ≤ a) :
    guardPhase a n s = .next (raisePolicy (.reservedRegion a) s) := by
  unfold guardPhase; rw [if_neg (not_not.2 h), if_pos ha]

theorem guardPhase_paired {a n : Nat} {s : State} (h : s.img.tag = "flash") (ha : a < s.cfg.reservedStart)
    (hb : s.cfg.reservedStart - s.cfg.pageSize < a) : guardPhase a n s = .next (finish (.ok n) s) := by
  unfold guardPhase; rw [if_neg (not_not.2 h), if_neg (Nat.not_le.2 ha), if_pos hb]

theorem guardPhase_partial {a n : Nat} {s : State} (h : s.img.tag = "flash") (ha : a < s.cfg.reservedStart)
    (hb : a ≤ s.cfg.reservedStart - s.cfg.pageSize) (hc : a % s.cfg.pageSize ≠ 0 ∨ n ≠ s.cfg.pageSize) :
    guardPhase a n s = .refused .requestNotOnePage := by
  unfold guardPhase
  rw [if_neg (not_not.2 h), if_neg (Nat.not_le.2 ha), if_neg (Nat.not_lt.2 hb), if_pos hc]

theorem guardPhase_ordinary {a : Nat} {s : State} (h : s.img.tag = "flash") (ha : a < s.cfg.reservedStart)
    (hb : a ≤ s.cfg.reservedStart - s.cfg.pageSize) (hc : a % s.cfg.pageSize = 0) (h0 : a ≠ 0) :
    guardPhase a s.cfg.pageSize s = .next (startPass a .main s) := by
  unfold guardPhase
  rw [if_neg (not_not.2 h), if_neg (Nat.not_le.2 ha), if_neg (Nat.not_lt.2 hb),
    if_neg (by rintro (h | h) <;> exact h (by first | exact hc | rfl)), if_neg h0]

theorem guardPhase_zero {s : State} (h : s.img.tag = "flash") (ha : 0 < s.cfg.reservedStart) :
    guardPhase 0 s.cfg.pageSize s = redirectPhase (s.setSeq .redirect) := by
  unfold guardPhase
  rw [if_neg (not_not.2 h), if_neg (Nat.not_le.2 ha), if_neg (Nat.not_lt.2 (Nat.zero_le _)),
    if_neg (by rintro (h | h) <;> exact h (by first | exact Nat.zero_mod _ | rfl)), if_pos rfl]

/-! The run of a call. -/

/-- A call that has returned does nothing more. -/
theorem drive_idle (n : Nat) (s : State) (h : s.seq = .idle) : drive n s = .next s := by
  cases n <;> simp [drive, runnable, h]

theorem runCall_idle {s : State} (h : s.seq = .idle) : runCall s = .next s := drive_idle _ s h

/-- A relation between states that the inner steps keep, the whole run keeps. -/
theorem drive_rel {P : State → State → Prop} (hr : ∀ s, P s s) (ht : ∀ s t u, P s t → P t u → P s u)
    (hi : ∀ s t, innerStep s = .next t → P s t) :
    ∀ n s t, drive n s = .next t → P s t := by
  intro n
  induction n with
  | zero => intro s t h; simp only [drive, Host.Outcome.next.injEq] at h; exact h ▸ hr s
  | succ n ih =>
    intro s t h
    simp only [drive] at h
    split at h
    · obtain ⟨u, h1, h2⟩ := andThen_eq_next.1 h
      exact ht s u t (hi s u h1) (ih u t h2)
    · simp only [Host.Outcome.next.injEq] at h; exact h ▸ hr s

/-- A property of states that every inner step of a running call keeps, and from which it never faults, the whole run keeps: it answers a next state with it. -/
theorem drive_keeps {P : State → Prop} (hi : ∀ s, P s → s.seq ≠ .idle → ∃ t, innerStep s = .next t ∧ P t) :
    ∀ n s, P s → ∃ t, drive n s = .next t ∧ P t := by
  intro n
  induction n with
  | zero => intro s h; exact ⟨s, rfl, h⟩
  | succ n ih =>
    intro s h
    simp only [drive]
    split
    · rename_i hr
      have hs : s.seq ≠ .idle := by simp [runnable] at hr; exact hr.1.1
      obtain ⟨u, h1, h2⟩ := hi s h hs
      obtain ⟨t, h3, h4⟩ := ih u h2
      exact ⟨t, by rw [h1]; exact h3, h4⟩
    · exact ⟨s, rfl, h⟩

end Sys2Proof.Machine
end

