-- ==== Sys2Proof/Laws/Sequencer.lean ====
section
/-! SUPPORT. What one inner step of the sequencer, and a whole run of them, can do (R27, R164). -/

namespace Sys2Proof.Machine

/-! Without any assumption: records only grow, and the image changes at four addresses at most. -/

/-- A read of another address after a write, in any memory. -/
theorem memRead_memWrite_ne (m : Memory) {a b : Nat} (h : b ≠ a) (v : Byte) : memRead (memWrite m a v) b = memRead m b := by
  induction m with
  | nil => simp only [memWrite]; split <;> simp [memRead, Ne.symm h]
  | cons c m ih =>
    obtain ⟨k, w⟩ := c
    simp only [memWrite]
    split
    · split
      · rfl
      · simp [memRead, Ne.symm h]
    · split
      · rename_i hk
        have hkb : ¬ k = b := by omega
        split
        · simp [memRead, hkb]
        · simp [memRead, hkb, Ne.symm h]
      · simp only [memRead, ih]

/-- From `s` to `t` no configuration, host input, cause, event or outcome is lost, and the image is the same but at 0, 1, R and R+1. -/
structure Grows (s t : State) : Prop where
  cfg : t.cfg = s.cfg
  inbox : t.inbox = s.inbox
  faults : ∀ c ∈ s.faults, c ∈ t.faults
  events : ∃ es, t.events = s.events ++ es
  results : ∃ rs, t.results = s.results ++ rs
  tag : t.img.tag = s.img.tag
  size : t.img.size = s.img.size
  reserved : t.img.reserved = s.img.reserved
  bytes : ∀ a, a ≠ 0 → a ≠ 1 → a ≠ s.cfg.reservedStart → a ≠ s.cfg.reservedStart + 1 →
    memRead t.img.mem a = memRead s.img.mem a

theorem Grows.trans {s t u : State} (h : Grows s t) (g : Grows t u) : Grows s u := by
  obtain ⟨es, he⟩ := h.events
  obtain ⟨fs, hf⟩ := g.events
  obtain ⟨rs, hr⟩ := h.results
  obtain ⟨qs, hq⟩ := g.results
  have hc := h.cfg
  refine ⟨g.cfg.trans hc, g.inbox.trans h.inbox, fun c h1 => g.faults c (h.faults c h1), ⟨es ++ fs, by simp [hf, he]⟩,
    ⟨rs ++ qs, by simp [hq, hr]⟩, g.tag.trans h.tag, g.size.trans h.size, g.reserved.trans h.reserved, ?_⟩
  intro a h0 h1 h2 h3
  rw [g.bytes a h0 h1 (by rw [hc]; exact h2) (by rw [hc]; exact h3), h.bytes a h0 h1 h2 h3]

/-- A change of the block's own registers and the transport only. -/
theorem Grows.of_frame {s t : State} (h : t = { s with
    sess := t.sess, seq := t.seq, pbuf := t.pbuf, pcnt := t.pcnt, ackpend := t.ackpend, pw := t.pw, link := t.link }) :
    Grows s t := by
  rw [h]
  exact ⟨rfl, rfl, fun c h => h, ⟨[], by simp⟩, ⟨[], by simp⟩, rfl, rfl, rfl, fun a _ _ _ _ => rfl⟩

theorem Grows.refl (s : State) : Grows s s := Grows.of_frame rfl

theorem Quiet.grows {s t : State} (h : Quiet s t) : Grows s t := by
  obtain ⟨h, es, he, -⟩ := h
  rw [h, he]
  exact ⟨rfl, rfl, fun c h => h, ⟨es, rfl⟩, ⟨[], by simp⟩, rfl, rfl, rfl, fun a _ _ _ _ => rfl⟩

theorem grows_finish (r : Result) (s : State) : Grows s (finish r s) :=
  ⟨rfl, rfl, fun c h => h, ⟨[], by simp [finish]⟩, ⟨[r], rfl⟩, rfl, rfl, rfl, fun a _ _ _ _ => rfl⟩

theorem grows_emit (e : Event) (s : State) : Grows s (s.emit e) :=
  ⟨rfl, rfl, fun c h => h, ⟨[e], rfl⟩, ⟨[], by simp⟩, rfl, rfl, rfl, fun a _ _ _ _ => rfl⟩

theorem grows_record (c : Cause) (s : State) : Grows s (record c s) :=
  ⟨rfl, rfl, fun _ h => mem_addCause.2 (.inr h), ⟨[], by simp [record]⟩, ⟨[], by simp [record]⟩, rfl, rfl, rfl, fun a _ _ _ _ => rfl⟩

theorem grows_raiseLink (c : Cause) (s : State) : Grows s (raiseLink c s) :=
  (grows_record c s).trans ((Grows.of_frame (t := (record c s).setSess .aborted) rfl).trans (grows_finish _ _))

theorem grows_raisePolicy (c : Cause) (s : State) : Grows s (raisePolicy c s) :=
  (grows_record c s).trans ((Grows.of_frame (t := (record c s).setSess .halted) rfl).trans (grows_finish _ _))

theorem Raised.grows {s t : State} (h : Raised s t) : Grows s t := by
  obtain ⟨u, c, e, hu, -, -, ht⟩ := h
  rw [ht]
  exact hu.grows.trans ((grows_emit e u).trans ((grows_raiseLink c _).trans (Grows.of_frame rfl)))

theorem LinkResult.grows {s t : State} (h : LinkResult s t) : Grows s t := h.elim Quiet.grows Raised.grows

theorem grows_assertFailed (r : AssertRule) (s : State) : Grows s (assertFailed r s) := grows_record _ _

theorem grows_submit (f : Frame) (s : State) : Grows s (submit f s) := by
  by_cases h : s.ackpend.val = 0 ∧ s.pcnt.val < 8
  · exact (submit_result h.1 h.2 f).grows
  · rw [submit_assert h]; exact grows_assertFailed _ _

theorem grows_flush (s : State) : Grows s (flush s) := by
  by_cases h : s.ackpend.val = 0
  · exact (flush_result h).grows
  · rw [flush_assert h]; exact grows_assertFailed _ _

theorem grows_sendUnbuffered (f : Frame) (s : State) : Grows s (sendUnbuffered f s) := by
  by_cases h : s.pcnt.val = 0 ∧ s.ackpend.val = 0
  · rw [sendUnbuffered_empty h.1 h.2]; exact (transmit_result _ _ _).grows
  · rw [sendUnbuffered_assert h]; exact grows_assertFailed _ _

theorem grows_receiveAck (b : Byte) (s : State) : Grows s (receiveAck b s) := by
  by_cases h : s.ackpend.val = 0
  · simp only [receiveAck, if_pos h]; exact grows_assertFailed _ _
  · by_cases hb : b = 0#8
    · subst hb; exact (receiveAck_success_quiet h).grows
    · exact (receiveAck_violation_raised h hb).grows

theorem grows_advance (s : State) : Grows s (advance s) := by
  unfold advance
  split
  · exact Grows.refl s
  · exact (Grows.of_frame (t := s.setSess .ready) rfl).trans (grows_finish _ _)
  · exact Grows.refl s
  · exact Grows.refl s
  · unfold advanceFill; split
    · exact Grows.of_frame rfl
    · split <;> exact Grows.of_frame rfl
  · exact Grows.of_frame rfl
  · exact Grows.of_frame rfl
  · unfold advanceWrite; split
    · exact Grows.of_frame rfl
    · exact grows_finish _ _
  · exact Grows.refl s

theorem grows_settle (q : Seq) (s : State) : Grows s (settle q s) := by
  unfold settle; split
  · exact grows_advance s
  · exact Grows.refl s

/-- The relation holds of every next state an outcome answers. -/
def Leads (P : State → Prop) (o : Host.Outcome State Fault Refusal) : Prop := ∀ t, o = .next t → P t

theorem Leads.next {P : State → Prop} {t : State} (h : P t) : Leads P (.next t) := by
  intro u hu; simp only [Host.Outcome.next.injEq] at hu; exact hu ▸ h

theorem Leads.andThen {P Q : State → Prop} {o : Host.Outcome State Fault Refusal}
    {f : State → Host.Outcome State Fault Refusal} (h : Leads P o) (g : ∀ t, P t → Leads Q (f t)) : Leads Q (andThen o f) := by
  intro u hu
  obtain ⟨t, h1, h2⟩ := andThen_eq_next.1 hu
  exact g t (h t h1) u h2

theorem leads_imgWrite {s : State} {a : Nat} (v : Byte)
    (ha : a = 0 ∨ a = 1 ∨ a = s.cfg.reservedStart ∨ a = s.cfg.reservedStart + 1) : Leads (Grows s) (imgWrite a v s) := by
  unfold imgWrite; split
  · refine Leads.next ⟨rfl, rfl, fun c h => h, ⟨_, rfl⟩, ⟨[], by simp [imgPut]⟩, rfl, rfl, rfl, ?_⟩
    intro b h0 h1 h2 h3
    exact memRead_memWrite_ne _ (by omega) v
  · intro t h; simp at h

theorem leads_imgWriteWord {s : State} {a : Nat} (w : Word) (ha : a = 0 ∨ a = s.cfg.reservedStart) :
    Leads (Grows s) (imgWriteWord a w s) := by
  refine Leads.andThen (leads_imgWrite _ (by omega)) (fun t ht => ?_)
  intro u hu
  exact ht.trans (leads_imgWrite _ (by rw [ht.cfg]; omega) u hu)

theorem leads_redirectPhase (s : State) : Leads (Grows s) (redirectPhase s) := by
  unfold redirectPhase; split
  · intro t h; simp at h
  · rename_i orig _
    have h1 : Grows s (s.setPw { s.pw with orig := orig }) := Grows.of_frame rfl
    simp only
    split
    · refine Leads.andThen (P := Grows s) ?_ (fun t ht => Leads.next (ht.trans (Grows.of_frame rfl)))
      refine Leads.andThen (P := Grows s) ?_ (fun t ht => ?_)
      · intro t ht; exact h1.trans (leads_imgWriteWord _ (.inl rfl) t ht)
      · intro u hu; exact ht.trans (leads_imgWriteWord _ (by right; rw [ht.cfg]; rfl) u hu)
    · exact Leads.next (h1.trans (grows_raisePolicy _ _))

theorem leads_guardPhase (a n : Nat) (s : State) : Leads (Grows s) (guardPhase a n s) := by
  unfold guardPhase
  split
  · exact Leads.next (grows_finish _ _)
  · split
    · exact Leads.next (grows_raisePolicy _ _)
    · split
      · exact Leads.next (grows_finish _ _)
      · split
        · intro t h; simp at h
        · split
          · intro t ht
            exact (Grows.of_frame (t := s.setSeq .redirect) rfl).trans (leads_redirectPhase _ t ht)
          · exact Leads.next (Grows.of_frame rfl)

theorem leads_seqPhase (s : State) : Leads (Grows s) (seqPhase s) := by
  unfold seqPhase
  split
  · exact Leads.next (Grows.refl s)
  · split
    · exact Leads.next (grows_sendUnbuffered _ _)
    · exact Leads.next ((Grows.of_frame (t := s.setAckpend 1) rfl).trans (reconcileFrom_result _ _).grows)
  · exact leads_guardPhase _ _ s
  · exact leads_redirectPhase s
  · unfold fillPhase; split
    · split
      · exact Leads.next (grows_submit _ _)
      · intro t h; simp at h
    · exact Leads.next (grows_submit _ _)
  · exact Leads.next (grows_flush s)
  · exact Leads.next (grows_sendUnbuffered _ _)
  · exact Leads.next (grows_sendUnbuffered _ _)
  · exact Leads.next ((grows_emit _ s).trans ((Grows.of_frame (t := (s.emit .tclose).setSess .closed) rfl).trans (grows_finish _ _)))

theorem leads_innerStep (s : State) : Leads (Grows s) (innerStep s) := by
  have hx : ∀ r, Grows s (setRx r s) := fun r => Grows.of_frame rfl
  unfold innerStep; split
  · exact Leads.andThen (leads_seqPhase s) (fun t ht => Leads.next (ht.trans (grows_settle _ _)))
  · split
    · exact Leads.next (Grows.refl s)
    · exact Leads.next ((hx _).trans (receiveFail_raised _).grows)
    · split
      · exact Leads.next ((hx _).trans ((grows_receiveAck _ _).trans (grows_settle _ _)))
      · exact Leads.next ((hx _).trans ((grows_receiveAck _ _).trans (grows_settle _ _)))

/-- A whole run of inner steps loses nothing, and changes the image at four addresses at most. -/
theorem leads_drive (n : Nat) (s : State) : Leads (Grows s) (drive n s) := fun t ht =>
  drive_rel (P := Grows) Grows.refl (fun _ _ _ => Grows.trans) (fun s t => leads_innerStep s t) n s t ht

/-- A host call loses nothing, and changes the image at four addresses at most. -/
theorem leads_callEntry (c : HostCall) (s : State) : Leads (Grows s) (callEntry c s) := by
  cases c with
  | init =>
    simp only [callEntry, execInit]; split
    · intro t h; simp at h
    · intro t ht; exact (Grows.of_frame (t := s.setSeq .handshake) rfl).trans (leads_drive _ _ t ht)
  | pageWrite a n =>
    simp only [callEntry, execPageWrite]; split
    · intro t h; simp at h
    · split
      · refine Leads.andThen (P := Grows s) ?_ (fun t ht u hu => ht.trans (leads_drive _ _ u hu))
        intro t ht
        have h : Grows s ((latchRequest a n s).setSeq .guard) := Grows.of_frame rfl
        exact h.trans (leads_guardPhase _ _ _ t ht)
      · intro t h; simp at h
  | close =>
    simp only [callEntry, execClose]; split
    · intro t h; simp at h
    · exact Leads.next ⟨rfl, rfl, fun c h => h, ⟨_, rfl⟩, ⟨_, rfl⟩, rfl, rfl, rfl, fun a _ _ _ _ => rfl⟩

end Sys2Proof.Machine
end

