-- ==== Sys2Proof/Laws/Invariant.lean ====
section
/-! SUPPORT. From a state that meets the invariant, an inner step answers a next state that meets it, and what else is true of that state (R27, R34, R200, R203). -/

namespace Sys2Proof.Machine

/-- An event of a call in which nothing has failed: no failing answer, no `TClose`. -/
def PlainEvent (e : Event) : Prop := e ≠ .tclose ∧ ∀ a, e = .rx a → a = .byte 0#8

/-- Events have been issued and registers have moved, but no cause is recorded. -/
structure Calm (s t : State) : Prop where
  cfg : t.cfg = s.cfg
  faults : t.faults = s.faults
  events : ∃ es, t.events = s.events ++ es ∧ ∀ e ∈ es, PlainEvent e

/-- The call goes on. -/
def Going (s t : State) : Prop := Calm s t ∧ t.sess = s.sess ∧ t.results = s.results ∧ t.seq ≠ .idle

/-- The call has returned OK. -/
def Returned (s t : State) : Prop :=
  Calm s t ∧ (t.sess = s.sess ∨ (s.sess = .idle ∧ t.sess = .ready))
    ∧ (∃ n, t.results = s.results ++ [.ok n]) ∧ t.seq = .idle

/-- The call has been ended by a link error (R203). -/
def Aborted (s t : State) : Prop :=
  ∃ u e c, Calm s u ∧ t.events = u.events ++ [e] ∧ FailingCall e c ∧ c.isLink = true
    ∧ t.results = s.results ++ [.linkFailure c] ∧ t.faults = addCause c s.faults
    ∧ t.seq = .idle ∧ t.sess = .aborted ∧ t.cfg = s.cfg

/-- What a running call can have come to. -/
def CallRel (s t : State) : Prop := Going s t ∨ Returned s t ∨ Aborted s t

theorem Calm.refl (s : State) : Calm s s := ⟨rfl, rfl, [], by simp, by simp⟩

theorem Calm.trans {s t u : State} (h : Calm s t) (g : Calm t u) : Calm s u := by
  obtain ⟨es, h1, h2⟩ := h.events
  obtain ⟨fs, g1, g2⟩ := g.events
  refine ⟨g.cfg.trans h.cfg, g.faults.trans h.faults, es ++ fs, by simp [g1, h1], fun e he => ?_⟩
  exact (List.mem_append.1 he).elim (h2 e) (g2 e)

theorem Quiet.calm {s t : State} (h : Quiet s t) : Calm s t := by
  obtain ⟨h, es, he, hc⟩ := h
  refine ⟨by rw [h], by rw [h], es, he, fun e h => ?_⟩
  have := hc e h
  cases e with
  | imgw a v => exact this.elim
  | tx b => exact ⟨by simp, by simp⟩
  | rx a =>
    cases a with
    | fail => exact this.elim
    | byte b => refine ⟨by simp, ?_⟩; rintro a ⟨⟩; rw [show b = 0#8 from this]
  | tclose => exact this.elim

theorem Raised.aborted {s t : State} (h : Raised s t) : Aborted s t := by
  obtain ⟨u, c, e, hu, hc, he, ht⟩ := h
  have hf := hu.frame
  rw [ht]
  refine ⟨u, e, c, hu.calm, rfl, he, hc, ?_, ?_, rfl, rfl, ?_⟩
  · show u.results ++ _ = _; rw [hf]
  · show addCause c u.faults = _; rw [hf]
  · show u.cfg = _; rw [hf]

theorem Going.trans {s t u : State} (h : Going s t) (g : CallRel t u) : CallRel s u := by
  obtain ⟨hc, hs, hr, -⟩ := h
  rcases g with ⟨gc, gs, gr, gq⟩ | ⟨gc, gs, ⟨n, gr⟩, gq⟩ | ⟨v, e, c, gc, ge, gf, gl, gr, gfa, gq, gs, gcf⟩
  · exact .inl ⟨hc.trans gc, gs.trans hs, gr.trans hr, gq⟩
  · refine .inr (.inl ⟨hc.trans gc, ?_, ⟨n, by rw [gr, hr]⟩, gq⟩)
    rw [hs] at gs; exact gs
  · exact .inr (.inr ⟨v, e, c, hc.trans gc, ge, gf, gl, by rw [gr, hr], by rw [gfa, hc.faults], gq, gs, by rw [gcf, hc.cfg]⟩)

/-! The invariant. -/

/-- `Inv` without the part about FAULTS as a set, which no rule of a call depends on. -/
structure RunInv (s : State) : Prop where
  cfg_wf : s.cfg.wf = true
  img_wf : s.img.wf = true
  no_invariant_fault : s.faulted = false
  phase : PhaseInv s

theorem Inv.run {s : State} (h : Inv s) : RunInv s := ⟨h.cfg_wf, h.img_wf, h.no_invariant_fault, h.phase⟩

/-- A running call keeps FAULTS a set (R30). -/
theorem CallRel.nodup {s t : State} (h : CallRel s t) (hn : s.faults.Nodup) : t.faults.Nodup := by
  rcases h with h | h | ⟨u, e, c, h⟩
  · rw [h.1.faults]; exact hn
  · rw [h.1.faults]; exact hn
  · rw [h.2.2.2.2.2.1]; exact nodup_addCause hn

/-- A state in which the session is dead meets the invariant if the rest does (R127: the channel's registers no longer matter). -/
theorem RunInv.of_dead {s t : State} (h : RunInv s) (hc : t.cfg = s.cfg) (hi : t.img = s.img)
    (hf : t.faults = s.faults ∨ ∃ c, c.isInvariant = false ∧ t.faults = addCause c s.faults)
    (hq : t.seq = .idle) (hs : t.sess ≠ .idle ∧ t.sess ≠ .ready) : RunInv t := by
  refine ⟨hc ▸ h.cfg_wf, hi ▸ h.img_wf, ?_, ?_⟩
  · rcases hf with hf | ⟨c, hc, hf⟩
    · simpa [State.faulted, hf] using h.no_invariant_fault
    · simpa [State.faulted, hf, any_addCause, hc] using h.no_invariant_fault
  · simp only [PhaseInv, hq]
    rintro (h | h)
    · exact absurd h hs.1
    · exact absurd h hs.2

theorem Cause.isLink_not_invariant {c : Cause} (h : c.isLink = true) : c.isInvariant = false := by
  cases c <;> simp_all [Cause.isLink, Cause.isInvariant]

theorem Raised.inv {s t : State} (h : RunInv s) (hr : Raised s t) : RunInv t := by
  obtain ⟨u, c, e, hu, hc, he, ht⟩ := hr
  have hf := hu.frame
  refine h.of_dead (by rw [ht, hf]; rfl) (by rw [ht, hf]; rfl) (.inr ⟨c, Cause.isLink_not_invariant hc, ?_⟩)
    (by rw [ht]; rfl) (by rw [ht]; simp [raiseLink_eq])
  rw [ht, hf]; rfl

/-- The invariant survives a change of the channel and the transport, if SEQ's own part does. -/
theorem RunInv.of_quiet {s t : State} (h : RunInv s) (hq : Quiet s t) (hp : PhaseInv t) : RunInv t := by
  have hf := hq.frame
  refine ⟨?_, ?_, ?_, hp⟩
  · rw [hf]; exact h.cfg_wf
  · rw [hf]; exact h.img_wf
  · rw [hf]; exact h.no_invariant_fault

theorem PageInv.of_quiet {s t : State} (h : PageInv s) (hq : Quiet s t) : PageInv t := by
  rw [hq.frame]; exact h

/-! The sequencer moves on. -/

/-- What holds when SEQ's work is done and every acknowledgement is read. -/
def AfterPhase (s : State) : Prop :=
  s.ackpend.val = 0 ∧
  match s.seq with
  | .idle => False
  | .handshake => s.sess = .idle ∧ s.pcnt.val = 0
  | .guard => False
  | .redirect => False
  | .fill => PageInv s ∧ s.pw.idx.toNat < s.cfg.pageSize / 2 ∧ s.pcnt.val = (framesBuilt s + 1) % 8
  | .flush => PageInv s ∧ s.pcnt.val = 0
  | .erase => PageInv s ∧ s.pcnt.val = 0
  | .write => PageInv s ∧ s.pcnt.val = 0
  | .close => False

/-- The start of a pass meets the invariant (R164). -/
theorem startPass_inv {s : State} {base : Nat} {pass : Pass} (hc : s.cfg.wf = true) (hi : s.img.wf = true)
    (hf : s.faulted = false) (hs : s.sess = .ready) (ht : s.img.tag = Config.flashTag)
    (h1 : s.img.size = s.cfg.imageSize) (h2 : s.img.reserved = s.cfg.reservedSize) (h3 : s.pw.count.toNat = s.cfg.pageSize)
    (ha : s.ackpend.val = 0) (hp : s.pcnt.val = 0) (hb : base < 0x10000) (hm : base % s.cfg.pageSize = 0)
    (hpass : match pass with
      | .main => base + s.cfg.pageSize ≤ s.cfg.reservedStart
      | .resv => base = s.cfg.resvPage) :
    RunInv (startPass base pass s) := by
  have hb' : (BitVec.ofNat 16 base).toNat = base := by rw [BitVec.toNat_ofNat]; omega
  obtain ⟨g0, -⟩ := Cfg.wf_sizes hc
  refine ⟨hc, hi, hf, ?_⟩
  simp only [PhaseInv, startPass, State.setSeq, State.setPw]
  refine ⟨⟨hs, ht, h1, h2, h3, by simpa [hb'] using hm, ?_⟩, ?_⟩
  · cases pass <;> simpa [hb'] using hpass
  · simp only [FillInv, framesBuilt]
    refine ⟨by simp; omega, ?_⟩
    rw [if_pos ha]; simpa using hp

theorem advance_spec {s : State} (hc : s.cfg.wf = true) (hi : s.img.wf = true)
    (hf : s.faulted = false) (h : AfterPhase s) :
    RunInv (advance s) ∧ CallRel s (advance s) := by
  obtain ⟨ha, h⟩ := h
  have hsz := Cfg.wf_sizes hc
  unfold advance
  cases hq : s.seq with
  | idle => rw [hq] at h; exact h.elim
  | guard => rw [hq] at h; exact h.elim
  | redirect => rw [hq] at h; exact h.elim
  | close => rw [hq] at h; exact h.elim
  | handshake =>
    rw [hq] at h
    refine ⟨⟨hc, hi, hf, ?_⟩, .inr (.inl ⟨⟨rfl, rfl, [], by simp [finish], by simp⟩, .inr ⟨h.1, rfl⟩, ⟨0, rfl⟩, rfl⟩)⟩
    intro _; exact ⟨h.2, ha⟩
  | fill =>
    rw [hq] at h
    obtain ⟨hp, h1, h2⟩ := h
    simp only [advanceFill]
    cases hh : s.pw.half with
    | load =>
      simp only
      refine ⟨⟨hc, hi, hf, ?_⟩, .inl ⟨⟨rfl, rfl, [], by simp, by simp⟩, rfl, rfl, by simp [hq]⟩⟩
      simp only [PhaseInv, setPw_seq, hq]
      refine ⟨hp, h1, ?_⟩
      rw [if_pos (by exact ha)]
      simp only [framesBuilt, hh] at h2
      simp only [framesBuilt, setPw_pw, setPw_pcnt, h2]
    | fill =>
      simp only
      simp only [framesBuilt, hh] at h2
      split
      · rename_i h3
        have hi2 : (BitVec.ofNat 16 (s.pw.idx.toNat + 1)).toNat = s.pw.idx.toNat + 1 := by
          rw [BitVec.toNat_ofNat]; omega
        refine ⟨⟨hc, hi, hf, ?_⟩, .inl ⟨⟨rfl, rfl, [], by simp, by simp⟩, rfl, rfl, by simp [hq]⟩⟩
        simp only [PhaseInv, setPw_seq, hq]
        refine ⟨hp, by simp only [setPw_pw, hi2]; exact h3, ?_⟩
        rw [if_pos (by exact ha)]
        simp only [framesBuilt, setPw_pw, setPw_pcnt, h2, hi2]
        congr 1
      · rename_i h3
        refine ⟨⟨hc, hi, hf, ?_⟩, .inl ⟨⟨rfl, rfl, [], by simp, by simp⟩, rfl, rfl, by simp⟩⟩
        refine ⟨hp, ?_, ?_⟩
        · simp only [setSeq_pcnt, setSeq_cfg, h2]; congr 1; omega
        · simp only [setSeq_ackpend, ha]; omega
  | flush =>
    rw [hq] at h
    refine ⟨⟨hc, hi, hf, ?_⟩, .inl ⟨⟨rfl, rfl, [], by simp, by simp⟩, rfl, rfl, by simp⟩⟩
    exact ⟨h.1, h.2, by simp [ha]⟩
  | erase =>
    rw [hq] at h
    refine ⟨⟨hc, hi, hf, ?_⟩, .inl ⟨⟨rfl, rfl, [], by simp, by simp⟩, rfl, rfl, by simp⟩⟩
    exact ⟨h.1, h.2, by simp [ha]⟩
  | write =>
    rw [hq] at h
    obtain ⟨⟨p1, p2, p3, p4, p5, p6, p7⟩, hp⟩ := h
    simp only [advanceWrite]
    cases hps : s.pw.pass with
    | resv =>
      simp only
      refine ⟨startPass_inv hc hi hf p1 p2 p3 p4 p5 ha hp (by omega) (Nat.zero_mod _) (by simp only; omega), ?_⟩
      exact .inl ⟨⟨rfl, rfl, [], by simp [startPass], by simp⟩, rfl, rfl, by simp [startPass]⟩
    | main =>
      refine ⟨⟨hc, hi, hf, fun _ => ⟨hp, ha⟩⟩, ?_⟩
      exact .inr (.inl ⟨⟨rfl, rfl, [], by simp [finish], by simp⟩, .inl rfl, ⟨_, rfl⟩, rfl⟩)

/-- Settling after work that ended quietly: either every acknowledgement is read and SEQ moves on, or the block waits where it is. -/
theorem settle_spec {s t : State} (h : RunInv s) (hs : s.seq ≠ .idle) (hq : Quiet s t)
    (hd : AfterPhase t ∨ (t.ackpend.val ≠ 0 ∧ PhaseInv t)) :
    RunInv (settle s.seq t) ∧ CallRel s (settle s.seq t) := by
  have hf := hq.frame
  have hseq : t.seq = s.seq := by rw [hf]
  have hgo : Going s t := ⟨hq.calm, by rw [hf], by rw [hf], by rw [hseq]; exact hs⟩
  have hfa : t.faulted = false := by rw [hf]; exact h.no_invariant_fault
  rcases hd with hd | ⟨ha, hp⟩
  · have := advance_spec (s := t) (by rw [hf]; exact h.cfg_wf) (by rw [hf]; exact h.img_wf)
      hfa hd
    rw [settle, if_pos ⟨hseq, hd.1, hfa⟩]
    exact ⟨this.1, hgo.trans this.2⟩
  · rw [settle, if_neg (by simp [ha])]
    exact ⟨h.of_quiet hq hp, .inl hgo⟩

/-- Settling after a raise: nothing is left to do. -/
theorem settle_raised {s t : State} (h : RunInv s) (hs : s.seq ≠ .idle) (hr : Raised s t) :
    RunInv (settle s.seq t) ∧ CallRel s (settle s.seq t) := by
  have hi : t.seq = .idle := by obtain ⟨u, c, e, -, -, -, ht⟩ := hr; rw [ht]; rfl
  rw [settle, if_neg (by rw [hi]; rintro ⟨h1, -⟩; exact hs h1.symm)]
  exact ⟨hr.inv h, .inr (.inr hr.aborted)⟩

/-! One inner step. -/

/-- What a channel operation with outcome `LinkResult` leaves for `settle`. -/
theorem settle_link {s t : State} (h : RunInv s) (hs : s.seq ≠ .idle) (hr : LinkResult s t)
    (hd : Quiet s t → AfterPhase t ∨ (t.ackpend.val ≠ 0 ∧ PhaseInv t)) :
    RunInv (settle s.seq t) ∧ CallRel s (settle s.seq t) := by
  rcases hr with hq | hr
  · exact settle_spec h hs hq (hd hq)
  · exact settle_raised h hs hr

/-- The image has the word that the fill loop reads (R52). -/
theorem loadPayload_some {s : State} (hc : s.cfg.wf = true) (hp : PageInv s) (hx : s.pw.idx.toNat < s.cfg.pageSize / 2) :
    loadPayload s = some (memRead s.img.mem (wordAddress s), memRead s.img.mem (wordAddress s + 1)) := by
  have hsz := Cfg.wf_sizes hc
  obtain ⟨-, -, p3, -, -, -, p7⟩ := hp
  have h1 : wordAddress s + 1 < s.img.size := by
    rw [p3, wordAddress]
    cases hps : s.pw.pass with
    | main => rw [hps] at p7; simp only at p7; omega
    | resv => rw [hps] at p7; simp only at p7; omega
  have h0 : wordAddress s < s.img.size := by omega
  simp [loadPayload, imgRead, h0, h1]

theorem submit_after {s : State} (f : Frame) (hp : PageInv s) (hf : FillInv s) (hs : s.seq = .fill) (ha : s.ackpend.val = 0)
    (hq : Quiet s (submit f s)) :
    AfterPhase (submit f s) ∨ ((submit f s).ackpend.val ≠ 0 ∧ PhaseInv (submit f s)) := by
  obtain ⟨h1, h2⟩ := hf
  rw [if_pos ha] at h2
  have hfr := hq.frame
  have hp' := hp.of_quiet hq
  have hseq : (submit f s).seq = .fill := by rw [hfr]; exact hs
  have hpw : (submit f s).pw = s.pw := by rw [hfr]
  have hcfg : (submit f s).cfg = s.cfg := by rw [hfr]
  have hfb : framesBuilt (submit f s) = framesBuilt s := by simp only [framesBuilt, hpw]
  by_cases h7 : s.pcnt.val = 7
  · have hc := transmit_counts (bytes := batchBytes (queued (enqueue f s (by omega)))) (k := (enqueue f s (by omega)).pcnt)
      (s := enqueue f s (by omega)) (by simp [enqueue]) (by simp [enqueue, hs])
    have e : transmit (batchBytes (queued (enqueue f s (by omega)))) (enqueue f s (by omega)).pcnt (enqueue f s (by omega)) = submit f s :=
      (submit_full ha h7 f).symm
    rw [e] at hc
    rcases hc (by rw [hseq]; simp [enqueue, hs]) with ⟨c1, c2⟩ | ⟨c1, c2, c3, -⟩
    · left
      refine ⟨c1, ?_⟩
      rw [hseq]
      exact ⟨hp', by rw [hpw, hcfg]; exact h1, by rw [hfb, c2]; omega⟩
    · right
      refine ⟨c1, ?_⟩
      simp only [PhaseInv, hseq]
      refine ⟨hp', by rw [hpw, hcfg]; exact h1, ?_⟩
      rw [if_neg c1, hfb, c3]
      refine ⟨by simp [enqueue, h7], by omega⟩
  · left
    have e := submit_below ha (show s.pcnt.val < 7 by omega) f
    refine ⟨by rw [e]; simp [enqueue, ha], ?_⟩
    rw [hseq]
    refine ⟨hp', by rw [hpw, hcfg]; exact h1, ?_⟩
    rw [hfb, e]; simp only [enqueue, setPcnt_pcnt]; omega

theorem sendUnbuffered_after {s : State} (f : Frame) (hu : UnbufferedInv s) (ha : s.ackpend.val = 0)
    (hs : (s.seq = .handshake ∧ s.sess = .idle) ∨ ((s.seq = .erase ∨ s.seq = .write) ∧ PageInv s))
    (hq : Quiet s (sendUnbuffered f s)) :
    AfterPhase (sendUnbuffered f s) ∨ ((sendUnbuffered f s).ackpend.val ≠ 0 ∧ PhaseInv (sendUnbuffered f s)) := by
  have e := sendUnbuffered_empty hu.1 ha f
  rw [e] at hq ⊢
  have hfr := hq.frame
  have hseq : (transmit f.bytes 1 s).seq = s.seq := by rw [hfr]
  have hsess : (transmit f.bytes 1 s).sess = s.sess := by rw [hfr]
  have hp' : PageInv s → PageInv (transmit f.bytes 1 s) := fun h => h.of_quiet hq
  have hc := transmit_counts (bytes := f.bytes) (k := 1) (s := s) (by decide)
    (by rcases hs with ⟨h, -⟩ | ⟨h | h, -⟩ <;> simp [h]) hseq
  rcases hc with ⟨c1, c2⟩ | ⟨c1, c2, c3, -⟩
  · left
    refine ⟨c1, ?_⟩
    rw [hseq]
    rcases hs with ⟨h, h'⟩ | ⟨h | h, h'⟩
    · rw [h]; exact ⟨hsess.trans h', c2⟩
    · rw [h]; exact ⟨hp' h', c2⟩
    · rw [h]; exact ⟨hp' h', c2⟩
  · right
    refine ⟨c1, ?_⟩
    have hu' : UnbufferedInv (transmit f.bytes 1 s) := ⟨by rw [c3]; exact hu.1, c2⟩
    simp only [PhaseInv, hseq]
    rcases hs with ⟨h, h'⟩ | ⟨h | h, h'⟩
    · rw [h]; exact ⟨hsess.trans h', hu'⟩
    · rw [h]; exact ⟨hp' h', hu'⟩
    · rw [h]; exact ⟨hp' h', hu'⟩

theorem flush_after {s : State} (hp : PageInv s) (hf : FlushInv s) (hs : s.seq = .flush) (ha : s.ackpend.val = 0)
    (hq : Quiet s (flush s)) : AfterPhase (flush s) ∨ ((flush s).ackpend.val ≠ 0 ∧ PhaseInv (flush s)) := by
  by_cases h0 : s.pcnt.val = 0
  · rw [flush_empty ha h0]
    left; refine ⟨ha, ?_⟩; rw [hs]; exact ⟨hp, h0⟩
  · rw [flush_some ha h0] at hq ⊢
    have hfr := hq.frame
    have hp' := hp.of_quiet hq
    have hseq : (transmitAndReconcile s).seq = .flush := by rw [hfr]; exact hs
    have hcfg : (transmitAndReconcile s).cfg = s.cfg := by rw [hfr]
    rcases transmit_counts (bytes := batchBytes (queued s)) (k := s.pcnt) (s := s) h0 (by simp [hs]) (hseq.trans hs.symm)
      with ⟨c1, c2⟩ | ⟨c1, c2, c3, -⟩
    · left; refine ⟨c1, ?_⟩; rw [hseq]; exact ⟨hp', c2⟩
    · right; refine ⟨c1, ?_⟩
      simp only [PhaseInv, hseq]
      refine ⟨hp', ?_, ?_⟩
      · show (transmitAndReconcile s).pcnt.val = _
        rw [hcfg, show (transmitAndReconcile s).pcnt = s.pcnt from c3]; exact hf.1
      · show (transmitAndReconcile s).ackpend.val ≤ (transmitAndReconcile s).pcnt.val
        rw [show (transmitAndReconcile s).pcnt = s.pcnt from c3]; exact c2

/-- INIT with no frame (U13): the one acknowledgement is waited for. -/
theorem reconcile_after {s : State} (hu : UnbufferedInv s) (hs : s.seq = .handshake) (hi : s.sess = .idle)
    (hq : Quiet s (reconcile (s.setAckpend 1))) :
    AfterPhase (reconcile (s.setAckpend 1)) ∨ ((reconcile (s.setAckpend 1)).ackpend.val ≠ 0 ∧ PhaseInv (reconcile (s.setAckpend 1))) := by
  have hfr := hq.frame
  have hseq : (reconcile (s.setAckpend 1)).seq = .handshake := by rw [hfr]; exact hs
  have hsess : (reconcile (s.setAckpend 1)).sess = .idle := by rw [hfr]; exact hi
  rcases reconcileFrom_counts s.link.rxAnswers (s.setAckpend 1) (by simp [State.setAckpend]) (by simp [hs]) (hseq.trans hs.symm)
    with ⟨c1, c2⟩ | ⟨c1, c2, c3, -⟩
  · left; refine ⟨c1, ?_⟩; rw [hseq]; exact ⟨hsess, c2⟩
  · right; refine ⟨c1, ?_⟩
    simp only [PhaseInv, hseq]
    refine ⟨hsess, ?_, c2⟩
    show (reconcile (s.setAckpend 1)).pcnt.val = 0
    rw [show (reconcile (s.setAckpend 1)).pcnt = s.pcnt from c3]; exact hu.1

/-- One more success read (R124). -/
theorem receiveAck_after {s : State} (hc : s.cfg.wf = true) (hp : PhaseInv s) (hs : s.seq ≠ .idle) (ha : s.ackpend.val ≠ 0) :
    AfterPhase (receiveAck 0#8 s) ∨ ((receiveAck 0#8 s).ackpend.val ≠ 0 ∧ PhaseInv (receiveAck 0#8 s)) := by
  have hsz := Cfg.wf_sizes hc
  rw [receiveAck_success ha]
  by_cases h1 : s.ackpend.val = 1
  · left
    refine ⟨by simp [h1], ?_⟩
    simp only [PhaseInv] at hp
    cases hq : s.seq with
    | idle => exact absurd hq hs
    | guard => rw [hq] at hp; exact hp
    | redirect => rw [hq] at hp; exact hp
    | close => rw [hq] at hp; exact hp
    | handshake => rw [hq] at hp; exact ⟨hp.1, by simp [h1]⟩
    | fill =>
      rw [hq] at hp
      obtain ⟨g1, g2, g3⟩ := hp
      rw [if_neg ha] at g3
      refine ⟨g1, g2, ?_⟩
      have : framesBuilt s % 8 = 7 := g3.2
      simp only [h1, if_true]
      show 0 = (framesBuilt s + 1) % 8
      omega
    | flush => rw [hq] at hp; exact ⟨hp.1, by simp [h1]⟩
    | erase => rw [hq] at hp; exact ⟨hp.1, by simp [h1]⟩
    | write => rw [hq] at hp; exact ⟨hp.1, by simp [h1]⟩
  · right
    have h2 : s.ackpend.val - 1 ≠ 0 := by omega
    refine ⟨h2, ?_⟩
    simp only [PhaseInv, h1, if_false] at hp ⊢
    cases hq : s.seq with
    | idle => exact absurd hq hs
    | guard => rw [hq] at hp; exact hp
    | redirect => rw [hq] at hp; exact hp
    | close => rw [hq] at hp; exact hp
    | handshake => rw [hq] at hp; have := hp.2.2; exact absurd this (by omega)
    | fill =>
      rw [hq] at hp
      obtain ⟨g1, g2, g3⟩ := hp
      rw [if_neg ha] at g3
      refine ⟨g1, g2, ?_⟩
      rw [if_neg h2]; exact g3
    | flush =>
      rw [hq] at hp
      obtain ⟨g1, g2, g3⟩ := hp
      exact ⟨g1, g2, by simp only; omega⟩
    | erase => rw [hq] at hp; have := hp.2.2; exact absurd this (by omega)
    | write => rw [hq] at hp; have := hp.2.2; exact absurd this (by omega)

/-- From a state that meets the invariant an inner step answers a next state that meets it, and the call goes on, has returned, or is aborted. -/
theorem innerStep_spec {s : State} (h : RunInv s) (hs : s.seq ≠ .idle) :
    ∃ t, innerStep s = .next t ∧ RunInv t ∧ CallRel s t := by
  have hp := h.phase
  unfold innerStep
  split
  · rename_i ha
    suffices hx : ∃ t, seqPhase s = .next t ∧ LinkResult s t ∧ (Quiet s t → AfterPhase t ∨ (t.ackpend.val ≠ 0 ∧ PhaseInv t)) by
      obtain ⟨t, h1, h2, h3⟩ := hx
      rw [h1]
      exact ⟨_, rfl, settle_link h hs h2 h3⟩
    simp only [PhaseInv] at hp
    unfold seqPhase
    cases hq : s.seq with
    | idle => exact absurd hq hs
    | guard => rw [hq] at hp; exact hp.elim
    | redirect => rw [hq] at hp; exact hp.elim
    | close => rw [hq] at hp; exact hp.elim
    | handshake =>
      rw [hq] at hp
      cases s.cfg.handshake with
      | zeroFrame =>
        refine ⟨_, rfl, ?_, fun g => sendUnbuffered_after _ hp.2 ha (.inl ⟨hq, hp.1⟩) g⟩
        rw [sendUnbuffered_empty hp.2.1 ha]; exact transmit_result _ _ _
      | noFrame =>
        refine ⟨_, rfl, ?_, fun g => reconcile_after hp.2 hq hp.1 g⟩
        exact LinkResult.of_quiet ⟨rfl, [], by simp, by simp⟩ (reconcileFrom_result _ _)
    | fill =>
      rw [hq] at hp
      have h8 : s.pcnt.val < 8 := by have := hp.2.2; rw [if_pos ha] at this; omega
      simp only [fillPhase]
      cases s.pw.half with
      | load =>
        simp only [loadPayload_some h.cfg_wf hp.1 hp.2.1]
        exact ⟨_, rfl, submit_result ha h8 _, fun g => submit_after _ hp.1 hp.2 hq ha g⟩
      | fill => exact ⟨_, rfl, submit_result ha h8 _, fun g => submit_after _ hp.1 hp.2 hq ha g⟩
    | flush =>
      rw [hq] at hp
      exact ⟨_, rfl, flush_result ha, fun g => flush_after hp.1 hp.2 hq ha g⟩
    | erase =>
      rw [hq] at hp
      refine ⟨_, rfl, ?_, fun g => sendUnbuffered_after _ hp.2 ha (.inr ⟨.inl hq, hp.1⟩) g⟩
      rw [sendUnbuffered_empty hp.2.1 ha]; exact transmit_result _ _ _
    | write =>
      rw [hq] at hp
      refine ⟨_, rfl, ?_, fun g => sendUnbuffered_after _ hp.2 ha (.inr ⟨.inr hq, hp.1⟩) g⟩
      rw [sendUnbuffered_empty hp.2.1 ha]; exact transmit_result _ _ _
  · rename_i ha
    have hx : ∀ r, Quiet s (setRx r s) := fun r => (Quiet.refl s).setRx r
    split
    · exact ⟨s, rfl, h, .inl ⟨Calm.refl s, rfl, rfl, hs⟩⟩
    · rename_i rest _
      have hr := Raised.of_quiet (hx rest) (receiveFail_raised _)
      exact ⟨_, rfl, hr.inv h, .inr (.inr hr.aborted)⟩
    · rename_i b rest _
      by_cases hb : b = 0#8
      · subst hb
        exact ⟨_, rfl, settle_spec h hs ((hx rest).trans (receiveAck_success_quiet ha))
          (receiveAck_after (s := setRx rest s) h.cfg_wf h.phase hs ha)⟩
      · rw [decodeAck_violation hb]
        exact ⟨_, rfl, settle_raised h hs (Raised.of_quiet (hx rest) (receiveAck_violation_raised ha hb))⟩

/-- From a running call that meets the invariant, the whole run answers a next state that meets it. -/
theorem drive_spec {s : State} (h : RunInv s) (hs : s.seq ≠ .idle) (n : Nat) :
    ∃ t, drive n s = .next t ∧ RunInv t ∧ CallRel s t := by
  induction n generalizing s with
  | zero => exact ⟨s, rfl, h, .inl ⟨Calm.refl s, rfl, rfl, hs⟩⟩
  | succ n ih =>
    simp only [drive]
    split
    · obtain ⟨u, h1, h2, h3⟩ := innerStep_spec h hs
      rw [h1]
      simp only [andThen_next]
      by_cases hu : u.seq = .idle
      · rw [drive_idle _ _ hu]; exact ⟨u, rfl, h2, h3⟩
      · obtain ⟨t, g1, g2, g3⟩ := ih h2 hu
        rcases h3 with h3 | h3 | ⟨v, e, c, h3⟩
        · exact ⟨t, g1, g2, h3.trans g3⟩
        · exact absurd h3.2.2.2 hu
        · exact absurd h3.2.2.2.2.2.2.1 hu
    · exact ⟨s, rfl, h, .inl ⟨Calm.refl s, rfl, rfl, hs⟩⟩

/-! The redirection. -/

/-- An image write inside the buffer keeps the image canonical and is an event, nothing else. -/
theorem imgWrite_spec {s : State} {a : Nat} (ha : a < s.img.size) (v : Byte) :
    imgWrite a v s = .next { s with
      img := { s.img with mem := memWrite s.img.mem a v }
      events := s.events ++ [.imgw a v] } := by
  rw [imgWrite, if_pos ha]; rfl

/-- The image after the four writes of the redirection (R153, R155). -/
def redirectedImage (c : Cfg) (vec : Word) (im : Image) : Image :=
  { im with mem := memWrite (memWrite (memWrite (memWrite im.mem 0 (lo c.bootJump)) 1 (hi c.bootJump))
      c.reservedStart (lo vec)) (c.reservedStart + 1) (hi vec) }

theorem redirectWrites_spec {s : State} (hc : s.cfg.wf = true) (hs : s.img.size = s.cfg.imageSize) (orig : Word) :
    redirectWrites orig s = .next { s with
      img := redirectedImage s.cfg (redirectedVector s.cfg orig) s.img
      events := s.events ++ redirectEvents s.cfg (redirectedVector s.cfg orig) } := by
  have hsz := Cfg.wf_sizes hc
  unfold redirectWrites imgWriteWord
  rw [imgWrite_spec (by omega), andThen_next, imgWrite_spec (by simp only; omega), andThen_next,
    imgWrite_spec (by simp only; omega), andThen_next, imgWrite_spec (by simp only; omega)]
  simp [redirectedImage, redirectEvents]

theorem redirectedImage_wf {c : Cfg} {im : Image} (hc : c.wf = true) (hs : im.size = c.imageSize) (h : im.wf = true) (vec : Word) :
    (redirectedImage c vec im).wf = true := by
  have hsz := Cfg.wf_sizes hc
  refine Image.wf_memWrite (im := { im with mem := memWrite (memWrite (memWrite im.mem 0 _) 1 _) c.reservedStart _ }) ?_ ?_ _
  · refine Image.wf_memWrite (im := { im with mem := memWrite (memWrite im.mem 0 _) 1 _ }) ?_ ?_ _
    · refine Image.wf_memWrite (im := { im with mem := memWrite im.mem 0 _ }) ?_ ?_ _
      · exact Image.wf_memWrite h (by omega) _
      · simp only; omega
    · simp only; omega
  · simp only; omega

theorem redirectedImage_read {c : Cfg} {im : Image} (hc : c.wf = true) (h : im.wf = true) (vec : Word) (a : Nat) :
    memRead (redirectedImage c vec im).mem a = redirectedRead c vec (memRead im.mem) a := by
  have hsz := Cfg.wf_sizes hc
  have h0 := Image.mem_wf h
  have h1 := memWrite_wf h0 0 (lo c.bootJump)
  have h2 := memWrite_wf h1 1 (hi c.bootJump)
  have h3 := memWrite_wf h2 c.reservedStart (lo vec)
  simp only [redirectedImage, redirectedRead]
  rw [memRead_memWrite_of_wf h3, memRead_memWrite_of_wf h2, memRead_memWrite_of_wf h1, memRead_memWrite_of_wf h0]
  by_cases e0 : a = 0
  · have e1 : ¬ a = c.reservedStart := by omega
    have e2 : ¬ a = c.reservedStart + 1 := by omega
    have e3 : ¬ a = 1 := by omega
    rw [if_neg e2, if_neg e1, if_neg e3, if_pos e0, if_pos e0]
  · by_cases e1 : a = 1
    · have e2 : ¬ a = c.reservedStart := by omega
      have e3 : ¬ a = c.reservedStart + 1 := by omega
      rw [if_neg e3, if_neg e2, if_pos e1, if_neg e0, if_pos e1]
    · by_cases e2 : a = c.reservedStart
      · rw [if_neg (by omega), if_pos e2, if_neg e0, if_neg e1, if_pos e2]
      · rw [if_neg e2, if_neg e1, if_neg e0, if_neg e0, if_neg e1, if_neg e2]

/-- The entry word as the redirection captures it (R150). -/
def entryWord (s : State) : Word := word16 (memRead s.img.mem 0) (memRead s.img.mem 1)

theorem imgWord_zero {s : State} (hc : s.cfg.wf = true) (hs : s.img.size = s.cfg.imageSize) :
    imgWord s 0 = some (entryWord s) := by
  have hsz := Cfg.wf_sizes hc
  have h0 : 0 < s.img.size := by omega
  have h1 : 0 + 1 < s.img.size := by omega
  simp [imgWord, imgRead, h0, h1, entryWord]

theorem redirectPhase_bad {s : State} (hc : s.cfg.wf = true) (hs : s.img.size = s.cfg.imageSize)
    (hj : isRelativeJump (entryWord s) = false) :
    redirectPhase s = .next (raisePolicy (.badResetVector (entryWord s)) (s.setPw { s.pw with orig := entryWord s })) := by
  simp [redirectPhase, imgWord_zero hc hs, hj]

theorem redirectPhase_good {s : State} (hc : s.cfg.wf = true) (hs : s.img.size = s.cfg.imageSize)
    (hj : isRelativeJump (entryWord s) = true) :
    redirectPhase s = .next (startPass s.cfg.resvPage .resv { s with
      pw := { s.pw with orig := entryWord s }
      img := redirectedImage s.cfg (redirectedVector s.cfg (entryWord s)) s.img
      events := s.events ++ redirectEvents s.cfg (redirectedVector s.cfg (entryWord s)) }) := by
  simp only [redirectPhase, imgWord_zero hc hs, hj, if_true]
  rw [redirectWrites_spec (by exact hc) (by exact hs), andThen_next]
  rfl

/-! A host call. -/

/-- The block has been halted by a policy violation before any event (R204). -/
def Halted (s t : State) : Prop :=
  s.sess = .ready ∧ t.sess = .halted ∧ t.events = s.events ∧ t.img = s.img ∧ t.link = s.link ∧ t.cfg = s.cfg
    ∧ t.seq = .idle ∧ ∃ c, c.isPolicy = true ∧ t.results = s.results ++ [.unrecoverable c] ∧ t.faults = addCause c s.faults

/-- A guard's own return: nothing but the request registers and the outcome (R140, R142). -/
def GuardReturn (s t : State) : Prop :=
  ∃ r, t = { s with pw := t.pw, results := s.results ++ [r] }

/-- PAGE_WRITE's guards, from a state that meets the invariant: refused, returned, halted, or a page pass begun. -/
theorem pageWrite_entry {s : State} (h : RunInv s) (hq : s.seq = .idle) (hs : s.sess = .ready)
    (h1 : s.img.size = s.cfg.imageSize) (h2 : s.img.reserved = s.cfg.reservedSize) (a n : Nat) :
    (∃ r, guardPhase a n (requested a n s) = .refused r)
    ∨ ∃ t, guardPhase a n (requested a n s) = .next t ∧ RunInv t ∧
        (GuardReturn s t ∨ Halted s t ∨ (Calm s t ∧ t.sess = s.sess ∧ t.results = s.results ∧ t.seq ≠ .idle)) := by
  have hc := h.cfg_wf
  have hsz := Cfg.wf_sizes hc
  have hp := h.phase
  simp only [PhaseInv, hq] at hp
  obtain ⟨hp, ha⟩ := hp (.inr hs)
  have hret : ∀ r, RunInv (finish r (requested a n s)) ∧ GuardReturn s (finish r (requested a n s)) := fun r =>
    ⟨⟨hc, h.img_wf, h.no_invariant_fault, fun _ => ⟨hp, ha⟩⟩, r, by simp [finish_eq, requested_eq, hq]⟩
  by_cases ht : s.img.tag = "flash"
  · by_cases hr : s.cfg.reservedStart ≤ a
    · right
      refine ⟨_, guardPhase_reserved (s := requested a n s) ht hr, ?_, .inr (.inl ?_)⟩
      · exact h.of_dead rfl rfl (.inr ⟨_, rfl, rfl⟩) rfl ⟨by simp [raisePolicy_eq], by simp [raisePolicy_eq]⟩
      · exact ⟨hs, rfl, rfl, rfl, rfl, rfl, rfl, _, rfl, rfl, rfl⟩
    · by_cases hb : s.cfg.reservedStart - s.cfg.pageSize < a
      · right
        exact ⟨_, guardPhase_paired (s := requested a n s) ht (Nat.lt_of_not_le hr) hb, (hret _).1, .inl (hret _).2⟩
      · by_cases hx : a % s.cfg.pageSize ≠ 0 ∨ n ≠ s.cfg.pageSize
        · left
          exact ⟨_, guardPhase_partial (s := requested a n s) ht (Nat.lt_of_not_le hr) (Nat.le_of_not_lt hb) hx⟩
        · right
          have hm : a % s.cfg.pageSize = 0 := by omega
          have hn : n = s.cfg.pageSize := by omega
          have hcount : (latch17 n).toNat = s.cfg.pageSize := by rw [latch17_toNat (by omega), hn]
          by_cases h0 : a = 0
          · subst h0
            have e : guardPhase 0 n (requested 0 n s) = redirectPhase ((requested 0 n s).setSeq .redirect) := by
              have := guardPhase_zero (s := requested 0 n s) ht (show 0 < s.cfg.reservedStart by omega)
              rw [hn]; rw [hn] at this; exact this
            rw [e]
            by_cases hj : isRelativeJump (entryWord ((requested 0 n s).setSeq .redirect)) = true
            · rw [redirectPhase_good (by exact hc) (by exact h1) hj]
              refine ⟨_, rfl, ?_, .inr (.inr ⟨⟨rfl, rfl, _, rfl, ?_⟩, rfl, rfl, by simp [startPass]⟩)⟩
              · exact startPass_inv hc (redirectedImage_wf hc h1 h.img_wf _) h.no_invariant_fault hs ht h1 h2
                  hcount ha hp (show s.cfg.resvPage < 0x10000 by omega) (Cfg.wf_aligned hc).2 rfl
              · simp [redirectEvents, PlainEvent]
            · rw [redirectPhase_bad (by exact hc) (by exact h1) (by simpa using hj)]
              refine ⟨_, rfl, ?_, .inr (.inl ?_)⟩
              · exact h.of_dead rfl rfl (.inr ⟨_, rfl, rfl⟩) rfl ⟨by simp [raisePolicy_eq], by simp [raisePolicy_eq]⟩
              · exact ⟨hs, rfl, rfl, rfl, rfl, rfl, rfl, _, rfl, rfl, rfl⟩
          · have e : guardPhase a n (requested a n s) = .next (startPass a .main (requested a n s)) := by
              have := guardPhase_ordinary (s := requested a n s) (a := a) ht (Nat.lt_of_not_le hr) (Nat.le_of_not_lt hb) hm h0
              rw [hn]; rw [hn] at this; exact this
            rw [e]
            refine ⟨_, rfl, ?_, .inr (.inr ⟨⟨rfl, rfl, [], by simp [startPass, requested_eq], by simp⟩, rfl, rfl, by simp [startPass]⟩)⟩
            exact startPass_inv hc h.img_wf h.no_invariant_fault hs ht h1 h2 hcount ha hp
              (by omega) hm (Cfg.wf_page_end hc (Nat.le_of_not_lt hb))
  · right
    exact ⟨_, guardPhase_unsupported (s := requested a n s) ht, (hret _).1, .inl (hret _).2⟩

end Sys2Proof.Machine
end

