-- ==== Sys2Proof/Laws/Step.lean ====
section
/-! SUPPORT. Everything a step can be, and everything a host call can do from a state that meets the invariant. -/

namespace Sys2Proof.Machine

/-- What a step that answers a next state can be. -/
inductive StepKind (s t : State) : Prop
  /-- The block waits for the host. -/
  | wait (hq : s.seq = .idle) (h : t = s)
  /-- The host hands over an image. -/
  | image (hq : s.seq = .idle) (r : List HostInput) (im : Image) (hi : s.inbox = .image im :: r)
      (h : t = (s.setInbox r).setImg im.canon)
  /-- The host starts a session. -/
  | session (c : Cfg) (r : List HostInput) (hi : s.inbox = .session c :: r) (hc : c.wf = true)
      (h : t = resetRegs c (s.setInbox r))
  /-- The host calls an entry point. -/
  | call (hq : s.seq = .idle) (c : HostCall) (r : List HostInput) (hi : s.inbox = .call c :: r)
      (h : callEntry c (s.setInbox r) = .next t)
  /-- A call goes on. -/
  | inner (hq : s.seq ≠ .idle) (h : innerStep s = .next t)

/-- Any next state of an unfaulted state comes from one of the five. -/
theorem step_kinds {s t : State} (hf : s.faulted = false) (h : step s = .next t) : StepKind s t := by
  unfold step machineStep at h
  rw [if_neg (by simp [hf])] at h
  split at h
  · rename_i hq
    unfold hostStep at h
    split at h
    · simp only [Host.Outcome.next.injEq] at h; exact .wait hq h.symm
    · rename_i c r hi; exact .call hq c r hi h
    · rename_i im r hi; simp only [Host.Outcome.next.injEq] at h; exact .image hq r im hi h.symm
    · rename_i c r hi
      unfold beginSession at h
      split at h
      · rename_i hc; simp only [Host.Outcome.next.injEq] at h; exact .session c r hi hc h.symm
      · simp at h
  · rename_i hq; exact .inner hq h

/-- CLOSE's own effect (R182). -/
def Closed (s t : State) : Prop :=
  t = { s with sess := .closed, events := s.events ++ [.tclose], results := s.results ++ [.ok 0] }
    ∧ (s.sess = .idle ∨ s.sess = .ready ∨ s.sess = .aborted)

/-- What a host call from `s` can have come to. -/
def CallEnd (s t : State) : Prop :=
  GuardReturn s t ∨ Halted s t ∨ (CallRel s t ∧ (s.sess = .idle ∨ s.sess = .ready)) ∨ Closed s t

theorem entryRefusal_cases (p : Sess → Bool) (s : State) :
    (∃ r, entryRefusal p s = some r) ∨ (entryRefusal p s = none ∧ p s.sess = true) := by
  cases hh : entryRefusal p s with
  | some r => exact .inl ⟨r, rfl⟩
  | none =>
    refine .inr ⟨rfl, ?_⟩
    unfold entryRefusal at hh
    split at hh
    · simp at hh
    · split at hh
      · rename_i h1; exact h1.2.2
      · simp at hh

/-- From a state that meets the invariant a host call is refused, or answers a next state that meets it. -/
theorem callEntry_spec {s : State} (h : RunInv s) (hq : s.seq = .idle) (c : HostCall) :
    (∃ r, callEntry c s = .refused r) ∨ ∃ t, callEntry c s = .next t ∧ RunInv t ∧ CallEnd s t := by
  have hp := h.phase
  simp only [PhaseInv, hq] at hp
  cases c with
  | init =>
    rcases entryRefusal_cases Sess.admitsInit s with ⟨r, hr⟩ | ⟨hr, hs⟩
    · left; exact ⟨r, by simp [callEntry, execInit, hr]⟩
    · right
      have hs : s.sess = .idle := by cases hx : s.sess <;> simp [hx, Sess.admitsInit] at hs ⊢
      obtain ⟨hp, ha⟩ := hp (.inl hs)
      have hi : RunInv (s.setSeq .handshake) := ⟨h.cfg_wf, h.img_wf, h.no_invariant_fault, ⟨hs, hp, by simp [ha]⟩⟩
      obtain ⟨t, h1, h2, h3⟩ := drive_spec hi (by simp) (callFuel s.cfg)
      refine ⟨t, by simp only [callEntry, execInit, hr]; exact h1, h2, .inr (.inr (.inl ⟨?_, .inl hs⟩))⟩
      exact Going.trans (t := s.setSeq .handshake) ⟨⟨rfl, rfl, [], by simp, by simp⟩, rfl, rfl, by simp⟩ h3
  | pageWrite a n =>
    rcases entryRefusal_cases Sess.admitsPageWrite s with ⟨r, hr⟩ | ⟨hr, hs⟩
    · left; exact ⟨r, by simp [callEntry, execPageWrite, hr]⟩
    · have hs : s.sess = .ready := by cases hx : s.sess <;> simp [hx, Sess.admitsPageWrite] at hs ⊢
      by_cases hm : accessorMatches s = true
      · have hm' := hm
        simp only [accessorMatches, Bool.and_eq_true, decide_eq_true_eq] at hm'
        have e : callEntry (.pageWrite a n) s = andThen (guardPhase a n (requested a n s)) runCall := by
          simp only [callEntry, execPageWrite, hr, hm, if_true]; rfl
        rw [e]
        rcases pageWrite_entry h hq hs hm'.1 hm'.2 a n with ⟨r, h1⟩ | ⟨t, h1, h2, h3 | h3 | h3⟩
        · left; exact ⟨r, by rw [h1]; rfl⟩
        · right
          obtain ⟨r, hr⟩ := h3
          have : t.seq = .idle := by rw [hr]; exact hq
          exact ⟨t, by rw [h1]; exact runCall_idle this, h2, .inl ⟨r, hr⟩⟩
        · right
          exact ⟨t, by rw [h1]; exact runCall_idle h3.2.2.2.2.2.2.1, h2, .inr (.inl h3)⟩
        · right
          obtain ⟨u, g1, g2, g3⟩ := drive_spec h2 h3.2.2.2 (callFuel t.cfg)
          exact ⟨u, by rw [h1]; exact g1, g2, .inr (.inr (.inl ⟨Going.trans h3 g3, .inr hs⟩))⟩
      · left; exact ⟨.accessorSizes, by simp [callEntry, execPageWrite, hr, hm]⟩
  | close =>
    rcases entryRefusal_cases Sess.admitsClose s with ⟨r, hr⟩ | ⟨hr, hs⟩
    · left; exact ⟨r, by simp [callEntry, execClose, hr]⟩
    · right
      refine ⟨_, by simp only [callEntry, execClose, hr]; rfl, ?_, .inr (.inr (.inr ⟨?_, ?_⟩))⟩
      · exact h.of_dead rfl rfl (.inl rfl) rfl ⟨by simp [closePhase, finish_eq], by simp [closePhase, finish_eq]⟩
      · simp [closePhase, finish_eq, hq, State.setSess, State.emit, State.setSeq]
      · cases hx : s.sess <;> simp [hx, Sess.admitsClose] at hs ⊢

/-- Taking an input from the inbox does not matter to the invariant. -/
theorem RunInv.setInbox {s : State} (h : RunInv s) (r : List HostInput) : RunInv (s.setInbox r) :=
  ⟨h.cfg_wf, h.img_wf, h.no_invariant_fault, h.phase⟩

/-- A running call is of a session that is not dead. -/
theorem RunInv.sess_of_running {s : State} (h : RunInv s) (hq : s.seq ≠ .idle) : s.sess = .idle ∨ s.sess = .ready := by
  have := h.phase
  simp only [PhaseInv] at this
  cases hx : s.seq <;> simp only [hx] at this hq
  · exact absurd rfl hq
  · exact .inl this.1
  all_goals exact .inr this.1.1

end Sys2Proof.Machine
end

