-- ==== Sys2Proof/Laws/Mirror.lean ====
section
/-! SUPPORT. The channel and the sequencer do not read the image: they commute with a change of it.
And a run from a state that differs only in image bytes at or above a bound mirrors the run from the other (R58, R64). -/

namespace Sys2Proof.Machine

theorem receiveAck_setImg (im : Image) (b : Byte) (s : State) : receiveAck b (s.setImg im) = (receiveAck b s).setImg im := by
  by_cases h : s.ackpend.val = 0
  · rw [receiveAck_assert h, receiveAck_assert (s := s.setImg im) h]; rfl
  · by_cases hb : b = 0#8
    · subst hb; rw [receiveAck_success h, receiveAck_success (s := s.setImg im) h]; rfl
    · rw [receiveAck_violation h hb, receiveAck_violation (s := s.setImg im) h hb]; rfl

theorem reconcileFrom_setImg (im : Image) (l : List RxAnswer) (s : State) :
    reconcileFrom l (s.setImg im) = (reconcileFrom l s).setImg im := by
  induction l generalizing s with
  | nil => rfl
  | cons a rest ih =>
    by_cases h : s.ackpend.val = 0
    · rw [reconcileFrom_done h, reconcileFrom_done (s := s.setImg im) h]; rfl
    · cases a with
      | fail => rw [reconcileFrom_cons_fail h, reconcileFrom_cons_fail (s := s.setImg im) h]; rfl
      | byte b =>
        by_cases hb : b = 0#8
        · subst hb
          rw [reconcileFrom_cons_success h, reconcileFrom_cons_success (s := s.setImg im) h, receiveAck_setImg]
          exact ih _
        · rw [reconcileFrom_cons_violation h hb, reconcileFrom_cons_violation (s := s.setImg im) h hb, receiveAck_setImg]; rfl

theorem transmit_setImg (im : Image) (bytes : List Byte) (k : Fin 9) (s : State) :
    transmit bytes k (s.setImg im) = (transmit bytes k s).setImg im := by
  cases h : txAnswer s.link with
  | ok =>
    rw [transmit_ok h, transmit_ok (s := s.setImg im) h]
    exact reconcileFrom_setImg im _ ((txCall bytes s).setAckpend k)
  | fail => rw [transmit_fail h, transmit_fail (s := s.setImg im) h]; rfl

theorem submit_setImg (im : Image) (f : Frame) (s : State) : submit f (s.setImg im) = (submit f s).setImg im := by
  by_cases h : s.ackpend.val = 0 ∧ s.pcnt.val < 8
  · by_cases h7 : s.pcnt.val = 7
    · rw [submit_full h.1 h7, submit_full (s := s.setImg im) h.1 h7]
      exact transmit_setImg im _ _ (enqueue f s h.2)
    · rw [submit_below h.1 (by omega), submit_below (s := s.setImg im) h.1 (by rw [setImg_pcnt]; omega)]; rfl
  · rw [submit_assert h, submit_assert (s := s.setImg im) h]; rfl

theorem flush_setImg (im : Image) (s : State) : flush (s.setImg im) = (flush s).setImg im := by
  by_cases h : s.ackpend.val = 0
  · by_cases hp : s.pcnt.val = 0
    · rw [flush_empty h hp, flush_empty (s := s.setImg im) h hp]
    · rw [flush_some h hp, flush_some (s := s.setImg im) h hp]; exact transmit_setImg im _ _ s
  · rw [flush_assert h, flush_assert (s := s.setImg im) h]; rfl

theorem sendUnbuffered_setImg (im : Image) (f : Frame) (s : State) :
    sendUnbuffered f (s.setImg im) = (sendUnbuffered f s).setImg im := by
  by_cases h : s.pcnt.val = 0 ∧ s.ackpend.val = 0
  · rw [sendUnbuffered_empty h.1 h.2, sendUnbuffered_empty (s := s.setImg im) h.1 h.2]; exact transmit_setImg im _ _ s
  · rw [sendUnbuffered_assert h, sendUnbuffered_assert (s := s.setImg im) h]; rfl

theorem advance_setImg (im : Image) (s : State) : advance (s.setImg im) = (advance s).setImg im := by
  unfold advance
  rw [setImg_seq]
  cases s.seq <;> simp only <;> try rfl
  · unfold advanceFill
    rw [setImg_pw, setImg_cfg]
    cases s.pw.half <;> simp only
    · rfl
    · by_cases h : s.pw.idx.toNat + 1 < s.cfg.pageSize / 2
      · simp only [if_pos h]; rfl
      · simp only [if_neg h]; rfl
  · unfold advanceWrite
    rw [setImg_pw]
    cases s.pw.pass <;> rfl

theorem settle_setImg (im : Image) (q : Seq) (s : State) : settle q (s.setImg im) = (settle q s).setImg im := by
  have hf : (s.setImg im).faulted = s.faulted := rfl
  unfold settle
  rw [setImg_seq, setImg_ackpend, hf]
  by_cases h : s.seq = q ∧ s.ackpend.val = 0 ∧ s.faulted = false
  · simp only [if_pos h]; exact advance_setImg im s
  · simp only [if_neg h]

/-- The state with other image bytes. -/
def withMem (m : Memory) (s : State) : State := s.setImg { s.img with mem := m }
/-- Two canonical memories that read the same below a bound. -/
def EqBelow (b : Nat) (m n : Memory) : Prop := (∀ a, a < b → memRead n a = memRead m a) ∧ Memory.wf m = true ∧ Memory.wf n = true

theorem EqBelow.write {b : Nat} {m n : Memory} (h : EqBelow b m n) (a : Nat) (v : Byte) : EqBelow b (memWrite m a v) (memWrite n a v) := by
  obtain ⟨h1, h2, h3⟩ := h
  refine ⟨fun x hx => ?_, memWrite_wf h2 _ _, memWrite_wf h3 _ _⟩
  rw [memRead_memWrite_of_wf h2, memRead_memWrite_of_wf h3, h1 x hx]

/-- The second outcome is the first but for image bytes at or above the bound. -/
def Mirrors (b : Nat) (o o' : Host.Outcome State Fault Refusal) : Prop :=
  ∀ t, o = .next t → ∃ m, o' = .next (withMem m t) ∧ EqBelow b t.img.mem m


theorem imgWrite_mirror {b : Nat} {m : Memory} {s : State} (h : EqBelow b s.img.mem m) (a : Nat) (v : Byte) : Mirrors b (imgWrite a v s) (imgWrite a v (withMem m s)) := by
  intro t ht
  unfold imgWrite at ht ⊢
  split at ht
  · rename_i hs
    simp at ht; subst ht
    refine ⟨memWrite m a v, ?_, h.write a v⟩
    rw [if_pos (by exact hs)]; rfl
  · simp at ht

theorem Mirrors.andThen {b : Nat} {o o' : Host.Outcome State Fault Refusal} {f f' : State → Host.Outcome State Fault Refusal} (h : Mirrors b o o')
    (g : ∀ t m, EqBelow b t.img.mem m → Mirrors b (f t) (f' (withMem m t))) : Mirrors b (andThen o f) (andThen o' f') := by
  intro u hu
  obtain ⟨t, h1, h2⟩ := andThen_eq_next.1 hu
  obtain ⟨m, h3, h4⟩ := h t h1
  rw [h3]
  exact g t m h4 u h2

theorem imgWriteWord_mirror {b : Nat} {m : Memory} {s : State} (h : EqBelow b s.img.mem m) (a : Nat) (v : Word) :
    Mirrors b (imgWriteWord a v s) (imgWriteWord a v (withMem m s)) :=
  Mirrors.andThen (imgWrite_mirror h _ _) (fun _ _ h => imgWrite_mirror h _ _)

theorem Mirrors.next {b : Nat} {m : Memory} {t : State} (h : EqBelow b t.img.mem m) : Mirrors b (.next t) (.next (withMem m t)) := by
  intro u hu; simp at hu; subst hu; exact ⟨m, rfl, h⟩

theorem redirect_mirror {b : Nat} {m : Memory} {s : State} (hb : 2 ≤ b) (h : EqBelow b s.img.mem m) :
    Mirrors b (redirectPhase s) (redirectPhase (withMem m s)) := by
  have e : imgWord (withMem m s) 0 = imgWord s 0 := by
    have a0 : memRead m 0 = memRead s.img.mem 0 := h.1 0 (by omega)
    have a1 : memRead m 1 = memRead s.img.mem 1 := h.1 1 (by omega)
    simp only [imgWord, imgRead, withMem, setImg_img, a0, a1]
  unfold redirectPhase
  rw [e]
  cases imgWord s 0 with
  | none => intro t ht; simp at ht
  | some orig =>
    simp only
    split
    · refine Mirrors.andThen ?_ (fun t n hn => Mirrors.next (t := startPass t.cfg.resvPage .resv t) hn)
      refine Mirrors.andThen (imgWriteWord_mirror (s := s.setPw { s.pw with orig := orig }) h _ _) (fun t n hn => ?_)
      exact imgWriteWord_mirror hn _ _
    · exact Mirrors.next (t := raisePolicy (.badResetVector orig) (s.setPw { s.pw with orig := orig })) h

theorem guard_mirror {b : Nat} {m : Memory} {s : State} (hb : 2 ≤ b) (h : EqBelow b s.img.mem m) (a n : Nat) :
    Mirrors b (guardPhase a n s) (guardPhase a n (withMem m s)) := by
  have ht : (withMem m s).img.tag = s.img.tag := rfl
  have hc : (withMem m s).cfg = s.cfg := rfl
  unfold guardPhase
  rw [ht, hc]
  split
  · exact Mirrors.next (t := finish .unsupported s) h
  · split
    · exact Mirrors.next (t := raisePolicy _ s) h
    · split
      · exact Mirrors.next (t := finish _ s) h
      · split
        · intro t ht; simp at ht
        · split
          · exact redirect_mirror hb (s := s.setSeq .redirect) h
          · exact Mirrors.next (t := startPass a .main s) h

theorem submit_img (f : Frame) (s : State) : (submit f s).img = s.img := by
  by_cases h : s.ackpend.val = 0 ∧ s.pcnt.val < 8
  · rcases submit_result h.1 h.2 f with g | ⟨u, c, e, g, _, _, g'⟩
    · rw [g.frame]
    · rw [g', g.frame]; rfl
  · rw [submit_assert h]; rfl

/-- A state change that commutes with a change of the image and does not touch the image. -/
theorem Mirrors.of_commutes {b : Nat} {m : Memory} {s : State} (h : EqBelow b s.img.mem m) (f : State → State)
    (hc : ∀ im, f (s.setImg im) = (f s).setImg im) : Mirrors b (.next (f s)) (.next (f (withMem m s))) := by
  have hi : (f s).img = s.img := by
    have := hc s.img
    rw [show s.setImg s.img = s from rfl] at this
    rw [this]; rfl
  have e : f (withMem m s) = withMem m (f s) := by rw [withMem, hc, withMem, hi]
  rw [e]; exact Mirrors.next (by rw [hi]; exact h)

/-- The fill loop's frame, its word below the bound. -/
theorem fill_mirror {b : Nat} {m : Memory} {s : State} (hw : wordAddress s + 1 < b) (h : EqBelow b s.img.mem m) :
    Mirrors b (fillPhase s) (fillPhase (withMem m s)) := by
  have e : loadPayload (withMem m s) = loadPayload s := by
    have hw' : wordAddress (withMem m s) = wordAddress s := rfl
    have a0 : memRead m (wordAddress s) = memRead s.img.mem (wordAddress s) := h.1 _ (by omega)
    have a1 : memRead m (wordAddress s + 1) = memRead s.img.mem (wordAddress s + 1) := h.1 _ (by omega)
    simp only [loadPayload, imgRead, hw']
    simp only [withMem, setImg_img, a0, a1]
  unfold fillPhase
  rw [e, show (withMem m s).pw = s.pw from rfl, show fillPayload (withMem m s) = fillPayload s from rfl]
  split
  · split
    · exact Mirrors.of_commutes h (submit (frameLoad _ _)) (fun im => submit_setImg im _ s)
    · intro t ht; simp at ht
  · exact Mirrors.of_commutes h (submit (frameFill _)) (fun im => submit_setImg im _ s)

/-- A page that may be transmitted ends at most at R + 2 (R58). -/
theorem PageInv.word_below {s : State} (hc : s.cfg.wf = true) (hp : PageInv s) (hx : s.pw.idx.toNat < s.cfg.pageSize / 2) :
    wordAddress s + 1 < s.cfg.reservedStart + 2 := by
  have hsz := Cfg.wf_sizes hc
  obtain ⟨-, -, -, -, -, -, p7⟩ := hp
  rw [wordAddress]
  cases hps : s.pw.pass <;> rw [hps] at p7 <;> simp only at p7 <;> omega

/-- An inner step reads no bootloader byte (R58, R64). -/
theorem innerStep_mirror {m : Memory} {s : State} (h : RunInv s) (hq : s.seq ≠ .idle)
    (hm : EqBelow (s.cfg.reservedStart + 2) s.img.mem m) :
    Mirrors (s.cfg.reservedStart + 2) (innerStep s) (innerStep (withMem m s)) := by
  have hp := h.phase
  simp only [PhaseInv] at hp
  unfold innerStep
  rw [show (withMem m s).ackpend = s.ackpend from rfl, show (withMem m s).link = s.link from rfl]
  by_cases ha : s.ackpend.val = 0
  · simp only [if_pos ha]
    refine Mirrors.andThen ?_ (fun t n hn => ?_)
    · unfold seqPhase
      rw [show (withMem m s).seq = s.seq from rfl, show (withMem m s).cfg = s.cfg from rfl,
        show (withMem m s).pw = s.pw from rfl]
      cases hs : s.seq <;> simp only [hs] at hp
      · exact absurd hs hq
      · cases s.cfg.handshake
        · exact Mirrors.of_commutes hm (sendUnbuffered frameHandshake) (fun im => sendUnbuffered_setImg im _ s)
        · exact Mirrors.of_commutes hm (fun s => reconcile (s.setAckpend 1))
            (fun im => reconcileFrom_setImg im _ (s.setAckpend 1))
      · exact fill_mirror (hp.1.word_below h.cfg_wf hp.2.1) hm
      · exact Mirrors.of_commutes hm flush (fun im => flush_setImg im s)
      · exact Mirrors.of_commutes hm (sendUnbuffered _) (fun im => sendUnbuffered_setImg im _ s)
      · exact Mirrors.of_commutes hm (sendUnbuffered _) (fun im => sendUnbuffered_setImg im _ s)
    · exact Mirrors.of_commutes hn (settle s.seq) (fun im => settle_setImg im _ t)
  · simp only [if_neg ha]
    cases s.link.rxAnswers with
    | nil => exact Mirrors.next hm
    | cons a rest =>
      cases a with
      | fail => exact Mirrors.of_commutes hm (fun s => receiveFail (setRx rest s)) (fun im => rfl)
      | byte b =>
        simp only
        cases decodeAck b with
        | success =>
          exact Mirrors.of_commutes hm (fun u => settle s.seq (receiveAck 0x00#8 (setRx rest u)))
            (fun im => by
              show settle s.seq (receiveAck 0x00#8 ((setRx rest s).setImg im)) = _
              rw [receiveAck_setImg, settle_setImg])
        | protocolViolation v =>
          exact Mirrors.of_commutes hm (fun u => settle s.seq (receiveAck v (setRx rest u)))
            (fun im => by
              show settle s.seq (receiveAck v ((setRx rest s).setImg im)) = _
              rw [receiveAck_setImg, settle_setImg])

/-- Nor does the whole run of a call. -/
theorem drive_mirror (n : Nat) {m : Memory} {s : State} (h : RunInv s) (hm : EqBelow (s.cfg.reservedStart + 2) s.img.mem m) :
    Mirrors (s.cfg.reservedStart + 2) (drive n s) (drive n (withMem m s)) := by
  induction n generalizing s m with
  | zero => exact Mirrors.next hm
  | succ n ih =>
    unfold drive
    rw [show runnable (withMem m s) = runnable s from rfl]
    by_cases hr : runnable s = true
    · simp only [if_pos hr]
      have hq : s.seq ≠ .idle := by simp only [runnable, Bool.and_eq_true, decide_eq_true_eq] at hr; exact hr.1.1
      intro u hu
      obtain ⟨t, h1, h2⟩ := andThen_eq_next.1 hu
      obtain ⟨k, h3, h4⟩ := innerStep_mirror h hq hm t h1
      rw [h3, andThen_next]
      obtain ⟨v, g1, g2, -⟩ := innerStep_spec h hq
      have hc := (leads_innerStep s t h1).cfg
      rw [g1] at h1
      simp only [Host.Outcome.next.injEq] at h1
      subst h1
      have := ih g2 (by rw [hc]; exact h4) u h2
      rwa [hc] at this
    · simp only [if_neg hr]; exact Mirrors.next hm

/-- Nor does a host call. -/
theorem callEntry_mirror {m : Memory} {s : State} (h : RunInv s) (hq : s.seq = .idle)
    (hm : EqBelow (s.cfg.reservedStart + 2) s.img.mem m) (c : HostCall) :
    Mirrors (s.cfg.reservedStart + 2) (callEntry c s) (callEntry c (withMem m s)) := by
  have hp := h.phase
  simp only [PhaseInv, hq] at hp
  have href : ∀ p, entryRefusal p (withMem m s) = entryRefusal p s := fun p => rfl
  cases c with
  | init =>
    simp only [callEntry, execInit, href]
    rcases entryRefusal_cases Sess.admitsInit s with ⟨r, hr⟩ | ⟨hr, hs⟩
    · rw [hr]; intro t ht; simp at ht
    · rw [hr]
      have hs : s.sess = .idle := by cases hx : s.sess <;> simp [hx, Sess.admitsInit] at hs ⊢
      obtain ⟨hp, ha⟩ := hp (.inl hs)
      have hi : RunInv (s.setSeq .handshake) := ⟨h.cfg_wf, h.img_wf, h.no_invariant_fault, ⟨hs, hp, by simp [ha]⟩⟩
      exact drive_mirror _ hi hm
  | pageWrite a n =>
    simp only [callEntry, execPageWrite, href]
    rcases entryRefusal_cases Sess.admitsPageWrite s with ⟨r, hr⟩ | ⟨hr, hs⟩
    · rw [hr]; intro t ht; simp at ht
    · rw [hr]
      have hs : s.sess = .ready := by cases hx : s.sess <;> simp [hx, Sess.admitsPageWrite] at hs ⊢
      simp only
      rw [show accessorMatches (withMem m s) = accessorMatches s from rfl]
      by_cases hmm : accessorMatches s = true
      · simp only [if_pos hmm]
        simp only [accessorMatches, Bool.and_eq_true, decide_eq_true_eq] at hmm
        have hg := guard_mirror (b := s.cfg.reservedStart + 2) (s := requested a n s) (by omega) hm a n
        intro t ht
        obtain ⟨u, h1, h2⟩ := andThen_eq_next.1 ht
        obtain ⟨k, h3, h4⟩ := hg u h1
        have h3' : guardPhase a n ((latchRequest a n (withMem m s)).setSeq .guard) = .next (withMem k u) := h3
        rw [h3', andThen_next]
        have h1' : guardPhase a n (requested a n s) = .next u := h1
        rcases pageWrite_entry h hq hs hmm.1 hmm.2 a n with ⟨r, g⟩ | ⟨v, g1, g2, -⟩
        · rw [h1'] at g; simp at g
        · rw [h1'] at g1; simp only [Host.Outcome.next.injEq] at g1; subst g1
          have hc : u.cfg = s.cfg := (leads_guardPhase a n _ u h1').cfg
          rw [runCall] at h2 ⊢
          have hcw : (withMem k u).cfg = u.cfg := rfl
          rw [hcw]
          obtain ⟨k2, a1, a2⟩ := drive_mirror (callFuel u.cfg) g2 (m := k) (by rw [hc]; exact h4) t h2
          refine ⟨k2, a1, ?_⟩
          rw [← hc]; exact a2
      · simp only [if_neg hmm]; intro t ht; simp at ht
  | close =>
    simp only [callEntry, execClose, href]
    rcases entryRefusal_cases Sess.admitsClose s with ⟨r, hr⟩ | ⟨hr, hs⟩
    · rw [hr]; intro t ht; simp at ht
    · rw [hr]; exact Mirrors.next (t := closePhase (s.setSeq .close)) hm

end Sys2Proof.Machine
end

