-- ==== Sys2Proof/Laws/Pass.lean ====
section
/-! SUPPORT. The run of a page pass: what it never touches, and where it ends when every answer is a success (R160 to R164). -/

namespace Sys2Proof.Machine

/-! What a pass never touches. -/

/-- The image and PW_ORIG are the same. -/
def Keeps (s t : State) : Prop := t.img = s.img ∧ t.pw.orig = s.pw.orig

theorem Keeps.trans {s t u : State} (h : Keeps s t) (g : Keeps t u) : Keeps s u := ⟨g.1.trans h.1, g.2.trans h.2⟩

theorem Quiet.keeps {s t : State} (h : Quiet s t) : Keeps s t := by rw [h.frame]; exact ⟨rfl, rfl⟩

theorem Raised.keeps {s t : State} (h : Raised s t) : Keeps s t := by
  obtain ⟨u, c, e, hu, -, -, ht⟩ := h; rw [ht]; have := Quiet.keeps hu; exact this

theorem LinkResult.keeps {s t : State} (h : LinkResult s t) : Keeps s t := h.elim Quiet.keeps Raised.keeps

theorem advance_keeps (s : State) : Keeps s (advance s) := by
  unfold advance
  split <;> (try exact ⟨rfl, rfl⟩)
  · unfold advanceFill; split <;> (try split) <;> exact ⟨rfl, rfl⟩
  · unfold advanceWrite; split <;> exact ⟨rfl, rfl⟩

theorem settle_keeps (q : Seq) (s : State) : Keeps s (settle q s) := by
  unfold settle; split
  · exact advance_keeps s
  · exact ⟨rfl, rfl⟩

theorem submit_keeps (f : Frame) (s : State) : Keeps s (submit f s) := by
  by_cases h : s.ackpend.val = 0 ∧ s.pcnt.val < 8
  · exact LinkResult.keeps (submit_result h.1 h.2 f)
  · rw [submit_assert h]; exact ⟨rfl, rfl⟩

theorem flush_keeps (s : State) : Keeps s (flush s) := by
  by_cases h : s.ackpend.val = 0
  · exact LinkResult.keeps (flush_result h)
  · rw [flush_assert h]; exact ⟨rfl, rfl⟩

theorem send_keeps (f : Frame) (s : State) : Keeps s (sendUnbuffered f s) := by
  by_cases h : s.pcnt.val = 0 ∧ s.ackpend.val = 0
  · rw [sendUnbuffered_empty h.1 h.2]; exact LinkResult.keeps (transmit_result _ _ _)
  · rw [sendUnbuffered_assert h]; exact ⟨rfl, rfl⟩

theorem ack_keeps (b : Byte) (s : State) : Keeps s (receiveAck b s) := by
  by_cases h : s.ackpend.val = 0
  · simp only [receiveAck, if_pos h]; exact ⟨rfl, rfl⟩
  · by_cases hb : b = 0#8
    · subst hb; exact Quiet.keeps (receiveAck_success_quiet h)
    · exact Raised.keeps (receiveAck_violation_raised h hb)

/-- Past the guards and the redirection an inner step touches neither. -/
theorem inner_keeps {s t : State} (hs : s.seq ≠ .guard ∧ s.seq ≠ .redirect) (h : innerStep s = .next t) : Keeps s t := by
  have : Leads (Keeps s) (innerStep s) := by
    have hx : ∀ r, Keeps s (setRx r s) := fun r => ⟨rfl, rfl⟩
    unfold innerStep; split
    · refine Leads.andThen (P := Keeps s) ?_ (fun t ht => Leads.next (ht.trans (settle_keeps _ _)))
      unfold seqPhase
      split <;> try exact Leads.next ⟨rfl, rfl⟩
      · split
        · exact Leads.next (send_keeps _ _)
        · exact Leads.next (Keeps.trans (t := s.setAckpend 1) ⟨rfl, rfl⟩ (LinkResult.keeps (reconcileFrom_result _ _)))
      · rename_i h; exact absurd h hs.1
      · rename_i h; exact absurd h hs.2
      · unfold fillPhase; split
        · split
          · exact Leads.next (submit_keeps _ _)
          · intro t h; simp at h
        · exact Leads.next (submit_keeps _ _)
      · exact Leads.next (flush_keeps s)
      · exact Leads.next (send_keeps _ _)
      · exact Leads.next (send_keeps _ _)
    · split
      · exact Leads.next ⟨rfl, rfl⟩
      · exact Leads.next ((hx _).trans (Raised.keeps (receiveFail_raised _)))
      · split
        · exact Leads.next ((hx _).trans ((ack_keeps _ _).trans (settle_keeps _ _)))
        · exact Leads.next ((hx _).trans ((ack_keeps _ _).trans (settle_keeps _ _)))
  exact this t h


/-- Nor does the run of a call. -/
theorem drive_keepsImage {n : Nat} {s t : State} (hi : RunInv s) (h : drive n s = .next t) : Keeps s t := by
  induction n generalizing s with
  | zero => simp [drive] at h; subst h; exact ⟨rfl, rfl⟩
  | succ n ih =>
    simp only [drive] at h
    split at h
    · obtain ⟨u, h1, h2⟩ := andThen_eq_next.1 h
      have hq : s.seq ≠ .idle := by rename_i hr; simp [runnable] at hr; exact hr.1.1
      obtain ⟨v, g1, g2, -⟩ := innerStep_spec hi hq
      rw [g1] at h1; simp at h1; subst h1
      refine Keeps.trans (inner_keeps ?_ g1) (ih g2 h2)
      have := hi.phase
      simp only [PhaseInv] at this
      constructor <;> intro e <;> rw [e] at this <;> exact this
    · simp at h; subst h; exact ⟨rfl, rfl⟩

/-! The frames of a fill, numbered. -/

/-- Frame number `j` of the fill of the page at `base` (R160). -/
def frameAt (read : Nat → Byte) (base j : Nat) : Frame :=
  if j % 2 = 0 then frameLoad (read (base + 2 * (j / 2))) (read (base + 2 * (j / 2) + 1))
  else frameFill (BitVec.ofNat 16 (2 * (j / 2)))

/-- The fill of a page, frame by frame. -/
theorem fillFrames_eq (read : Nat → Byte) (base : Nat) {size : Nat} (h : size % 2 = 0) :
    fillFrames read base size = (List.range size).map (frameAt read base) := by
  obtain ⟨n, rfl⟩ : ∃ n, size = 2 * n := ⟨size / 2, by omega⟩
  have hn : 2 * n / 2 = n := by omega
  simp only [fillFrames, hn]
  clear h hn
  induction n with
  | zero => rfl
  | succ n ih =>
    have h1 : (2 * n + 1) % 2 = 1 := by omega
    have h2 : (2 * n + 1) / 2 = n := by omega
    rw [List.range_succ, List.flatMap_append, ih, show 2 * (n + 1) = 2 * n + 1 + 1 by omega, List.range_succ, List.range_succ]
    simp [wordFrames, frameAt, h1, h2]

theorem fillFrames_length (read : Nat → Byte) (base : Nat) {size : Nat} (h : size % 2 = 0) :
    (fillFrames read base size).length = size := by
  rw [fillFrames_eq read base h]; simp

theorem fillFrames_getElem? (read : Nat → Byte) (base : Nat) {size j : Nat} (h : size % 2 = 0) (hj : j < size) :
    (fillFrames read base size)[j]? = some (frameAt read base j) := by
  rw [fillFrames_eq read base h]; simp [hj]

/-! Runs. -/

/-- `n` inner steps lead from `s` to `t`. -/
def RunsTo (n : Nat) (s t : State) : Prop := ∀ m, drive (n + m) s = drive m t

theorem RunsTo.refl (s : State) : RunsTo 0 s s := fun m => by rw [Nat.zero_add]

theorem RunsTo.trans {n k : Nat} {s t u : State} (h : RunsTo n s t) (g : RunsTo k t u) : RunsTo (n + k) s u := by
  intro m; rw [Nat.add_assoc, h, g]

/-- An inner step of a call that has no acknowledgement outstanding. -/
theorem RunsTo.step {s t : State} (hq : s.seq ≠ .idle) (hf : s.faulted = false) (ha : s.ackpend.val = 0)
    (h : innerStep s = .next t) : RunsTo 1 s t := by
  intro m
  rw [Nat.add_comm]
  have : runnable s = true := by simp [runnable, blocked, hq, hf, ha]
  simp [drive, this, h]

/-- A run that has come to the end of the call. -/
theorem RunsTo.drive {n k : Nat} {s t : State} (h : RunsTo n s t) (ht : t.seq = .idle) (hk : n ≤ k) : drive k s = .next t := by
  obtain ⟨m, rfl⟩ := Nat.exists_eq_add_of_le hk
  rw [h, drive_idle _ _ ht]

/-- An inner step with no acknowledgement outstanding, whose work ends with none outstanding either: SEQ moves on. -/
theorem innerStep_advance {s t : State} (ha : s.ackpend.val = 0) (h : seqPhase s = .next t)
    (hq : t.seq = s.seq) (hb : t.ackpend.val = 0) (hf : t.faulted = false) : innerStep s = .next (advance t) := by
  rw [innerStep, if_pos ha, h, andThen_next, settle, if_pos ⟨hq, hb, hf⟩]

/-! The fill. -/

/-- The events of the first `n` full batches of a fill. -/
def fullBatches (fs : List Frame) (n : Nat) : List Event :=
  (List.range n).flatMap (fun b => batchEvents ((fs.drop (8 * b)).take 8))

theorem fullBatches_succ (fs : List Frame) (n : Nat) :
    fullBatches fs (n + 1) = fullBatches fs n ++ batchEvents ((fs.drop (8 * n)).take 8) := by
  simp [fullBatches, List.range_succ]

/-- The transport with `t` accepted sends and `r` successes ahead of what is left. -/
def goodLink (t r : Nat) (txs : List TxAnswer) (rxs : List RxAnswer) (d : Nat) : Link :=
  ⟨List.replicate t .ok ++ txs, List.replicate r (.byte 0#8) ++ rxs, d⟩

theorem goodLink_tx (t r : Nat) (txs : List TxAnswer) (rxs : List RxAnswer) (d : Nat) :
    txAnswer (goodLink (t + 1) r txs rxs d) = .ok := rfl

theorem goodLink_taken (t r : Nat) (txs : List TxAnswer) (rxs : List RxAnswer) (d : Nat) :
    txTaken (goodLink (t + 1) r txs rxs d) = goodLink t r txs rxs d := rfl

theorem goodLink_rx (t r k : Nat) (txs : List TxAnswer) (rxs : List RxAnswer) (d : Nat) :
    (goodLink t (r + k) txs rxs d).rxAnswers = List.replicate k (.byte 0#8) ++ (List.replicate r (.byte 0#8) ++ rxs) := by
  simp only [goodLink]
  rw [← List.append_assoc, List.replicate_append_replicate, Nat.add_comm]

/-- Two states that differ in the channel, the page registers, the transport and the events only. -/
structure Same (s u : State) : Prop where
  cfg : u.cfg = s.cfg
  sess : u.sess = s.sess
  seq : u.seq = s.seq
  ackpend : u.ackpend = s.ackpend
  faults : u.faults = s.faults
  img : u.img = s.img
  inbox : u.inbox = s.inbox
  results : u.results = s.results

theorem Same.eq {s u : State} (h : Same s u) :
    u = { s with pbuf := u.pbuf, pcnt := u.pcnt, pw := u.pw, link := u.link, events := u.events } := by
  obtain ⟨h1, h2, h3, h4, h5, h6, h7, h8⟩ := h
  cases u
  simp only at h1 h2 h3 h4 h5 h6 h7 h8
  subst h1 h2 h3 h4 h5 h6 h7 h8
  rfl

/-- The channel after `j` frames of a fill `fs` whose every answer was a success, `s` being the state at its start with `goodLink (T + j / 8) (X + 8 * (j / 8))`. -/
structure Filled (fs : List Frame) (txs : List TxAnswer) (rxs : List RxAnswer) (T X : Nat) (s : State) (j : Nat) (u : State) : Prop where
  same : Same s u
  pcnt : u.pcnt.val = j % 8
  queue : queued u = (fs.take j).drop (8 * (j / 8))
  link : u.link = goodLink (T - j / 8) (X - 8 * (j / 8)) txs rxs s.link.txDraws
  events : u.events = s.events ++ fullBatches fs (j / 8)

theorem drop_take_eight (fs : List Frame) {j : Nat} (h : j % 8 = 7) {f : Frame} (hf : fs[j]? = some f) :
    (fs.take j).drop (8 * (j / 8)) ++ [f] = (fs.drop (8 * (j / 8))).take 8 := by
  obtain ⟨hj, hf⟩ := List.getElem?_eq_some_iff.1 hf
  rw [← List.drop_append_of_le_length (by simp; omega), ← hf, List.take_append_getElem,
    List.drop_take]
  congr 1; omega

/-- One more frame submitted. -/
theorem Filled.submit {fs : List Frame} {txs : List TxAnswer} {rxs : List RxAnswer} {T X : Nat} {s u : State} {j : Nat} {f : Frame}
    (h : Filled fs txs rxs T X s j u) (ha : s.ackpend.val = 0) (hf : fs[j]? = some f)
    (hT : (j + 1) / 8 ≤ T) (hX : 8 * ((j + 1) / 8) ≤ X) :
    Filled fs txs rxs T X s (j + 1) (submit f u) ∧ (submit f u).pw = u.pw := by
  have hua : u.ackpend.val = 0 := by rw [h.same.ackpend]; exact ha
  obtain ⟨hj, hf'⟩ := List.getElem?_eq_some_iff.1 hf
  have hpc := h.pcnt
  by_cases h7 : j % 8 = 7
  · have h8 : (enqueue f u (by omega)).pcnt.val = 8 := by simp only [enqueue, setPcnt_pcnt]; omega
    have e : (j + 1) / 8 = j / 8 + 1 := by omega
    obtain ⟨T', hT'⟩ : ∃ T', T - j / 8 = T' + 1 := ⟨T - j / 8 - 1, by omega⟩
    obtain ⟨X', hX'⟩ : ∃ X', X - 8 * (j / 8) = X' + 8 := ⟨X - 8 * (j / 8) - 8, by omega⟩
    have hl := h.link
    rw [hT', hX'] at hl
    rw [submit_full hua (by omega), transmitAndReconcile,
      transmit_success (s := enqueue f u _) (rest := List.replicate X' (.byte 0#8) ++ rxs) (by omega)
        (by show txAnswer u.link = .ok; rw [hl]; rfl)
        (by show u.link.rxAnswers = _; rw [hl, h8]; exact goodLink_rx _ _ _ _ _ _)]
    refine ⟨⟨?_, ?_, ?_, ?_, ?_⟩, rfl⟩
    · obtain ⟨h1, h2, h3, h4, h5, h6, h7, h8⟩ := h.same
      exact ⟨h1, h2, h3, (Fin.ext ha : s.ackpend = 0).symm, h5, h6, h7, h8⟩
    · show 0 = _; omega
    · simp only [queued]
      rw [e, List.drop_eq_nil_of_le (by simp; omega)]; rfl
    · show ({ txTaken u.link with rxAnswers := _ } : Link) = _
      rw [hl, goodLink_taken, show T - (j + 1) / 8 = T' by omega, show X - 8 * ((j + 1) / 8) = X' by omega]
      rfl
    · show u.events ++ _ = _
      rw [h.events, e, fullBatches_succ, List.append_assoc, queued_enqueue, h.queue, drop_take_eight fs h7 hf, h8]
      congr 1
      simp only [batchEvents]
      rw [List.length_take, List.length_drop, Nat.min_eq_left (by omega)]
  · rw [submit_below hua (by omega)]
    have e : (j + 1) / 8 = j / 8 := by omega
    refine ⟨⟨?_, ?_, ?_, ?_, ?_⟩, rfl⟩
    · obtain ⟨h1, h2, h3, h4, h5, h6, h7, h8⟩ := h.same
      exact ⟨h1, h2, h3, h4, h5, h6, h7, h8⟩
    · simp only [enqueue, setPcnt_pcnt]; omega
    · rw [queued_enqueue, h.queue, e, ← List.drop_append_of_le_length (by simp; omega), ← hf', List.take_append_getElem]
    · rw [e]; exact h.link
    · rw [e]; exact h.events

/-- The page registers at frame `j` of a fill (R160). -/
def pwAt (pw : PageRegs) (j : Nat) : PageRegs :=
  { pw with idx := BitVec.ofNat 16 (j / 2), half := if j % 2 = 0 then .load else .fill }

/-- A fill about to begin at its first word. -/
structure FillStart (s : State) : Prop where
  cfg_wf : s.cfg.wf = true
  seq : s.seq = .fill
  ackpend : s.ackpend.val = 0
  unfaulted : s.faulted = false
  pcnt : s.pcnt.val = 0
  idx : s.pw.idx = 0
  half : s.pw.half = .load
  inside : s.pw.base.toNat + s.cfg.pageSize ≤ s.img.size

theorem FillStart.filled {s : State} (h : FillStart s) {fs : List Frame} {txs : List TxAnswer} {rxs : List RxAnswer} {T X : Nat}
    (hl : s.link = goodLink T X txs rxs s.link.txDraws) : Filled fs txs rxs T X s 0 s ∧ s.pw = pwAt s.pw 0 := by
  refine ⟨⟨⟨rfl, rfl, rfl, rfl, rfl, rfl, rfl, rfl⟩, h.pcnt, by simp [queued, h.pcnt], by simpa using hl, by simp [fullBatches]⟩, ?_⟩
  have h1 := h.idx
  have h2 := h.half
  cases hp : s.pw
  rw [hp] at h1 h2
  simp only at h1 h2
  subst h1 h2
  rfl

/-- The frame that the fill loop sends next. -/
theorem fillPhase_at {s u : State} (h : FillStart s) (hu : Same s u) {j : Nat} (hj : j < s.cfg.pageSize) (hp : u.pw = pwAt s.pw j) :
    fillPhase u = .next (submit (frameAt (memRead s.img.mem) s.pw.base.toNat j) u) := by
  have hsz := Cfg.wf_sizes h.cfg_wf
  have hi : (BitVec.ofNat 16 (j / 2)).toNat = j / 2 := by rw [BitVec.toNat_ofNat]; omega
  have hin := h.inside
  unfold fillPhase
  by_cases h2 : j % 2 = 0
  · have hh : u.pw.half = .load := by rw [hp]; simp [pwAt, h2]
    have hw : wordAddress u = s.pw.base.toNat + 2 * (j / 2) := by rw [wordAddress, hp]; simp only [pwAt, hi]
    have h3 : wordAddress u < u.img.size := by rw [hw, hu.img]; omega
    have h4 : wordAddress u + 1 < u.img.size := by rw [hw, hu.img]; omega
    rw [hh]
    simp only [loadPayload, imgRead, h3, h4, if_true, execLoad, frameAt, h2]
    rw [hw, hu.img]
  · have hh : u.pw.half = .fill := by rw [hp]; simp [pwAt, h2]
    rw [hh]
    simp only [execFill, fillPayload, frameAt, if_neg h2]
    rw [hp]; simp only [pwAt, hi]

theorem faulted_same {s u : State} (hu : Same s u) : u.faulted = s.faulted := by simp only [State.faulted, hu.faults]

theorem Same.trans {s t u : State} (h : Same s t) (g : Same t u) : Same s u :=
  ⟨g.cfg.trans h.cfg, g.sess.trans h.sess, g.seq.trans h.seq, g.ackpend.trans h.ackpend, g.faults.trans h.faults,
    g.img.trans h.img, g.inbox.trans h.inbox, g.results.trans h.results⟩

/-- One frame of a fill that is sent and acknowledged in full. -/
theorem fill_step {s u : State} (h : FillStart s) {txs : List TxAnswer} {rxs : List RxAnswer} {T X j : Nat}
    (hu : Filled (fillFrames (memRead s.img.mem) s.pw.base.toNat s.cfg.pageSize) txs rxs T X s j u) (hp : u.pw = pwAt s.pw j)
    (hj : j < s.cfg.pageSize) (hT : s.cfg.pageSize / 8 ≤ T) (hX : 8 * (s.cfg.pageSize / 8) ≤ X) :
    ∃ v, Filled (fillFrames (memRead s.img.mem) s.pw.base.toNat s.cfg.pageSize) txs rxs T X s (j + 1) v
      ∧ v.pw = u.pw ∧ RunsTo 1 u (advanceFill v) := by
  have hsz := Cfg.wf_sizes h.cfg_wf
  have hf := fillFrames_getElem? (memRead s.img.mem) s.pw.base.toNat hsz.2.1 hj
  obtain ⟨h1, h2⟩ := hu.submit h.ackpend hf (by omega) (by omega)
  refine ⟨_, h1, h2, ?_⟩
  have hus : u.seq = .fill := by rw [hu.same.seq]; exact h.seq
  have hua : u.ackpend.val = 0 := by rw [hu.same.ackpend]; exact h.ackpend
  have hsp : seqPhase u = .next (submit (frameAt (memRead s.img.mem) s.pw.base.toNat j) u) := by
    simp only [seqPhase, hus]; exact fillPhase_at h hu.same hj hp
  have hvs : (submit (frameAt (memRead s.img.mem) s.pw.base.toNat j) u).seq = .fill := by rw [h1.same.seq]; exact h.seq
  have hadv : advance (submit (frameAt (memRead s.img.mem) s.pw.base.toNat j) u)
      = advanceFill (submit (frameAt (memRead s.img.mem) s.pw.base.toNat j) u) := by simp only [advance, hvs]
  rw [← hadv]
  refine RunsTo.step (by rw [hus]; simp) (by rw [faulted_same hu.same]; exact h.unfaulted) hua
    (innerStep_advance hua hsp (by rw [hvs, hus]) (by rw [h1.same.ackpend]; exact h.ackpend)
      (by rw [faulted_same h1.same]; exact h.unfaulted))

theorem Filled.setPw {fs : List Frame} {txs : List TxAnswer} {rxs : List RxAnswer} {T X : Nat} {s : State} {j : Nat} {u : State}
    (h : Filled fs txs rxs T X s j u) (pw : PageRegs) : Filled fs txs rxs T X s j (u.setPw pw) := by
  obtain ⟨⟨h1, h2, h3, h4, h5, h6, h7, h8⟩, g1, g2, g3, g4⟩ := h
  exact ⟨⟨h1, h2, h3, h4, h5, h6, h7, h8⟩, g1, g2, g3, g4⟩

/-- The fill loop up to frame `j` of the page. -/
theorem fill_run {s : State} (h : FillStart s) {txs : List TxAnswer} {rxs : List RxAnswer} {T X : Nat}
    (hl : s.link = goodLink T X txs rxs s.link.txDraws) (hT : s.cfg.pageSize / 8 ≤ T) (hX : 8 * (s.cfg.pageSize / 8) ≤ X)
    {j : Nat} (hj : j < s.cfg.pageSize) :
    ∃ u, Filled (fillFrames (memRead s.img.mem) s.pw.base.toNat s.cfg.pageSize) txs rxs T X s j u ∧ u.pw = pwAt s.pw j
      ∧ RunsTo j s u := by
  have hsz := Cfg.wf_sizes h.cfg_wf
  induction j with
  | zero => exact ⟨s, (h.filled hl).1, (h.filled (fs := []) hl).2, RunsTo.refl s⟩
  | succ j ih =>
    obtain ⟨u, h1, h2, h3⟩ := ih (by omega)
    obtain ⟨v, g1, g2, g3⟩ := fill_step h h1 h2 (by omega) hT hX
    have hi : (BitVec.ofNat 16 (j / 2)).toNat = j / 2 := by rw [BitVec.toNat_ofNat]; omega
    by_cases hm : j % 2 = 0
    · have hh : v.pw.half = .load := by rw [g2, h2]; simp [pwAt, hm]
      have e : advanceFill v = v.setPw { v.pw with half := .fill } := by simp only [advanceFill, hh]
      rw [e] at g3
      refine ⟨_, g1.setPw _, ?_, h3.trans g3⟩
      have h5 : (j + 1) / 2 = j / 2 := by omega
      have h6 : (j + 1) % 2 ≠ 0 := by omega
      simp [g2, h2, pwAt, h5, h6]
    · have hh : v.pw.half = .fill := by rw [g2, h2]; simp [pwAt, hm]
      have hx : v.pw.idx.toNat = j / 2 := by rw [g2, h2]; exact hi
      have e : advanceFill v = v.setPw { v.pw with idx := BitVec.ofNat 16 (v.pw.idx.toNat + 1), half := .load } := by
        simp only [advanceFill, hh]
        rw [if_pos (by rw [hx, g1.same.cfg]; omega)]
      rw [e] at g3
      refine ⟨_, g1.setPw _, ?_, h3.trans g3⟩
      have h5 : (j + 1) / 2 = j / 2 + 1 := by omega
      have h6 : (j + 1) % 2 = 0 := by omega
      simp only [setPw_pw, hx]
      simp [g2, h2, pwAt, h5, h6]

/-- The whole fill: SEQ is at S_FLUSH, all frames submitted. -/
theorem fill_all {s : State} (h : FillStart s) {txs : List TxAnswer} {rxs : List RxAnswer} {T X : Nat}
    (hl : s.link = goodLink T X txs rxs s.link.txDraws) (hT : s.cfg.pageSize / 8 ≤ T) (hX : 8 * (s.cfg.pageSize / 8) ≤ X) :
    ∃ v, Filled (fillFrames (memRead s.img.mem) s.pw.base.toNat s.cfg.pageSize) txs rxs T X s s.cfg.pageSize v
      ∧ v.pw = pwAt s.pw (s.cfg.pageSize - 1) ∧ RunsTo s.cfg.pageSize s (v.setSeq .flush) := by
  have hsz := Cfg.wf_sizes h.cfg_wf
  obtain ⟨u, h1, h2, h3⟩ := fill_run h hl hT hX (j := s.cfg.pageSize - 1) (by omega)
  obtain ⟨v, g1, g2, g3⟩ := fill_step h h1 h2 (by omega) hT hX
  have hS : s.cfg.pageSize - 1 + 1 = s.cfg.pageSize := by omega
  rw [hS] at g1
  have hm : (s.cfg.pageSize - 1) % 2 ≠ 0 := by omega
  have hh : v.pw.half = .fill := by rw [g2, h2]; simp [pwAt, hm]
  have hx : v.pw.idx.toNat = (s.cfg.pageSize - 1) / 2 := by rw [g2, h2]; simp only [pwAt]; rw [BitVec.toNat_ofNat]; omega
  have e : advanceFill v = v.setSeq .flush := by
    simp only [advanceFill, hh]
    rw [if_neg (by rw [hx, g1.same.cfg]; omega)]
  rw [e] at g3
  refine ⟨v, g1, g2.trans h2, ?_⟩
  have := h3.trans g3
  rwa [hS] at this

/-! Flush, erase, write. -/

/-- The batches of a fill: the full ones, then what is left. -/
theorem batches_events (fs : List Frame) :
    (batches fs).flatMap batchEvents = fullBatches fs (fs.length / 8)
      ++ (if fs.length % 8 = 0 then [] else batchEvents (fs.drop (8 * (fs.length / 8)))) := by
  simp only [batches, fullBatches, List.flatMap_map]
  by_cases h : fs.length % 8 = 0
  · rw [if_pos h, List.append_nil, show (fs.length + 7) / 8 = fs.length / 8 by omega]
  · rw [if_neg h, show (fs.length + 7) / 8 = fs.length / 8 + 1 by omega, List.range_succ, List.flatMap_append]
    simp only [List.flatMap_cons, List.flatMap_nil, List.append_nil]
    rw [List.take_of_length_le (by simp; omega)]

/-- An unbuffered exchange that completes. -/
theorem sendUnbuffered_good {s : State} (hp : s.pcnt = 0) (ha : s.ackpend = 0) {T X d : Nat} {txs : List TxAnswer}
    {rxs : List RxAnswer} (hl : s.link = goodLink (T + 1) (X + 1) txs rxs d) (f : Frame) :
    sendUnbuffered f s = { s with link := goodLink T X txs rxs d, events := s.events ++ exchangeEvents f } := by
  rw [sendUnbuffered_empty (by rw [hp]; rfl) (by rw [ha]; rfl),
    transmit_success (k := 1) (rest := List.replicate X (.byte 0#8) ++ rxs) (by decide) (by rw [hl]; rfl)
      (by rw [hl]; exact goodLink_rx _ _ _ _ _ _), hl, goodLink_taken]
  cases s
  simp only at hp ha
  subst hp ha
  rfl

/-- The end-of-fill flush that completes. -/
theorem flush_good {s u : State} {fs : List Frame} {txs : List TxAnswer} {rxs : List RxAnswer} {T X : Nat} {n : Nat}
    (ha : s.ackpend.val = 0) (hn : fs.length = n) (h : Filled fs txs rxs T X s n u)
    (hT : n / 8 + (if n % 8 = 0 then 0 else 1) ≤ T) (hX : n ≤ X) :
    Same s (flush u) ∧ (flush u).pcnt.val = 0 ∧ (flush u).pw = u.pw
      ∧ (flush u).link = goodLink (T - (n / 8 + (if n % 8 = 0 then 0 else 1))) (X - n) txs rxs s.link.txDraws
      ∧ (flush u).events = s.events ++ (batches fs).flatMap batchEvents := by
  subst hn
  have hua : u.ackpend.val = 0 := by rw [h.same.ackpend]; exact ha
  by_cases h0 : fs.length % 8 = 0
  · have hp : u.pcnt.val = 0 := by rw [h.pcnt]; exact h0
    rw [flush_empty hua hp]
    rw [if_pos h0] at hT ⊢
    refine ⟨h.same, hp, rfl, ?_, ?_⟩
    · rw [h.link, Nat.add_zero, show 8 * (fs.length / 8) = fs.length by omega]
    · rw [h.events, batches_events, if_pos h0, List.append_nil]
  · have hp : u.pcnt.val ≠ 0 := by rw [h.pcnt]; exact h0
    rw [if_neg h0] at hT ⊢
    have hl := h.link
    obtain ⟨T', hT'⟩ : ∃ T', T - fs.length / 8 = T' + 1 := ⟨T - fs.length / 8 - 1, by omega⟩
    have hX' : X - 8 * (fs.length / 8) = (X - fs.length) + u.pcnt.val := by rw [h.pcnt]; omega
    rw [hT', hX'] at hl
    rw [flush_some hua hp, transmitAndReconcile,
      transmit_success (rest := List.replicate (X - fs.length) (.byte 0#8) ++ rxs) hp (by rw [hl]; rfl)
        (by rw [hl]; exact goodLink_rx _ _ _ _ _ _)]
    have hq : queued u = fs.drop (8 * (fs.length / 8)) := by rw [h.queue, List.take_length]
    refine ⟨?_, rfl, rfl, ?_, ?_⟩
    · obtain ⟨h1, h2, h3, h4, h5, h6, h7, h8⟩ := h.same
      exact ⟨h1, h2, h3, (Fin.ext ha : s.ackpend = 0).symm, h5, h6, h7, h8⟩
    · show ({ txTaken u.link with rxAnswers := _ } : Link) = _
      rw [hl, goodLink_taken, show T - (fs.length / 8 + 1) = T' by omega]; rfl
    · show u.events ++ _ = _
      rw [h.events, batches_events, if_neg h0, List.append_assoc, hq]
      congr 2
      simp only [batchEvents]
      rw [h.pcnt, List.length_drop, show fs.length - 8 * (fs.length / 8) = fs.length % 8 by omega]

/-- Where a page pass ends whose every answer is a success: SEQ at S_WRITE, its exchange done. -/
def passDone (s : State) (pbuf : Vector Frame 8) (l : Link) : State :=
  { s with
    seq := .write, pbuf := pbuf, pcnt := 0
    pw := pwAt s.pw (s.cfg.pageSize - 1)
    link := l
    events := s.events ++ pageEvents (memRead s.img.mem) s.pw.base.toNat s.cfg.pageSize }

/-- An unbuffered exchange of a page pass that completes, as an inner step. -/
theorem exchange_step {s : State} {f : Frame} (hq : s.seq ≠ .idle) (hf : s.faulted = false) (hp : s.pcnt = 0) (ha : s.ackpend = 0)
    (hs : seqPhase s = .next (sendUnbuffered f s)) {T X d : Nat} {txs : List TxAnswer} {rxs : List RxAnswer}
    (hl : s.link = goodLink (T + 1) (X + 1) txs rxs d) :
    RunsTo 1 s (advance { s with link := goodLink T X txs rxs d, events := s.events ++ exchangeEvents f }) := by
  have h0 : s.ackpend.val = 0 := by rw [ha]; rfl
  rw [sendUnbuffered_good hp ha hl] at hs
  exact RunsTo.step hq hf h0 (innerStep_advance h0 hs rfl h0 hf)

/-- A page pass whose every answer is a success (R164). -/
theorem pass_run {s : State} (h : FillStart s) {txs : List TxAnswer} {rxs : List RxAnswer} {T X : Nat}
    (hl : s.link = goodLink (pageTxCount s.cfg.pageSize + T) (pageRxCount s.cfg.pageSize + X) txs rxs s.link.txDraws) :
    ∃ pbuf, RunsTo (s.cfg.pageSize + 3) s (advanceWrite (passDone s pbuf (goodLink T X txs rxs s.link.txDraws))) := by
  have hsz := Cfg.wf_sizes h.cfg_wf
  have hlen := fillFrames_length (memRead s.img.mem) s.pw.base.toNat hsz.2.1
  obtain ⟨v, h1, h2, h3⟩ := fill_all h hl (by unfold pageTxCount; omega) (by unfold pageRxCount; omega)
  have h1' : Filled (fillFrames (memRead s.img.mem) s.pw.base.toNat s.cfg.pageSize) txs rxs
      (pageTxCount s.cfg.pageSize + T) (pageRxCount s.cfg.pageSize + X) (s.setSeq .flush) s.cfg.pageSize (v.setSeq .flush) := by
    obtain ⟨⟨a1, a2, -, a4, a5, a6, a7, a8⟩, g1, g2, g3, g4⟩ := h1
    exact ⟨⟨a1, a2, rfl, a4, a5, a6, a7, a8⟩, g1, g2, g3, g4⟩
  obtain ⟨f1, f2, f3, f4, f5⟩ := flush_good (s := s.setSeq .flush) h.ackpend hlen h1' (by unfold pageTxCount; omega)
    (by unfold pageRxCount; omega)
  rw [show pageTxCount s.cfg.pageSize + T - (s.cfg.pageSize / 8 + (if s.cfg.pageSize % 8 = 0 then 0 else 1)) = T + 1 + 1 by
      unfold pageTxCount; omega,
    show pageRxCount s.cfg.pageSize + X - s.cfg.pageSize = X + 1 + 1 by unfold pageRxCount; omega] at f4
  have hva : (v.setSeq .flush).ackpend.val = 0 := by rw [setSeq_ackpend, h1.same.ackpend]; exact h.ackpend
  have hvf : (v.setSeq .flush).faulted = false := by rw [faulted_same h1'.same]; exact h.unfaulted
  generalize hw : flush (v.setSeq .flush) = w at f1 f2 f3 f4 f5
  have hwa : w.ackpend = 0 := by rw [f1.ackpend]; exact Fin.ext h.ackpend
  have hwp : w.pcnt = 0 := Fin.ext f2
  have hwf : w.faulted = false := by rw [faulted_same f1]; exact h.unfaulted
  have hws : w.seq = .flush := f1.seq
  have r1 : RunsTo 1 (v.setSeq .flush) (w.setSeq .erase) := by
    have := innerStep_advance (s := v.setSeq .flush) (t := w) hva (by simp only [seqPhase, setSeq_seq, hw]) (by rw [hws]; rfl)
      (by rw [hwa]; rfl) hwf
    rw [show advance w = w.setSeq .erase by simp only [advance, hws]] at this
    exact RunsTo.step (by simp) hvf hva this
  have r2 := exchange_step (s := w.setSeq .erase) (f := frameErase w.pw.base) (by simp) hwf hwp hwa rfl f4
  have r3 := exchange_step (s := { w with
      seq := .write, link := goodLink (T + 1) (X + 1) txs rxs s.link.txDraws
      events := w.events ++ exchangeEvents (frameErase w.pw.base) }) (f := frameWrite w.pw.base) (by simp) hwf hwp hwa rfl rfl
  refine ⟨w.pbuf, ?_⟩
  have hr := ((h3.trans r1).trans r2).trans r3
  rw [show s.cfg.pageSize + 1 + 1 + 1 = s.cfg.pageSize + 3 by omega] at hr
  have hpw : w.pw = pwAt s.pw (s.cfg.pageSize - 1) := f3.trans h2
  have hfin : passDone s w.pbuf (goodLink T X txs rxs s.link.txDraws) = { w with
      seq := .write, link := goodLink T X txs rxs s.link.txDraws
      events := w.events ++ exchangeEvents (frameErase w.pw.base) ++ exchangeEvents (frameWrite w.pw.base) } := by
    obtain ⟨a1, a2, a3, a4, a5, a6, a7, a8⟩ := f1
    simp only [passDone, State.mk.injEq, a1, a2, a4, a5, a6, a7, a8, f5, hwp, hpw]
    simp [pwAt, pageEvents]
  rw [hfin]
  exact hr

end Sys2Proof.Machine
end

