-- ==== Sys2Proof/Laws/PerInstr.lean ====
section
/-! SUPPORT. One family of statements about every instruction as syntax: a frame's four bytes XOR to zero (R100, R102). -/

namespace Sys2Proof.Laws.Checksum

/-- Whatever frame an instruction is encoded as, its four bytes XOR to zero, and its command byte is one of the four (R84, R88). -/
def Statement (i : Instr) : Prop :=
  ∀ f, encode i = .frame f →
    f.b0 ^^^ f.b1 ^^^ f.b2 ^^^ f.b3 = 0#8 ∧ (f.b3 = 0x00#8 ∨ f.b3 = 0x01#8 ∨ f.b3 = 0x03#8 ∨ f.b3 = 0x05#8)

theorem load (d0 d1 : Byte) : Statement (.load d0 d1) := by
  rintro f ⟨⟩; exact ⟨enc_xor _ _ _, .inl rfl⟩

theorem fill (off : Word) : Statement (.fill off) := by
  rintro f ⟨⟩; exact ⟨enc_xor _ _ _, .inr (.inl rfl)⟩

theorem erase (base : Word) : Statement (.erase base) := by
  rintro f ⟨⟩; exact ⟨enc_xor _ _ _, .inr (.inr (.inl rfl))⟩

theorem write (base : Word) : Statement (.write base) := by
  rintro f ⟨⟩; exact ⟨enc_xor _ _ _, .inr (.inr (.inr rfl))⟩

theorem handshake : Statement .handshake := by
  rintro f ⟨⟩; exact ⟨enc_xor _ _ _, .inl rfl⟩

theorem ackSuccess : Statement .ackSuccess := by rintro f ⟨⟩

theorem ackViolation (b : Byte) : Statement (.ackViolation b) := by rintro f ⟨⟩

theorem init : Statement .init := by rintro f ⟨⟩

theorem pageWrite (address byteCount : Nat) : Statement (.pageWrite address byteCount) := by rintro f ⟨⟩

theorem close : Statement .close := by rintro f ⟨⟩

end Sys2Proof.Laws.Checksum
end

