-- ==== Sys2Proof/Laws/Wire.lean ====
section
/-! SUPPORT. What goes out on the wire: every transmission is well formed (R91, R103), and which ERASE and WRITE frames a call can send (R58). -/

namespace Sys2Proof.Machine

/-- No transmission, and the buffer kept or emptied. -/
structure NoTx (s t : State) : Prop where
  pbuf : t.pbuf = s.pbuf
  pcnt : t.pcnt = s.pcnt ∨ t.pcnt = 0
  events : ∀ b, Event.tx b ∈ t.events → Event.tx b ∈ s.events

theorem NoTx.refl (s : State) : NoTx s s := ⟨rfl, .inl rfl, fun _ h => h⟩

theorem NoTx.trans {s t u : State} (h : NoTx s t) (g : NoTx t u) : NoTx s u :=
  ⟨g.pbuf.trans h.pbuf, by rcases g.pcnt with e | e
                           · rw [e]; exact h.pcnt
                           · exact .inr e, fun b hb => h.events b (g.events b hb)⟩

theorem NoTx.wire {s t : State} (h : NoTx s t) (hw : WireOk s) : WireOk t := by
  refine ⟨fun f hf => hw.1 f ?_, fun b hb => hw.2 b (h.events b hb)⟩
  rw [queued, h.pbuf] at hf
  rcases h.pcnt with e | e
  · rw [e] at hf; exact hf
  · rw [e] at hf; simp at hf

theorem noTx_raiseLink (c : Cause) (s : State) : NoTx s (raiseLink c s) := ⟨rfl, .inl rfl, fun _ h => h⟩

theorem noTx_rx (a : RxAnswer) (s : State) : NoTx s (s.emit (.rx a)) := ⟨rfl, .inl rfl, fun _ h => by simpa [State.emit] using h⟩

theorem noTx_of {s t : State} (h1 : t.pbuf = s.pbuf) (h2 : t.pcnt = s.pcnt) (h3 : t.events = s.events) : NoTx s t := ⟨h1, .inl h2, fun _ hb => h3 ▸ hb⟩

theorem noTx_receiveAck (b : Byte) (s : State) : NoTx s (receiveAck b s) := by
  by_cases h : s.ackpend.val = 0
  · simp only [receiveAck, if_pos h]; exact noTx_of rfl rfl rfl
  · by_cases hb : b = 0#8
    · subst hb; rw [receiveAck_success h]; refine ⟨rfl, ?_, fun _ h => by simpa using h⟩
      simp only; split
      · exact .inr rfl
      · exact .inl rfl
    · rw [receiveAck_violation h hb]; exact (noTx_rx _ s).trans (noTx_raiseLink _ _)

theorem noTx_receiveFail (s : State) : NoTx s (receiveFail s) := (noTx_rx _ s).trans (noTx_raiseLink _ _)

theorem noTx_reconcile (l : List RxAnswer) (s : State) : NoTx s (reconcileFrom l s) := by
  have hx : ∀ r s, NoTx s (setRx r s) := fun r s => noTx_of rfl rfl rfl
  induction l generalizing s with
  | nil => exact hx _ _
  | cons a rest ih =>
    simp only [reconcileFrom]; split
    · exact hx _ _
    · cases a with
      | fail => exact (noTx_receiveFail s).trans (hx _ _)
      | byte b => simp only; split
                  · exact (noTx_receiveAck b s).trans (ih _)
                  · exact (noTx_receiveAck b s).trans (hx _ _)

theorem wire_transmit {s : State} (h : WireOk s) {bytes : List Byte} (hb : TransmissionOk bytes) (k : Fin 9) : WireOk (transmit bytes k s) := by
  have h1 : WireOk (txCall bytes s) := by
    refine ⟨h.1, fun b hm => ?_⟩
    simp [txCall, State.emit, State.setLink] at hm
    rcases hm with hm | hm
    · exact h.2 b hm
    · exact hm ▸ hb
  unfold transmit; split
  · exact (noTx_raiseLink _ _).wire h1
  · exact ((noTx_of (t := (txCall bytes s).setAckpend k) rfl rfl rfl).trans (noTx_reconcile _ _)).wire h1

theorem batch_ok {fs : List Frame} (h1 : 1 ≤ fs.length) (h8 : fs.length ≤ 8) (h : ∀ f ∈ fs, ∃ i, decodeFrame f = .ok i ∧ isPipelined i = true) : TransmissionOk (batchBytes fs) := by
  have : ∃ is, decodeTransmission (batchBytes fs) = .ok is ∧ is.length = fs.length ∧ is.all isPipelined = true := by
    clear h1 h8
    induction fs with
    | nil => exact ⟨[], rfl, rfl, rfl⟩
    | cons f fs ih =>
      obtain ⟨is, a, b, c⟩ := ih (fun g hg => h g (by simp [hg]))
      obtain ⟨i, d, e⟩ := h f (by simp)
      exact ⟨i :: is, decodeTransmission_cons d a, by simp [b], by simp [e, c]⟩
  obtain ⟨is, a, b, c⟩ := this
  exact ⟨is, a, .inl ⟨by omega, by omega, c⟩⟩

theorem queued_length (s : State) : (queued s).length = s.pcnt.val := by simp [queued]; omega

theorem wire_tar {s : State} (h : WireOk s) (h0 : s.pcnt.val ≠ 0) : WireOk (transmitAndReconcile s) :=
  wire_transmit h (batch_ok (by rw [queued_length]; omega) (by rw [queued_length]; omega) h.1) _

theorem wire_submit {s : State} (h : WireOk s) {f : Frame} {i : Instr} (hd : decodeFrame f = .ok i) (hp : isPipelined i = true) : WireOk (submit f s) := by
  unfold submit; split
  · rename_i hc
    have : WireOk (enqueue f s hc.2) := by
      refine ⟨fun g hg => ?_, h.2⟩
      rw [queued_enqueue] at hg
      rcases List.mem_append.1 hg with hg | hg
      · exact h.1 g hg
      · simp at hg; exact hg ▸ ⟨i, hd, hp⟩
    simp only; split
    · exact wire_tar this (by simp [enqueue])
    · exact this
  · exact (noTx_of (t := assertFailed _ s) rfl rfl rfl).wire h

theorem wire_flush {s : State} (h : WireOk s) : WireOk (flush s) := by
  unfold flush; split
  · exact (noTx_of (t := assertFailed _ s) rfl rfl rfl).wire h
  · split
    · exact h
    · rename_i h0; exact wire_tar h h0

theorem one_ok {f : Frame} {i : Instr} (hd : decodeFrame f = .ok i) : decodeTransmission f.bytes = .ok [i] := by
  have := decodeTransmission_cons hd (show decodeTransmission [] = .ok [] from rfl)
  simpa using this

theorem wire_send {s : State} (h : WireOk s) {f : Frame} {i : Instr} (hd : decodeFrame f = .ok i) (hp : isPipelined i = true ∨ (∃ b, i = .erase b) ∨ ∃ b, i = .write b) : WireOk (sendUnbuffered f s) := by
  unfold sendUnbuffered; split
  · refine wire_transmit h ⟨[i], one_ok hd, ?_⟩ _
    rcases hp with h | ⟨b, h⟩ | ⟨b, h⟩
    · left; simp [h]
    · right; left; exact ⟨b, by rw [h]⟩
    · right; right; exact ⟨b, by rw [h]⟩
  · exact (noTx_of (t := assertFailed _ s) rfl rfl rfl).wire h

theorem noTx_advance (s : State) : NoTx s (advance s) := by
  unfold advance
  split <;> (try exact noTx_of rfl rfl rfl)
  · unfold advanceFill; split <;> (try split) <;> exact noTx_of rfl rfl rfl
  · unfold advanceWrite; split <;> exact noTx_of rfl rfl rfl

theorem noTx_settle (q : Seq) (s : State) : NoTx s (settle q s) := by
  unfold settle; split
  · exact noTx_advance s
  · exact .refl s

theorem leads_noTx_w (a : Nat) (v : Byte) (s : State) : Leads (NoTx s) (imgWrite a v s) := by
  unfold imgWrite; split
  · exact Leads.next ⟨rfl, .inl rfl, fun b h => by simpa [imgPut, State.emit] using h⟩
  · intro t h; simp at h

theorem leads_noTx_ww (a : Nat) (v : Word) (s : State) : Leads (NoTx s) (imgWriteWord a v s) :=
  Leads.andThen (leads_noTx_w _ _ s) (fun t ht u hu => ht.trans (leads_noTx_w _ _ t u hu))

theorem noTx_redirect (s : State) : Leads (NoTx s) (redirectPhase s) := by
  unfold redirectPhase; split
  · intro t h; simp at h
  · rename_i orig _
    have h1 : NoTx s (s.setPw { s.pw with orig := orig }) := noTx_of rfl rfl rfl
    simp only
    split
    · refine Leads.andThen (P := NoTx s) ?_ (fun t ht => Leads.next (ht.trans (noTx_of rfl rfl rfl)))
      refine Leads.andThen (P := NoTx s) ?_ (fun t ht => ?_)
      · intro t ht; exact h1.trans (leads_noTx_ww _ _ _ t ht)
      · intro u hu; exact ht.trans (leads_noTx_ww _ _ _ u hu)
    · exact Leads.next (noTx_of rfl rfl rfl)

theorem noTx_guard (a n : Nat) (s : State) : Leads (NoTx s) (guardPhase a n s) := by
  unfold guardPhase
  split
  · exact Leads.next (noTx_of rfl rfl rfl)
  · split
    · exact Leads.next (noTx_of rfl rfl rfl)
    · split
      · exact Leads.next (noTx_of rfl rfl rfl)
      · split
        · intro t h; simp at h
        · split
          · intro t ht
            exact NoTx.trans (t := s.setSeq .redirect) (noTx_of rfl rfl rfl) (noTx_redirect _ t ht)
          · exact Leads.next (noTx_of rfl rfl rfl)

theorem wire_seq {s : State} (h : WireOk s) : Leads WireOk (seqPhase s) := by
  unfold seqPhase
  split
  · exact Leads.next h
  · split
    · exact Leads.next (wire_send h decodeFrame_frameHandshake (.inl rfl))
    · exact Leads.next (((noTx_of (t := s.setAckpend 1) rfl rfl rfl).trans (noTx_reconcile _ _)).wire h)
  · intro t ht; exact (noTx_guard _ _ s t ht).wire h
  · intro t ht; exact (noTx_redirect s t ht).wire h
  · unfold fillPhase; split
    · split
      · exact Leads.next (wire_submit h (decodeFrame_frameLoad _ _) rfl)
      · intro t h; simp at h
    · exact Leads.next (wire_submit h (decodeFrame_frameFill _) rfl)
  · exact Leads.next (wire_flush h)
  · exact Leads.next (wire_send h (decodeFrame_frameErase _) (.inr (.inl ⟨_, rfl⟩)))
  · exact Leads.next (wire_send h (decodeFrame_frameWrite _) (.inr (.inr ⟨_, rfl⟩)))
  · exact Leads.next (NoTx.wire (s := s) ⟨rfl, .inl rfl, fun _ hb => by simpa [closePhase, finish] using hb⟩ h)

theorem wire_inner {s : State} (h : WireOk s) : Leads WireOk (innerStep s) := by
  have hx : ∀ r, NoTx s (setRx r s) := fun r => noTx_of rfl rfl rfl
  unfold innerStep; split
  · exact Leads.andThen (wire_seq h) (fun t ht => Leads.next ((noTx_settle _ _).wire ht))
  · split
    · exact Leads.next h
    · exact Leads.next (((hx _).trans (noTx_receiveFail _)).wire h)
    · split
      · exact Leads.next (((hx _).trans ((noTx_receiveAck _ _).trans (noTx_settle _ _))).wire h)
      · exact Leads.next (((hx _).trans ((noTx_receiveAck _ _).trans (noTx_settle _ _))).wire h)

theorem wire_drive (n : Nat) {s t : State} (h : WireOk s) (hd : drive n s = .next t) : WireOk t :=
  drive_rel (P := fun s t => WireOk s → WireOk t) (fun _ h => h) (fun _ _ _ a b h => b (a h)) (fun _ t h w => wire_inner w t h) n s t hd h

theorem wire_call {s : State} (h : WireOk s) (c : HostCall) : Leads WireOk (callEntry c s) := by
  cases c with
  | init =>
    simp only [callEntry, execInit]; split
    · intro t h; simp at h
    · intro t ht; exact wire_drive _ (s := s.setSeq .handshake) h ht
  | pageWrite a n =>
    simp only [callEntry, execPageWrite]; split
    · intro t h; simp at h
    · split
      · refine Leads.andThen (P := WireOk) ?_ (fun t ht u hu => wire_drive _ ht hu)
        intro t ht
        exact (noTx_guard _ _ _ t ht).wire (s := (latchRequest a n s).setSeq .guard) h
      · intro t h; simp at h
  | close =>
    simp only [callEntry, execClose]; split
    · intro t h; simp at h
    · exact Leads.next (NoTx.wire (s := s) ⟨rfl, .inl rfl, fun _ hb => by simpa [closePhase, finish] using hb⟩ h)

/-! Which pages. -/

/-- An event that is no ERASE or WRITE frame of a page that may not be sent. -/
def Fine (c : Cfg) (e : Event) : Prop := ∀ base, (e = .tx (frameErase base).bytes ∨ e = .tx (frameWrite base).bytes) → PageMaySend c base

/-- From `s` to `t` only such events have been issued. -/
def Adds (s t : State) : Prop := ∃ es, t.events = s.events ++ es ∧ ∀ e ∈ es, Fine s.cfg e

theorem Adds.refl (s : State) : Adds s s := ⟨[], by simp, by simp⟩

theorem Adds.trans {s t u : State} (h : Adds s t) (hc : t.cfg = s.cfg) (g : Adds t u) : Adds s u := by
  obtain ⟨a, a1, a2⟩ := h; obtain ⟨b, b1, b2⟩ := g
  refine ⟨a ++ b, by simp [b1, a1], fun e he => ?_⟩
  rw [hc] at b2
  exact (List.mem_append.1 he).elim (a2 e) (b2 e)

theorem Adds.of {s t : State} (h : t.events = s.events) : Adds s t := ⟨[], by simp [h], by simp⟩

theorem fine_rx (c : Cfg) (a : RxAnswer) : Fine c (.rx a) := by intro b h; simp at h

theorem fine_imgw (c : Cfg) (a : Nat) (v : Byte) : Fine c (.imgw a v) := by intro b h; simp at h

theorem fine_len (c : Cfg) {bytes : List Byte} (h : bytes.length ≠ 4) : Fine c (.tx bytes) := by
  intro b hb; simp at hb; rcases hb with hb | hb <;> (rw [hb] at h; simp at h)

theorem adds_ack (b : Byte) (s : State) : Adds s (receiveAck b s) := by
  by_cases h : s.ackpend.val = 0
  · simp only [receiveAck, if_pos h]; exact .of rfl
  · by_cases hb : b = 0#8
    · subst hb; rw [receiveAck_success h]; exact ⟨_, rfl, by simp [fine_rx]⟩
    · rw [receiveAck_violation h hb]; exact ⟨[.rx (.byte b)], rfl, by simp [fine_rx]⟩

theorem adds_fail (s : State) : Adds s (receiveFail s) := ⟨[.rx .fail], rfl, by simp [fine_rx]⟩

theorem cfg_ack (b : Byte) (s : State) : (receiveAck b s).cfg = s.cfg := (grows_receiveAck b s).cfg

theorem adds_rec (l : List RxAnswer) (s : State) : Adds s (reconcileFrom l s) := by
  induction l generalizing s with
  | nil => exact .of rfl
  | cons a rest ih =>
    simp only [reconcileFrom]; split
    · exact .of rfl
    · cases a with
      | fail => exact (adds_fail s).trans rfl (.of rfl)
      | byte b => simp only; split
                  · exact (adds_ack b s).trans (cfg_ack _ _) (ih _)
                  · exact (adds_ack b s).trans (cfg_ack _ _) (.of rfl)

theorem adds_transmit {bytes : List Byte} (s : State) (h : Fine s.cfg (.tx bytes)) (k : Fin 9) : Adds s (transmit bytes k s) := by
  have h1 : Adds s (txCall bytes s) := ⟨[.tx bytes], rfl, by simpa using h⟩
  unfold transmit; split
  · exact h1.trans rfl (.of rfl)
  · exact h1.trans rfl (adds_rec _ ((txCall bytes s).setAckpend k))

theorem batchBytes_length (fs : List Frame) : (batchBytes fs).length = 4 * fs.length := by
  induction fs with
  | nil => rfl
  | cons f fs ih => simp [batchBytes] at ih ⊢; omega

theorem adds_tar (s : State) (h : s.pcnt.val ≠ 1) : Adds s (transmitAndReconcile s) :=
  adds_transmit s (fine_len _ (by rw [batchBytes_length, queued_length]; omega)) _

theorem adds_submit (f : Frame) (s : State) : Adds s (submit f s) := by
  unfold submit; split
  · simp only; split
    · rename_i h hh
      exact Adds.trans (t := enqueue f s h.2) (.of rfl) rfl (adds_tar _ (by rw [hh]; decide))
    · exact .of rfl
  · exact .of rfl

theorem adds_flush (s : State) (h : s.pcnt.val ≠ 1) : Adds s (flush s) := by
  unfold flush; split
  · exact .of rfl
  · split
    · exact .refl s
    · exact adds_tar s h

theorem adds_send (f : Frame) (s : State) (h : Fine s.cfg (.tx f.bytes)) : Adds s (sendUnbuffered f s) := by
  unfold sendUnbuffered; split
  · exact adds_transmit s h _
  · exact .of rfl

theorem adds_advance (s : State) : Adds s (advance s) := by
  unfold advance
  split <;> (try exact .of rfl)
  · unfold advanceFill; split <;> (try split) <;> exact .of rfl
  · unfold advanceWrite; split <;> exact .of rfl

theorem adds_settle (q : Seq) (s : State) : Adds s (settle q s) := by
  unfold settle; split
  · exact adds_advance s
  · exact .refl s

theorem word_eq {a b : Word} (h1 : lo a = lo b) (h2 : hi a = hi b) : a = b := by
  rw [← word16_lo_hi a, ← word16_lo_hi b, h1, h2]

theorem fine_erase {s : State} (hc : s.cfg.wf = true) (hp : PageInv s) : Fine s.cfg (.tx (frameErase s.pw.base).bytes) ∧ Fine s.cfg (.tx (frameWrite s.pw.base).bytes) := by
  have hsz := Cfg.wf_sizes hc
  have : PageMaySend s.cfg s.pw.base := by
    obtain ⟨_, _, _, _, _, h6, h7⟩ := hp
    refine ⟨h6, ?_⟩
    cases hps : s.pw.pass <;> rw [hps] at h7 <;> simp only at h7 <;> omega
  constructor
  · intro b hb
    rcases hb with hb | hb <;> simp [frameErase, frameWrite, enc, Frame.bytes] at hb
    exact word_eq hb.1 hb.2.1 ▸ this
  · intro b hb
    rcases hb with hb | hb <;> simp [frameErase, frameWrite, enc, Frame.bytes] at hb
    exact word_eq hb.1 hb.2.1 ▸ this

theorem adds_ackStep (b : Byte) (q : Seq) (rest : List RxAnswer) (s : State) : Adds s (settle q (receiveAck b (setRx rest s))) := by
  have h : Adds s (receiveAck b (setRx rest s)) := adds_ack b (setRx rest s)
  exact h.trans (cfg_ack b (setRx rest s)) (adds_settle q _)

theorem adds_inner {s t : State} (hi : RunInv s) (hq : s.seq ≠ .idle) (h : innerStep s = .next t) : Adds s t := by
  have hp := hi.phase
  have hsz := Cfg.wf_sizes hi.cfg_wf
  simp only [PhaseInv] at hp
  have key : Leads (Adds s) (innerStep s) := by
    have hx : ∀ r, Adds s (setRx r s) := fun r => .of rfl
    unfold innerStep; split
    · have h1 : Leads (Adds s) (seqPhase s) := by
        unfold seqPhase
        split <;> rename_i hs
        · exact absurd hs hq
        · split
          · refine Leads.next (adds_send _ _ ?_)
            intro b hb; simp [frameHandshake, frameErase, frameWrite, enc, Frame.bytes] at hb
          · exact Leads.next (adds_rec _ (s.setAckpend 1))
        · rw [hs] at hp; exact hp.elim
        · rw [hs] at hp; exact hp.elim
        · unfold fillPhase; split
          · split
            · exact Leads.next (adds_submit _ _)
            · intro t h; simp at h
          · exact Leads.next (adds_submit _ _)
        · rw [hs] at hp
          refine Leads.next (adds_flush s ?_)
          rw [hp.2.1]; omega
        · rw [hs] at hp; exact Leads.next (adds_send _ _ (fine_erase hi.cfg_wf hp.1).1)
        · rw [hs] at hp; exact Leads.next (adds_send _ _ (fine_erase hi.cfg_wf hp.1).2)
        · rw [hs] at hp; exact hp.elim
      intro u hu
      obtain ⟨v, a, b⟩ := andThen_eq_next.1 hu
      simp at b; subst b
      exact (h1 v a).trans (leads_seqPhase s v a).cfg (adds_settle _ _)
    · split
      · exact Leads.next (.refl s)
      · exact Leads.next (adds_fail _)
      · split
        · exact Leads.next (adds_ackStep _ _ _ s)
        · exact Leads.next (adds_ackStep _ _ _ s)
  exact key t h

theorem adds_drive {n : Nat} {s t : State} (hi : RunInv s) (h : drive n s = .next t) : Adds s t := by
  induction n generalizing s with
  | zero => simp [drive] at h; subst h; exact .refl s
  | succ n ih =>
    simp only [drive] at h
    split at h
    · obtain ⟨u, h1, h2⟩ := andThen_eq_next.1 h
      have hq : s.seq ≠ .idle := by rename_i hr; simp [runnable] at hr; exact hr.1.1
      obtain ⟨v, g1, g2, -⟩ := innerStep_spec hi hq
      have := adds_inner hi hq h1
      have e := (leads_innerStep s u h1).cfg
      rw [g1] at h1; simp at h1; subst h1
      exact this.trans e (ih g2 h2)
    · simp at h; subst h; exact .refl s

theorem adds_w (a : Nat) (v : Byte) (s : State) : Leads (Adds s) (imgWrite a v s) := by
  unfold imgWrite; split
  · exact Leads.next ⟨[.imgw a v], rfl, by simp [fine_imgw]⟩
  · intro t h; simp at h

theorem cfg_w (a : Nat) (v : Byte) (s : State) : Leads (fun t => t.cfg = s.cfg) (imgWrite a v s) := by
  unfold imgWrite; split
  · exact Leads.next rfl
  · intro t h; simp at h

theorem adds_ww (a : Nat) (v : Word) (s : State) : Leads (fun t => Adds s t ∧ t.cfg = s.cfg) (imgWriteWord a v s) := by
  refine Leads.andThen (P := fun t => Adds s t ∧ t.cfg = s.cfg) (fun t ht => ⟨adds_w _ _ s t ht, cfg_w _ _ s t ht⟩) (fun t ht u hu => ?_)
  exact ⟨ht.1.trans ht.2 (adds_w _ _ t u hu), (cfg_w _ _ t u hu).trans ht.2⟩

theorem adds_redirect (s : State) : Leads (Adds s) (redirectPhase s) := by
  unfold redirectPhase; split
  · intro t h; simp at h
  · rename_i orig _
    simp only
    split
    · refine Leads.andThen (P := Adds s) ?_ (fun t ht => Leads.next ht)
      exact Leads.andThen (P := fun t => Adds s t ∧ t.cfg = s.cfg) (adds_ww _ _ (s.setPw { s.pw with orig := orig }))
        (fun t ht u hu => ht.1.trans ht.2 (adds_ww _ _ t u hu).1)
    · exact Leads.next (.of rfl)

theorem adds_guard (a n : Nat) (s : State) : Leads (Adds s) (guardPhase a n s) := by
  unfold guardPhase
  split
  · exact Leads.next (.of rfl)
  · split
    · exact Leads.next (.of rfl)
    · split
      · exact Leads.next (.of rfl)
      · split
        · intro t h; simp at h
        · split
          · exact adds_redirect (s.setSeq .redirect)
          · exact Leads.next (.of rfl)

/-- A host call sends ERASE and WRITE frames only of pages that may be sent (R58). -/
theorem adds_call {s : State} (h : RunInv s) (hq : s.seq = .idle) (c : HostCall) : Leads (Adds s) (callEntry c s) := by
  have hp := h.phase
  simp only [PhaseInv, hq] at hp
  cases c with
  | init =>
    rcases entryRefusal_cases Sess.admitsInit s with ⟨r, hr⟩ | ⟨hr, hs⟩
    · intro t ht; simp [callEntry, execInit, hr] at ht
    · intro t ht
      have hs : s.sess = .idle := by cases hx : s.sess <;> simp [hx, Sess.admitsInit] at hs ⊢
      obtain ⟨hp, ha⟩ := hp (.inl hs)
      have hi : RunInv (s.setSeq .handshake) := ⟨h.cfg_wf, h.img_wf, h.no_invariant_fault, ⟨hs, hp, by simp [ha]⟩⟩
      simp only [callEntry, execInit, hr] at ht
      exact adds_drive (s := s.setSeq .handshake) hi ht
  | pageWrite a n =>
    rcases entryRefusal_cases Sess.admitsPageWrite s with ⟨r, hr⟩ | ⟨hr, hs⟩
    · intro t ht; simp [callEntry, execPageWrite, hr] at ht
    · intro t ht
      have hs : s.sess = .ready := by cases hx : s.sess <;> simp [hx, Sess.admitsPageWrite] at hs ⊢
      by_cases hm : accessorMatches s = true
      · have hm' := hm
        simp only [accessorMatches, Bool.and_eq_true, decide_eq_true_eq] at hm'
        have e : callEntry (.pageWrite a n) s = andThen (guardPhase a n (requested a n s)) runCall := by
          simp only [callEntry, execPageWrite, hr, hm, if_true]; rfl
        rw [e] at ht
        rcases pageWrite_entry h hq hs hm'.1 hm'.2 a n with ⟨r, h1⟩ | ⟨u, h1, h2, h3⟩
        · rw [h1] at ht; simp at ht
        · rw [h1] at ht; simp at ht
          have hg := leads_guardPhase a n (requested a n s) u h1
          have ha : Adds s u := adds_guard a n (requested a n s) u h1
          exact ha.trans hg.cfg (adds_drive h2 ht)
      · simp [callEntry, execPageWrite, hr, hm] at ht
  | close =>
    rcases entryRefusal_cases Sess.admitsClose s with ⟨r, hr⟩ | ⟨hr, hs⟩
    · intro t ht; simp [callEntry, execClose, hr] at ht
    · simp only [callEntry, execClose, hr]
      exact Leads.next ⟨[.tclose], rfl, by simp [Fine]⟩

end Sys2Proof.Machine
end

