-- ==== Sys2Proof/Tests/Slice0.lean ====
section
/-! SUPPORT. Small tests with results taken from the spec's vectors (95_test_vectors.md), and a witness for the hypotheses of every obligation. -/

namespace Sys2Proof.Tests

open Sys2Proof.Machine

/-! Fixtures: the spec's configurations CFG-A, CFG-B and CFG-C and small states on them. -/

def cfgA : Cfg := ⟨8192, 64, 66, 0xCFDF#16, .zeroFrame, .field12⟩
def cfgB : Cfg := ⟨32, 8, 10, 0xC00B#16, .zeroFrame, .field12⟩
def cfgC : Cfg := ⟨48, 12, 14, 0xC00B#16, .zeroFrame, .field12⟩

/-- CFG-B's image: `Img[i] = i` but for the entry word. -/
def imgB (tag : String) (e0 e1 : Byte) : Image :=
  Image.canon ⟨(0, e0) :: (1, e1) :: (List.range 30).map (fun i => (i + 2, BitVec.ofNat 8 (i + 2))), tag, 32, 10⟩

/-- CFG-C's image: `Img[i] = 0x30 + i`. -/
def imgC : Image := Image.canon ⟨(List.range 48).map (fun i => (i, BitVec.ofNat 8 (0x30 + i))), "flash", 48, 14⟩

def good (t r : Nat) : Link := ⟨List.replicate t .ok, List.replicate r (.byte 0#8), 0⟩

/-- SESS = READY on CFG-B, entry word 0xC005. -/
def readyB : State := { State.reset with cfg := cfgB, sess := .ready, img := imgB "flash" 0x05#8 0xC0#8, link := good 8 30 }

/-- SESS = READY on CFG-C. -/
def readyC : State := { State.reset with cfg := cfgC, sess := .ready, img := imgC, link := good 8 30 }

/-- Reset on CFG-B. -/
def freshB : State := { readyB with sess := .idle }

def theFrame : Frame := ⟨0xAA#8, 0x55#8, 0xFF#8, 0x00#8⟩

/-- A full batch but for one frame. -/
def sevenB : State := { readyB with seq := .fill, pcnt := 7, pbuf := Vector.replicate 8 theFrame }

/-- What a test looks at in an outcome: nothing unless it is a next state. -/
def look {α : Type} (f : State → α) (o : Host.Outcome State Fault Refusal) : Option α :=
  match o with
  | .next s => some (f s)
  | .fault _ => none
  | .refused _ => none

def rxs (n : Nat) : List Event := List.replicate n (.rx (.byte 0#8))

/-! Well-formedness: one ill-formed term for each check, refused (R86, R82). -/

theorem test_wf_fill_odd : Instr.wf cfgB (.fill 3#16) = false := by decide
theorem test_wf_fill_outside_the_page : Instr.wf cfgB (.fill 8#16) = false ∧ Instr.wf cfgB (.fill 6#16) = true := by decide
theorem test_wf_erase_unaligned : Instr.wf cfgB (.erase 4#16) = false := by decide
theorem test_wf_erase_reserved : Instr.wf cfgB (.erase 24#16) = false ∧ Instr.wf cfgB (.erase 16#16) = true := by decide
theorem test_wf_write_unaligned : Instr.wf cfgB (.write 4#16) = false := by decide
theorem test_wf_write_reserved : Instr.wf cfgB (.write 24#16) = false ∧ Instr.wf cfgB (.write 16#16) = true := by decide
theorem test_wf_ackViolation_zero : Instr.wf cfgB (.ackViolation 0#8) = false := by decide

/-! Decoding, from words written out (R81, R84; V-R100, V-R101, V-R103). -/

theorem test_decode_load : decodeBytes .transmit [0x12#8, 0x34#8, 0x26#8, 0x00#8] = .ok (.load 0x12#8 0x34#8, []) := by decide
theorem test_decode_fill : decodeBytes .transmit [0xFE#8, 0x01#8, 0xFE#8, 0x01#8, 0x77#8] = .ok (.fill 0x01FE#16, [0x77#8]) := by decide
theorem test_decode_erase : decodeBytes .transmit [0x80#8, 0x1F#8, 0x9C#8, 0x03#8] = .ok (.erase 0x1F80#16, []) := by decide
theorem test_decode_write : decodeBytes .transmit [0x80#8, 0x1F#8, 0x9A#8, 0x05#8] = .ok (.write 0x1F80#16, []) := by decide
theorem test_decode_handshake : decodeBytes .transmit [0x00#8, 0x00#8, 0x00#8, 0x00#8] = .ok (.load 0x00#8 0x00#8, []) := by decide
theorem test_decode_ackSuccess : decodeBytes .receive [0x00#8, 0x15#8] = .ok (.ackSuccess, [0x15#8]) := by decide
theorem test_decode_ackViolation : decodeBytes .receive [0x80#8] = .ok (.ackViolation 0x80#8, []) := by decide
theorem test_decode_hostop :
    decode (.hostop .init []) = .ok .init ∧ decode (.hostop .pageWrite [8, 9]) = .ok (.pageWrite 8 9)
      ∧ decode (.hostop .close []) = .ok .close ∧ decode (.hostop .close [1]) = .error .badArguments := by decide
theorem test_decode_badChecksum :
    decodeBytes .transmit [0x12#8, 0x34#8, 0x27#8, 0x00#8] = .error .badChecksum
      ∧ decodeBytes .transmit [0x00#8, 0x00#8, 0x00#8, 0x01#8] = .error .badChecksum := by decide
theorem test_decode_unknownCmd :
    decodeBytes .transmit [0x00#8, 0x00#8, 0x02#8, 0x02#8] = .error (.unknownCmd 0x02#8)
      ∧ decodeBytes .transmit [0x00#8, 0x00#8, 0x04#8, 0x04#8] = .error (.unknownCmd 0x04#8) := by decide
theorem test_decode_truncated : decodeBytes .transmit [0x00#8, 0x00#8, 0x02#8] = .error .truncated := by decide
theorem test_decodeTableWord :
    decodeTableWord 32 0x12342600 = some (.load 0x12#8 0x34#8) ∧ decodeTableWord 32 0x3E003F01 = some (.fill 0x3E#16)
      ∧ decodeTableWord 32 0x801F9C03 = some (.erase 0x1F80#16) ∧ decodeTableWord 8 0x3F = some (.ackViolation 0x3F#8) := by decide
theorem test_withFetchWord_load :
    look (fun s => (s.pcnt.val, s.pbuf[0])) (step (State.reset.withFetchWord 32 0xAA55FF00)) = some (1, theFrame) := by decide

/-! V-R8: the admitted configurations. -/

theorem test_admission :
    [(⟨8192, 64, 66, 0#16, .zeroFrame, .field12⟩ : Cfg), ⟨32, 8, 10, 0#16, .zeroFrame, .field12⟩, ⟨48, 12, 14, 0#16, .zeroFrame, .field12⟩,
      ⟨8192, 64, 64, 0#16, .zeroFrame, .field12⟩, ⟨8192, 64, 2, 0#16, .zeroFrame, .field12⟩, ⟨16, 8, 10, 0#16, .zeroFrame, .field12⟩,
      ⟨24, 8, 10, 0#16, .zeroFrame, .field12⟩, ⟨0x20000, 64, 66, 0#16, .zeroFrame, .field12⟩, ⟨8192, 2, 4, 0#16, .zeroFrame, .field12⟩,
      ⟨8192, 63, 65, 0#16, .zeroFrame, .field12⟩, ⟨8190, 64, 66, 0#16, .zeroFrame, .field12⟩].map Cfg.wf
      = [true, true, true, false, true, false, true, false, false, false, false] := by decide

theorem test_layout_cfgA : cfgA.reservedStart = 8126 ∧ cfgA.resvPage = 8064 ∧ cfgA.bootloaderLen = 64 := by decide

/-! V-R154: the redirected vector, both modes. -/

theorem test_vector_field12 :
    [0xC000#16, 0xC02F#16, 0xC7FF#16, 0xC800#16, 0xCFDE#16, 0xCFDF#16, 0xCFFF#16].map (redirectedVector cfgA)
      = [0xC021#16, 0xC050#16, 0xC820#16, 0xC821#16, 0xCFFF#16, 0xC000#16, 0xC020#16] := by decide
theorem test_vector_add16 :
    [0xC02F#16, 0xCFDE#16, 0xCFDF#16, 0xCFFF#16].map (redirectedVector { cfgA with redirect := .add16 })
      = [0xC050#16, 0xCFFF#16, 0xD000#16, 0xD020#16] := by decide
theorem test_vector_target :
    rjmpTarget 4096 0 0xC02F#16 = 48 ∧ rjmpTarget 4096 4063 0xC050#16 = 48 ∧ rjmpTarget 4096 0 0xCFFF#16 = 0
      ∧ rjmpTarget 4096 4063 0xC020#16 = 0 := by decide

/-! The channel (V-R120 .. A16). -/

/-- A1: below capacity nothing goes out. -/
theorem test_load_queued : look (fun s => (s.pcnt.val, s.pbuf[0], s.events)) (exec (.load 0xAA#8 0x55#8) readyB) = some (1, theFrame, []) := by decide
/-- A2: the eighth frame. -/
theorem test_load_eighth : look (fun s => (s.pcnt.val, s.ackpend.val, s.events)) (exec (.load 0xAA#8 0x55#8) sevenB)
    = some (0, 0, .tx ((List.replicate 8 theFrame).flatMap Frame.bytes) :: rxs 8) := by decide +kernel
/-- R105's example. -/
theorem test_fill_queued : look (fun s => s.pbuf[0]) (exec (.fill 0x3E#16) readyB) = some ⟨0x3E#8, 0x00#8, 0x3F#8, 0x01#8⟩ := by decide
/-- A11: the fifth acknowledgement fails. -/
theorem test_fill_fifth_ack_fails :
    look (fun s => (s.pcnt.val, s.ackpend.val, s.results)) (exec (.fill 0#16)
      { sevenB with link := ⟨[.ok], List.replicate 4 (.byte 0#8) ++ [.fail], 0⟩ }) = some (8, 4, [.linkFailure .linkRecv]) := by decide +kernel
/-- A13. -/
theorem test_erase : look (fun s => s.events) (exec (.erase 0x1F80#16) readyB) = some (.tx [0x80#8, 0x1F#8, 0x9C#8, 0x03#8] :: rxs 1) := by decide
/-- A15: PCNT = 3. -/
theorem test_erase_assert : look (fun s => (s.events, s.faults)) (exec (.erase 0x1F80#16) { readyB with pcnt := 3 })
    = some ([], [.invariant .r130]) := by decide
/-- A14 with the WRITE frame. -/
theorem test_write_violation :
    look (fun s => (s.ackpend.val, s.sess, s.results)) (exec (.write 0x1F80#16) { readyB with link := ⟨[.ok], [.byte 0x3F#8], 0⟩ })
      = some (1, .aborted, [.linkFailure (.linkAck 0x3F#8)]) := by decide
theorem test_write : look (fun s => s.events) (exec (.write 0x1F80#16) readyB) = some (.tx [0x80#8, 0x1F#8, 0x9A#8, 0x05#8] :: rxs 1) := by decide
theorem test_handshake : look (fun s => s.events) (exec .handshake freshB) = some (.tx [0x00#8, 0x00#8, 0x00#8, 0x00#8] :: rxs 1) := by decide
/-- R124's examples. -/
theorem test_ackSuccess : look (fun s => (s.ackpend.val, s.pcnt.val)) (exec .ackSuccess { sevenB with ackpend := 3, pcnt := 8 }) = some (2, 8) := by decide
theorem test_ackSuccess_last : look (fun s => (s.ackpend.val, s.pcnt.val)) (exec .ackSuccess { sevenB with ackpend := 1, pcnt := 8 }) = some (0, 0) := by decide
theorem test_ackViolation : look (fun s => (s.ackpend.val, s.results)) (exec (.ackViolation 0x15#8) { sevenB with ackpend := 3 })
    = some (3, [.linkFailure (.linkAck 0x15#8)]) := by decide
/-- A6: a flush of four frames is one transmission of 16 bytes. -/
theorem test_flush_four : (flush { sevenB with pcnt := 4 }).events = .tx ((List.replicate 4 theFrame).flatMap Frame.bytes) :: rxs 4 := by decide +kernel

/-! The entry points (H1 to H12, E1 to E9, P1 to P6). -/

/-- H1. -/
theorem test_init : look (fun s => (s.sess, s.results, s.events)) (exec .init freshB)
    = some (.ready, [.ok 0], .tx [0x00#8, 0x00#8, 0x00#8, 0x00#8] :: rxs 1) := by decide +kernel
/-- H9. -/
theorem test_init_refused : exec .init readyB = .refused .entryNotAdmitted := rfl
/-- H6, H11. -/
theorem test_close : look (fun s => (s.sess, s.events, s.results)) (exec .close readyB) = some (.closed, [.tclose], [.ok 0]) := by decide
theorem test_close_halted : exec .close { readyB with sess := .halted } = .refused .entryNotAdmitted := rfl

/-- The events of P1's page. -/
def eventsP1 : List Event :=
  .tx [0x08#8, 0x09#8, 0x01#8, 0x00#8, 0x00#8, 0x00#8, 0x01#8, 0x01#8, 0x0A#8, 0x0B#8, 0x01#8, 0x00#8, 0x02#8, 0x00#8, 0x03#8, 0x01#8,
    0x0C#8, 0x0D#8, 0x01#8, 0x00#8, 0x04#8, 0x00#8, 0x05#8, 0x01#8, 0x0E#8, 0x0F#8, 0x01#8, 0x00#8, 0x06#8, 0x00#8, 0x07#8, 0x01#8] :: rxs 8
    ++ .tx [0x08#8, 0x00#8, 0x0B#8, 0x03#8] :: rxs 1 ++ .tx [0x08#8, 0x00#8, 0x0D#8, 0x05#8] :: rxs 1

/-- P1, and the same events as the statements write them. -/
theorem test_pageWrite_P1 : look (fun s => (s.events, s.results)) (exec (.pageWrite 8 8) readyB) = some (eventsP1, [.ok 8]) := by decide +kernel
theorem test_pageEvents_P1 : pageEvents (memRead readyB.img.mem) 8 8 = eventsP1 := by decide +kernel

/-- The events of P2's page: the redirection, the RESV pass, the MAIN pass. -/
def eventsP2 : List Event :=
  [.imgw 0 0x0B#8, .imgw 1 0xC0#8, .imgw 22 0x0A#8, .imgw 23 0xC0#8]
    ++ .tx [0x10#8, 0x11#8, 0x01#8, 0x00#8, 0x00#8, 0x00#8, 0x01#8, 0x01#8, 0x12#8, 0x13#8, 0x01#8, 0x00#8, 0x02#8, 0x00#8, 0x03#8, 0x01#8,
      0x14#8, 0x15#8, 0x01#8, 0x00#8, 0x04#8, 0x00#8, 0x05#8, 0x01#8, 0x0A#8, 0xC0#8, 0xCA#8, 0x00#8, 0x06#8, 0x00#8, 0x07#8, 0x01#8] :: rxs 8
    ++ .tx [0x10#8, 0x00#8, 0x13#8, 0x03#8] :: rxs 1 ++ .tx [0x10#8, 0x00#8, 0x15#8, 0x05#8] :: rxs 1
    ++ .tx [0x0B#8, 0xC0#8, 0xCB#8, 0x00#8, 0x00#8, 0x00#8, 0x01#8, 0x01#8, 0x02#8, 0x03#8, 0x01#8, 0x00#8, 0x02#8, 0x00#8, 0x03#8, 0x01#8,
      0x04#8, 0x05#8, 0x01#8, 0x00#8, 0x04#8, 0x00#8, 0x05#8, 0x01#8, 0x06#8, 0x07#8, 0x01#8, 0x00#8, 0x06#8, 0x00#8, 0x07#8, 0x01#8] :: rxs 8
    ++ .tx [0x00#8, 0x00#8, 0x03#8, 0x03#8] :: rxs 1 ++ .tx [0x00#8, 0x00#8, 0x05#8, 0x05#8] :: rxs 1

/-- P2. -/
theorem test_pageWrite_P2 : look (fun s => (s.events, s.results)) (exec (.pageWrite 0 8) readyB) = some (eventsP2, [.ok 8]) := by decide +kernel
/-- P3: a flush of four frames, then ERASE and WRITE. -/
theorem test_pageWrite_P3 : look (fun s => s.events.drop 9) (exec (.pageWrite 12 12) readyC)
    = some (.tx [0x44#8, 0x45#8, 0x01#8, 0x00#8, 0x08#8, 0x00#8, 0x09#8, 0x01#8, 0x46#8, 0x47#8, 0x01#8, 0x00#8, 0x0A#8, 0x00#8, 0x0B#8, 0x01#8] :: rxs 4
      ++ .tx [0x0C#8, 0x00#8, 0x0F#8, 0x03#8] :: rxs 1 ++ .tx [0x0C#8, 0x00#8, 0x09#8, 0x05#8] :: rxs 1) := by decide +kernel
/-- P3f: the third acknowledgement of the flush fails; PCNT = 4 and ACKPEND = 2 are kept. -/
theorem test_pageWrite_P3f :
    look (fun s => (s.sess, s.pcnt.val, s.ackpend.val, s.results)) (exec (.pageWrite 12 12)
      { readyC with link := ⟨[.ok, .ok], List.replicate 10 (.byte 0#8) ++ [.byte 0x15#8, .byte 0#8], 0⟩ })
      = some (.aborted, 4, 2, [.linkFailure (.linkAck 0x15#8)]) := by decide +kernel
/-- E8: page 0 is never sent, and the image keeps its new bytes. -/
theorem test_pageWrite_E8 :
    look (fun s => (s.results, [0, 1, 22, 23].map (memRead s.img.mem), s.events.getLast?)) (exec (.pageWrite 0 8)
      { readyB with link := ⟨[.ok, .ok, .ok], List.replicate 9 (.byte 0#8) ++ [.byte 0x7F#8], 0⟩ })
      = some ([.linkFailure (.linkAck 0x7F#8)], [0x0B#8, 0xC0#8, 0x0A#8, 0xC0#8], some (.rx (.byte 0x7F#8))) := by decide +kernel
/-- A transport that answers no `Rx`: the call blocks with its eight acknowledgements outstanding, and a step waits (R242). -/
theorem test_pageWrite_blocks :
    look (fun s => (s.seq, s.ackpend.val, look (fun t => decide (t = s)) (step s))) (exec (.pageWrite 8 8) { readyB with link := good 8 0 })
      = some (.fill, 8, some true) := by decide +kernel

/-! Witnesses: for each obligation with hypotheses, a state and operands that meet them. -/

theorem pipelined_load : PipelinedFrame (.load 0xAA#8 0x55#8) theFrame := .inl ⟨0xAA#8, 0x55#8, rfl, by decide⟩
theorem pipelined_fill : PipelinedFrame (.fill 0x3E#16) ⟨0x3E#8, 0x00#8, 0x3F#8, 0x01#8⟩ := .inr ⟨0x3E#16, rfl, by decide⟩
theorem unbuffered_erase : UnbufferedFrame (.erase 0x1F80#16) ⟨0x80#8, 0x1F#8, 0x9C#8, 0x03#8⟩ := .inl ⟨0x1F80#16, rfl, by decide⟩
theorem unbuffered_write : UnbufferedFrame (.write 0x1F80#16) ⟨0x80#8, 0x1F#8, 0x9A#8, 0x05#8⟩ := .inr (.inl ⟨0x1F80#16, rfl, by decide⟩)
theorem unbuffered_handshake : UnbufferedFrame .handshake ⟨0x00#8, 0x00#8, 0x00#8, 0x00#8⟩ := .inr (.inr ⟨rfl, rfl⟩)
theorem admitted_readyB : Admitted .ready readyB := by decide
theorem admitted_freshB : Admitted .idle freshB := by decide
theorem pageWriteAdmitted_readyB : PageWriteAdmitted readyB := ⟨admitted_readyB, by decide, by decide⟩
theorem channelEmpty_readyB : ChannelEmpty readyB := by decide
theorem inv_readyB : Inv readyB := ⟨by decide, by decide +kernel, by decide, by decide, fun _ => ⟨rfl, rfl⟩⟩
theorem inv_freshB : Inv freshB := ⟨by decide, by decide +kernel, by decide, by decide, fun _ => ⟨rfl, rfl⟩⟩

theorem witness_DecodeOfEncode : Instr.wf cfgB (.erase 16#16) = true ∧ Instr.wf cfgB .handshake = true := by decide
theorem witness_EncodeOfDecode : decode (.frame theFrame) = .ok (.load 0xAA#8 0x55#8) := by decide
theorem witness_ConfigurationAdmission :
    ({ cfgC with pageSize := 2 } : Cfg).wf = false
      ∧ { readyB with inbox := [.session { cfgC with pageSize := 2 }] }.inbox = .session { cfgC with pageSize := 2 } :: [] ∧ readyB.seq = .idle
      ∧ { readyB with cfg := { cfgC with pageSize := 2 } }.cfg = { cfgC with pageSize := 2 } := by decide
theorem witness_ReservedPageArithmetic : cfgB.wf = true ∧ cfgB.reservedStart - cfgB.pageSize < 15 ∧ 21 < cfgB.reservedStart ∧ cfgB.resvPage = 16 := by decide
theorem witness_SessionStart_admitted : { readyB with inbox := [.session cfgC] }.inbox = .session cfgC :: [] ∧ readyB.seq = .idle ∧ cfgC.wf = true := by decide
theorem witness_SessionStart_faulted :
    let s : State := { sevenB with faults := [.invariant .r120], inbox := [.session { cfgC with pageSize := 2 }] }
    s.inbox = .session { cfgC with pageSize := 2 } :: [] ∧ s.seq ≠ .idle ∧ s.faulted = true ∧ ({ cfgC with pageSize := 2 } : Cfg).wf = false := by decide
theorem witness_SubmitBelowCapacityQueues :
    PipelinedFrame (.fill 0x3E#16) ⟨0x3E#8, 0x00#8, 0x3F#8, 0x01#8⟩ ∧ { sevenB with pcnt := 6 }.ackpend.val = 0 ∧ { sevenB with pcnt := 6 }.pcnt.val < 7 :=
  ⟨pipelined_fill, by decide, by decide⟩
theorem witness_SubmitAtCapacitySendsTheBatch :
    PipelinedFrame (.load 0xAA#8 0x55#8) theFrame ∧ sevenB.ackpend.val = 0 ∧ sevenB.pcnt.val = 7 ∧ txAnswer sevenB.link = .ok
      ∧ sevenB.link.rxAnswers = List.replicate 8 (.byte 0#8) ++ List.replicate 22 (.byte 0#8) :=
  ⟨pipelined_load, by decide, by decide, by decide, by decide⟩
theorem witness_FailedBatchSendAborts :
    let s : State := { sevenB with link := ⟨[.fail], [], 0⟩ }
    PipelinedFrame (.load 0xAA#8 0x55#8) theFrame ∧ s.ackpend.val = 0 ∧ s.pcnt.val = 7 ∧ txAnswer s.link = .fail :=
  ⟨pipelined_load, by decide, by decide, by decide⟩
theorem witness_BatchStopsAtFirstFailure_last :
    let s : State := { sevenB with link := ⟨[.ok], List.replicate 7 (.byte 0#8) ++ [.byte 0x01#8], 0⟩ }
    PipelinedFrame (.load 0xAA#8 0x55#8) theFrame ∧ s.ackpend.val = 0 ∧ s.pcnt.val = 7 ∧ txAnswer s.link = .ok ∧ (7 : Nat) < 8
      ∧ failureCause (.byte 0x01#8) = some (.linkAck 0x01#8)
      ∧ s.link.rxAnswers = List.replicate 7 (.byte 0#8) ++ .byte 0x01#8 :: [] :=
  ⟨pipelined_load, by decide, by decide, by decide, by decide, by decide, by decide⟩
theorem witness_BatchStopsAtFirstFailure_first :
    let s : State := { sevenB with link := ⟨[.ok], [.fail, .byte 0#8], 0⟩ }
    PipelinedFrame (.load 0xAA#8 0x55#8) theFrame ∧ s.ackpend.val = 0 ∧ s.pcnt.val = 7 ∧ txAnswer s.link = .ok ∧ (0 : Nat) < 8
      ∧ failureCause .fail = some .linkRecv ∧ s.link.rxAnswers = List.replicate 0 (.byte 0#8) ++ .fail :: [.byte 0#8] :=
  ⟨pipelined_load, by decide, by decide, by decide, by decide, by decide, by decide⟩
theorem witness_UnbufferedExchangeCompletes :
    UnbufferedFrame (.write 0x1F80#16) ⟨0x80#8, 0x1F#8, 0x9A#8, 0x05#8⟩ ∧ ChannelEmpty readyB ∧ txAnswer readyB.link = .ok
      ∧ readyB.link.rxAnswers = .byte 0#8 :: List.replicate 29 (.byte 0#8) :=
  ⟨unbuffered_write, by decide, by decide, by decide⟩
theorem witness_UnbufferedExchangeFails_send :
    let s : State := { readyB with link := ⟨[.fail], [], 0⟩ }
    UnbufferedFrame (.erase 0x1F80#16) ⟨0x80#8, 0x1F#8, 0x9C#8, 0x03#8⟩ ∧ ChannelEmpty s ∧ txAnswer s.link = .fail :=
  ⟨unbuffered_erase, by decide, by decide⟩
theorem witness_UnbufferedExchangeFails_ack :
    let s : State := { readyB with link := ⟨[.ok], [.byte 0xFF#8], 0⟩ }
    UnbufferedFrame .handshake ⟨0x00#8, 0x00#8, 0x00#8, 0x00#8⟩ ∧ ChannelEmpty s ∧ txAnswer s.link = .ok
      ∧ failureCause (.byte 0xFF#8) = some (.linkAck 0xFF#8) ∧ s.link.rxAnswers = .byte 0xFF#8 :: [] :=
  ⟨unbuffered_handshake, by decide, by decide, by decide, by decide⟩
theorem witness_AckSuccessCountsOff : { sevenB with ackpend := 1 }.ackpend.val ≠ 0 ∧ { sevenB with ackpend := 8 }.ackpend.val ≠ 0 := by decide
theorem witness_AckViolationAborts : (0x15#8 : Byte) ≠ 0#8 ∧ { sevenB with ackpend := 3 }.ackpend.val ≠ 0 := by decide
theorem witness_FlushForcesThePartialBatch :
    readyB.ackpend.val = 0 ∧ readyB.pcnt.val = 0 ∧ sevenB.pcnt.val ≠ 0 ∧ txAnswer sevenB.link = .ok
      ∧ sevenB.link.rxAnswers = List.replicate sevenB.pcnt.val (.byte 0#8) ++ List.replicate 23 (.byte 0#8) := by decide
theorem witness_FailedAssertIsRecorded :
    PipelinedFrame (.load 0xAA#8 0x55#8) theFrame ∧ UnbufferedFrame (.erase 0x1F80#16) ⟨0x80#8, 0x1F#8, 0x9C#8, 0x03#8⟩
      ∧ ¬ ({ sevenB with ackpend := 1 }.ackpend.val = 0 ∧ { sevenB with ackpend := 1 }.pcnt.val < 8)
      ∧ ¬ ({ sevenB with pcnt := 8 }.ackpend.val = 0 ∧ { sevenB with pcnt := 8 }.pcnt.val < 8)
      ∧ ¬ ChannelEmpty { readyB with pcnt := 1 } ∧ ¬ ChannelEmpty { readyB with ackpend := 1 }
      ∧ readyB.ackpend.val = 0 ∧ { sevenB with ackpend := 1 }.ackpend.val ≠ 0 :=
  ⟨pipelined_load, unbuffered_erase, by decide, by decide, by decide, by decide, by decide, by decide⟩
theorem witness_FaultedStateAdmitsNothing :
    let s : State := { readyB with faults := [.invariant .r120] }
    s.cfg.wf = true ∧ s.faulted = true ∧ startsSession s = false := by decide
theorem witness_SplitDeliveryIsTheSame :
    let s : State := { sevenB with ackpend := 8, link := good 0 3 }
    let t : State := { sevenB with ackpend := 8, link := good 0 8 }
    (3 ≤ s.ackpend.val ∧ s.link.rxAnswers = List.replicate 3 (.byte 0#8)) ∧ 8 ≤ t.ackpend.val ∧ t.link.rxAnswers = List.replicate 8 (.byte 0#8) := by
  decide
theorem witness_OtherMemoryClassIsUnsupported :
    PageWriteAdmitted { readyB with img := imgB "Flash" 0x05#8 0xC0#8 } ∧ (imgB "Flash" 0x05#8 0xC0#8).tag ≠ "flash" := by decide
theorem witness_ReservedRegionRequestHalts : PageWriteAdmitted readyB ∧ readyB.img.tag = "flash" ∧ readyB.cfg.reservedStart ≤ 22 :=
  ⟨pageWriteAdmitted_readyB, by decide, by decide⟩
theorem witness_PairedPageIsSilentSuccess :
    PageWriteAdmitted readyB ∧ readyB.img.tag = "flash"
      ∧ (readyB.cfg.reservedStart - readyB.cfg.pageSize < 15 ∧ 15 < readyB.cfg.reservedStart)
      ∧ readyB.cfg.reservedStart - readyB.cfg.pageSize < 21 ∧ 21 < readyB.cfg.reservedStart :=
  ⟨pageWriteAdmitted_readyB, by decide, by decide, by decide, by decide⟩
theorem witness_PartialOrUnalignedRequestIsRefused :
    PageWriteAdmitted readyB ∧ readyB.img.tag = "flash" ∧ 14 ≤ readyB.cfg.reservedStart - readyB.cfg.pageSize
      ∧ 14 % readyB.cfg.pageSize ≠ 0 ∧ 0 ≤ readyB.cfg.reservedStart - readyB.cfg.pageSize ∧ 7 ≠ readyB.cfg.pageSize :=
  ⟨pageWriteAdmitted_readyB, by decide, by decide, by decide, by decide, by decide⟩
theorem witness_BadEntryWordHalts :
    let s : State := { readyB with img := imgB "flash" 0x0C#8 0x94#8 }
    PageWriteAdmitted s ∧ s.img.tag = "flash"
      ∧ (0x940C#16 : Word).toNat = (memRead s.img.mem 0).toNat + 0x100 * (memRead s.img.mem 1).toNat
      ∧ (0x940C#16 : Word).toNat / 0x1000 ≠ 0xC := by decide +kernel
theorem witness_VectorAddsInTheOffsetField : cfgA.redirect = .field12 := by decide
theorem witness_RedirectModesAgreeOutsideTheBand :
    cfgA.redirect = .field12 ∧ ({ cfgA with redirect := .add16 } : Cfg).redirect = .add16
      ∧ ({ cfgA with redirect := .add16 } : Cfg).reservedSize = cfgA.reservedSize ∧ isRelativeJump 0xCFDE#16 = true
      ∧ (0xCFDE#16 : Word).toNat % 0x1000 + cfgA.reservedSize / 2 < 0x1000 := by decide
theorem witness_RedirectionKeepsTheTarget : cfgA.wf = true ∧ cfgA.redirect = .field12 ∧ 0x1000 % (cfgA.imageSize / 2) = 0 := by decide
/-- In both modes: `s` is in ADD16. -/
theorem witness_RedirectionRewritesFourBytes :
    let s : State := { readyB with cfg := { cfgB with redirect := .add16 } }
    (PageWriteAdmitted s ∧ ChannelEmpty s ∧ s.img.wf = true ∧ s.img.tag = "flash"
      ∧ (0xC005#16 : Word).toNat = (memRead s.img.mem 0).toNat + 0x100 * (memRead s.img.mem 1).toNat)
      ∧ (PageWriteAdmitted readyB ∧ ChannelEmpty readyB ∧ readyB.img.wf = true ∧ readyB.img.tag = "flash"
      ∧ (0xC005#16 : Word).toNat = (memRead readyB.img.mem 0).toNat + 0x100 * (memRead readyB.img.mem 1).toNat)
      ∧ (0xC005#16 : Word).toNat / 0x1000 = 0xC := by decide +kernel
theorem witness_OrdinaryPageIsWritten :
    PageWriteAdmitted readyB ∧ ChannelEmpty readyB ∧ readyB.img.tag = "flash" ∧ 0 < 8
      ∧ 8 ≤ readyB.cfg.reservedStart - readyB.cfg.pageSize ∧ 8 % readyB.cfg.pageSize = 0
      ∧ readyB.link.txAnswers = List.replicate (pageTxCount readyB.cfg.pageSize) .ok ++ List.replicate 5 .ok
      ∧ readyB.link.rxAnswers = List.replicate (pageRxCount readyB.cfg.pageSize) (.byte 0#8) ++ List.replicate 20 (.byte 0#8) :=
  ⟨pageWriteAdmitted_readyB, channelEmpty_readyB, by decide, by decide, by decide, by decide, by decide, by decide⟩
/-- In ADD16; `witness_RedirectionRewritesFourBytes` has the default mode's state. -/
theorem witness_PageZeroIsWritten :
    let s : State := { readyB with cfg := { cfgB with redirect := .add16 } }
    PageWriteAdmitted s ∧ ChannelEmpty s ∧ s.img.wf = true ∧ s.img.tag = "flash"
      ∧ (0xC005#16 : Word).toNat = (memRead s.img.mem 0).toNat + 0x100 * (memRead s.img.mem 1).toNat
      ∧ (0xC005#16 : Word).toNat / 0x1000 = 0xC
      ∧ s.link.txAnswers = List.replicate (2 * pageTxCount s.cfg.pageSize) .ok ++ List.replicate 2 .ok
      ∧ s.link.rxAnswers = List.replicate (2 * pageRxCount s.cfg.pageSize) (.byte 0#8) ++ List.replicate 10 (.byte 0#8) := by decide +kernel
/-- U14's band: the entry word 0xCFFF in ADD16 with V = 10 gives the vector 0xD004. -/
theorem test_pageWrite_add16 :
    look (fun s => [22, 23].map (memRead s.img.mem)) (exec (.pageWrite 0 8)
      { readyB with cfg := { cfgB with redirect := .add16 }, img := imgB "flash" 0xFF#8 0xCF#8 }) = some [0x04#8, 0xD0#8] := by decide +kernel
theorem witness_PagePassEventCounts : 4 % 2 = 0 ∧ 2 ≤ 4 := by decide
theorem witness_InitOpensTheSession :
    Admitted .idle freshB ∧ ChannelEmpty freshB ∧ freshB.cfg.handshake = .zeroFrame ∧ txAnswer freshB.link = .ok
      ∧ freshB.link.rxAnswers = .byte 0#8 :: List.replicate 29 (.byte 0#8) := by decide
theorem witness_InitFailureAborts_send :
    let s : State := { freshB with link := ⟨[.fail], [], 0⟩ }
    Admitted .idle s ∧ ChannelEmpty s ∧ s.cfg.handshake = .zeroFrame ∧ txAnswer s.link = .fail := by decide
theorem witness_InitFailureAborts_ack :
    let s : State := { freshB with link := ⟨[.ok], [.fail], 0⟩ }
    Admitted .idle s ∧ ChannelEmpty s ∧ s.cfg.handshake = .zeroFrame ∧ txAnswer s.link = .ok ∧ failureCause .fail = some .linkRecv
      ∧ s.link.rxAnswers = .fail :: [] := by decide
theorem witness_InitWithoutAFrame :
    let s : State := { freshB with cfg := { cfgB with handshake := .noFrame } }
    Admitted .idle s ∧ ChannelEmpty s ∧ s.cfg.handshake = .noFrame ∧ s.link.rxAnswers = .byte 0#8 :: List.replicate 29 (.byte 0#8) := by decide
theorem witness_CloseReleasesTheTransport : Admitted .idle freshB ∧ Admitted .ready readyB ∧ Admitted .aborted { readyB with sess := .aborted } := by decide
theorem witness_EntryPointsNotAdmittedAreRefused :
    cfgB.wf = true ∧ readyB.sess ≠ .idle ∧ freshB.sess ≠ .ready ∧ sevenB.seq ≠ .idle ∧ { readyB with sess := .halted }.sess = .halted := by decide
theorem witness_OtherAccessorSizesAreRefused :
    let s : State := { readyB with img := { readyB.img with size := 40 } }
    let t : State := { readyB with img := { readyB.img with reserved := 18 } }
    (Admitted .ready s ∧ s.img.size ≠ s.cfg.imageSize) ∧ Admitted .ready t ∧ t.img.reserved ≠ t.cfg.reservedSize := by decide
/-- INIT whose acknowledgement fails, from a state that meets the invariant. -/
theorem witness_AbortIsPrecise :
    let s : State := { freshB with inbox := [.call .init], link := ⟨[.ok], [.fail], 0⟩ }
    Inv s ∧ s.sess ≠ .aborted ∧ look (fun t => t.sess) (step s) = some .aborted :=
  ⟨⟨by decide, by decide +kernel, by decide, by decide, fun _ => ⟨rfl, rfl⟩⟩, by decide, by decide +kernel⟩
theorem witness_HaltIsPrecise :
    let s : State := { readyB with inbox := [.call (.pageWrite 24 8)] }
    Inv s ∧ s.sess ≠ .halted ∧ look (fun t => t.sess) (step s) = some .halted :=
  ⟨⟨by decide, by decide +kernel, by decide, by decide, fun _ => ⟨rfl, rfl⟩⟩, by decide, by decide +kernel⟩
theorem witness_StepRunsTheFetchedInstruction :
    readyB.faulted = false ∧ sevenB.faulted = false
      ∧ fetch { readyB with inbox := [.call .close] } = some (.close, { readyB with inbox := [] })
      ∧ fetch { sevenB with pw := { sevenB.pw with half := .fill } } = some (.fill 0#16, { sevenB with pw := { sevenB.pw with half := .fill } })
      ∧ fetch { sevenB with ackpend := 3, link := ⟨[], [.byte 0x15#8], 0⟩ }
          = some (.ackViolation 0x15#8, { sevenB with ackpend := 3, link := ⟨[], [], 0⟩ }) := by decide +kernel
theorem witness_WaitingChangesNothing :
    let s : State := { sevenB with ackpend := 3, link := good 0 0 }
    (readyB.faulted = false ∧ readyB.seq = .idle ∧ readyB.inbox = [])
      ∧ s.faulted = false ∧ s.seq ≠ .idle ∧ s.ackpend.val ≠ 0 ∧ s.link.rxAnswers = [] := by decide
/-- A step from a state that meets the invariant that answers a next state: the hypotheses of StepKeepsTheInvariant, NoFaultFromTheInvariant, ReturnedCallsLeaveTheChannelEmpty, SessionMoves, OneOutcomePerCall, RecordsOnlyGrow, ImageChangesOnlyAtFourBytes, StepKeepsTheWireWellFormed and BootloaderPagesAreNeverSent. -/
theorem witness_StepKeepsTheInvariant :
    let s : State := { readyB with inbox := [.call (.pageWrite 8 8)] }
    Inv s ∧ WireOk s ∧ look (fun t => (t.seq, t.sess, t.results)) (step s) = some (.idle, .ready, [.ok 8])
      ∧ startsSession s = false ∧ handsImage s = false :=
  ⟨⟨by decide, by decide +kernel, by decide, by decide, fun _ => ⟨rfl, rfl⟩⟩,
    ⟨by simp [queued, readyB, State.reset], by simp [readyB, State.reset]⟩, by decide +kernel, by decide, by decide⟩
/-- A state in the middle of a page that meets the invariant: blocked after its first batch. -/
def blockedB : State :=
  { readyB with
    seq := .fill, pcnt := 8, ackpend := 8, link := good 0 0
    pw := { readyB.pw with count := 8, pass := .main, base := 8, idx := 3, half := .fill } }
theorem witness_inv_running : Inv blockedB :=
  ⟨by decide, by decide +kernel, by decide, by decide,
    ⟨by decide, by decide, by decide, by decide, by decide, by decide,
      (by decide : blockedB.pw.base.toNat + blockedB.cfg.pageSize ≤ blockedB.cfg.reservedStart)⟩, by decide, by decide, by decide⟩
/-- The hypotheses of the statements about a step inside a call, with a session and an image waiting behind it: an acknowledgement arrives, and the call goes on. -/
theorem witness_step_running :
    let s : State := { blockedB with link := good 2 10, inbox := [.session cfgC, .image imgC] }
    Inv s ∧ s.seq ≠ .idle ∧ startsSession s = false ∧ handsImage { s with inbox := [.image imgC] } = false
      ∧ look (fun t => (t.seq, t.ackpend.val)) (step s) = some (.fill, 7) :=
  ⟨⟨by decide, by decide +kernel, by decide, by decide,
    ⟨by decide, by decide, by decide, by decide, by decide, by decide,
      (by decide : blockedB.pw.base.toNat + blockedB.cfg.pageSize ≤ blockedB.cfg.reservedStart)⟩, by decide, by decide, by decide⟩,
    by decide, by decide, by decide +kernel, by decide +kernel⟩
/-- The third clause of OneOutcomePerCall: the host hands over an image. -/
theorem witness_OneOutcomePerCall_image :
    let s : State := { readyB with inbox := [.image imgC] }
    Inv s ∧ s.seq = .idle ∧ (∀ c rest, s.inbox ≠ .call c :: rest) ∧ look (fun t => t.results) (step s) = some [] :=
  ⟨⟨by decide, by decide +kernel, by decide, by decide, fun _ => ⟨rfl, rfl⟩⟩, rfl, by simp, by decide +kernel⟩
/-- Two cells at one address, one address with none, one cell outside the buffer. -/
theorem witness_ImageHandover :
    let im : Image := ⟨[(3, 0x11#8), (40, 0x22#8), (3, 0x33#8)], "eeprom", 32, 10⟩
    let s : State := { readyB with inbox := [.image im] }
    s.faulted = false ∧ s.seq = .idle ∧ s.inbox = .image im :: []
      ∧ look (fun t => (t.img.tag, t.img.size, [3, 4, 40].map (memRead t.img.mem))) (step s) = some ("eeprom", 32, [0x33#8, 0xFF#8, 0xFF#8])
      ∧ [3, 4, 40].map (handedByte im) = [0x33#8, 0xFF#8, 0xFF#8] := by decide +kernel
theorem witness_BootloaderBytesDoNotMatter :
    let s : State := { readyB with inbox := [.call (.pageWrite 0 8)] }
    let m : Memory := memWrite s.img.mem 24 0x77#8
    Inv s ∧ Memory.wf m = true ∧ (∀ a, a < s.cfg.reservedStart + 2 → memRead m a = memRead s.img.mem a)
      ∧ memRead m 24 ≠ memRead s.img.mem 24 ∧ look (fun t => t.results) (step s) = some [.ok 8] :=
  ⟨⟨by decide, by decide +kernel, by decide, by decide, fun _ => ⟨rfl, rfl⟩⟩, by decide +kernel, by decide +kernel, by decide +kernel,
    by decide +kernel⟩
end Sys2Proof.Tests
end

section
/-! The scope (00_scope.md): the invariant is kept, where the reserved-region page lies, which configurations are admitted. -/

namespace Sys2Proof.Machine

/-! Every step keeps the invariant. -/

/-- The part of the invariant that a call relies on, and FAULTS a set, are the whole of it. -/
theorem RunInv.inv {s : State} (h : RunInv s) (hn : s.faults.Nodup) : Inv s :=
  ⟨h.cfg_wf, h.img_wf, hn, h.no_invariant_fault, h.phase⟩

/-- However a host call ends, FAULTS stays a set (R30). -/
theorem CallEnd.nodup {s t : State} (h : CallEnd s t) (hn : s.faults.Nodup) : t.faults.Nodup := by
  rcases h with ⟨r, hguard⟩ | ⟨-, -, -, -, -, -, -, c, -, -, hfaults⟩ | ⟨hcall, -⟩ | ⟨hclosed, -⟩
  · rw [hguard]; exact hn
  · rw [hfaults]; exact nodup_addCause hn
  · exact hcall.nodup hn
  · rw [hclosed]; exact hn

/-- An image that the host hands over in S_IDLE leaves the invariant: no register of the block is written (R188). -/
theorem Inv.handover {s : State} (h : Inv s) (hq : s.seq = .idle) (r : List HostInput) (im : Image) :
    Inv ((s.setInbox r).setImg im.canon) := by
  refine ⟨h.cfg_wf, Image.canon_wf im, h.faults_nodup, h.no_invariant_fault, ?_⟩
  have hp := h.phase
  simp only [PhaseInv, hq] at hp
  simpa [PhaseInv, hq] using hp

/-- The start of a session with an admitted configuration meets the invariant, from a canonical image (R35, R230). -/
theorem resetRegs_inv {c : Cfg} {s : State} (hc : c.wf = true) (hi : s.img.wf = true) : Inv (resetRegs c s) :=
  ⟨hc, hi, List.nodup_nil, rfl, fun _ => ⟨rfl, rfl⟩⟩

/-- The step of a running call keeps the invariant. -/
theorem innerStep_inv {s t : State} (h : Inv s) (hq : s.seq ≠ .idle) (hst : innerStep s = .next t) : Inv t := by
  obtain ⟨u, hu, hrun, hrel⟩ := innerStep_spec h.run hq
  obtain rfl : u = t := Host.Outcome.next.inj (hu.symm.trans hst)
  exact hrun.inv (hrel.nodup h.faults_nodup)

/-- A host call that is not refused keeps the invariant. -/
theorem callEntry_inv {s t : State} (h : Inv s) (hq : s.seq = .idle) (c : HostCall) (hst : callEntry c s = .next t) :
    Inv t := by
  rcases callEntry_spec h.run hq c with ⟨r, hr⟩ | ⟨u, hu, hrun, hend⟩
  · simp [hr] at hst
  · obtain rfl : u = t := Host.Outcome.next.inj (hu.symm.trans hst)
    exact hrun.inv (hend.nodup h.faults_nodup)

/-- Settles O48, by the five kinds of step: waiting, an image, a session, a host call, a running call. -/
theorem stepKeepsTheInvariant : Obligations.StepKeepsTheInvariant := by
  intro s t h hst
  cases step_kinds h.no_invariant_fault hst with
  | wait _ ht => exact ht ▸ h
  | image hq r im _ ht => exact ht ▸ h.handover hq r im
  | session c r _ hc ht => exact ht ▸ resetRegs_inv hc (s := s.setInbox r) h.img_wf
  | call hq c r _ hcall => exact callEntry_inv (h.run.setInbox r |>.inv h.faults_nodup) hq c hcall
  | inner hq hinner => exact innerStep_inv h hq hinner

/-! The reserved-region page (R9). -/

/-- RESV_PAGE lies strictly between R − S and R (R9). -/
theorem resvPage_between {c : Cfg} (h : c.wf = true) :
    c.reservedStart - c.pageSize < c.resvPage ∧ c.resvPage < c.reservedStart := by
  obtain ⟨hS, -, -, -, -, hR, hpage⟩ := Cfg.wf_sizes h
  omega

/-- RESV_PAGE is the only multiple of S between R − S and R: two multiples of S there differ by less than S (R9). -/
theorem eq_resvPage_of_aligned {c : Cfg} (h : c.wf = true) {a : Nat} (hlo : c.reservedStart - c.pageSize < a)
    (hhi : a < c.reservedStart) (ha : a % c.pageSize = 0) : a = c.resvPage := by
  obtain ⟨hlo', hhi'⟩ := resvPage_between h
  have hmod : a ≡ c.resvPage [MOD c.pageSize] := ha.trans (Cfg.wf_aligned h).2.symm
  refine hmod.eq_of_abs_lt ?_
  rw [abs_lt]
  omega

/-- Settles O9: R + 2 is a difference of two multiples of S, and the interval is too short for a second one. -/
theorem reservedPageArithmetic : Obligations.ReservedPageArithmetic := by
  intro c h
  obtain ⟨hR, hpage⟩ := Cfg.wf_aligned h
  obtain ⟨hlo, hhi⟩ := resvPage_between h
  refine ⟨hR, hpage, hlo, hhi, fun a alo ahi => ⟨eq_resvPage_of_aligned h alo ahi, ?_⟩⟩
  rintro rfl
  exact hpage

/-! Admission (R8). -/

/-- WF_CONFIG with its last condition over the integers, as R8 writes it. -/
theorem wf_iff_integer_conditions (c : Cfg) : c.wf = true ↔
    (c.pageSize % 2 = 0 ∧ 4 ≤ c.pageSize)
    ∧ (c.imageSize % c.pageSize = 0 ∧ c.imageSize ≤ 0x10000)
    ∧ (2 ≤ c.reservedSize ∧ (c.reservedSize - 2) % c.pageSize = 0)
    ∧ (c.imageSize : Int) - c.reservedSize - c.pageSize + 2 ≥ c.pageSize := by
  have hlast : c.reservedSize + c.pageSize + c.pageSize ≤ c.imageSize + 2
      ↔ (c.imageSize : Int) - c.reservedSize - c.pageSize + 2 ≥ c.pageSize := by omega
  rw [Cfg.wf_iff, hlast]
  simp only [and_assoc]

/-- No session starts with a configuration outside WF_CONFIG (R21, R230). -/
theorem beginSession_not_admitted {c : Cfg} (h : c.wf = false) (s : State) :
    beginSession c s = .refused .configNotAdmitted := by
  simp [beginSession, h]

/-- In S_IDLE, and in a faulted state, a session start that stands first is what the step takes (R30, R230). -/
theorem step_session {c : Cfg} {s : State} {rest : List HostInput} (hi : s.inbox = .session c :: rest)
    (hq : s.seq = .idle ∨ s.faulted = true) : step s = beginSession c (s.setInbox rest) := by
  unfold step machineStep
  by_cases hf : s.faulted = true
  · simp [hf, faultedStep, hi]
  · simp [hf, hq.resolve_right hf, hostStep, hi]

/-- Where the configuration is outside WF_CONFIG no entry point is admitted, whatever SESS is. -/
theorem entryRefusal_not_admitted {s : State} (h : s.cfg.wf = false) (p : Sess → Bool) :
    entryRefusal p s = some .configNotAdmitted := by
  simp [entryRefusal, h]

/-- Settles O8: R8 over the integers, and each of the four places that refuses any other configuration. -/
theorem configurationAdmission : Obligations.ConfigurationAdmission := by
  intro c
  refine ⟨wf_iff_integer_conditions c, fun hc s rest => ⟨fun hi hq => ?_, ?_⟩⟩
  · rw [step_session hi hq, beginSession_not_admitted hc]
  · rintro rfl
    refine ⟨?_, fun a n => ?_, ?_⟩
    · simp [exec, execInit, entryRefusal_not_admitted hc]
    · simp [exec, execPageWrite, entryRefusal_not_admitted hc]
    · simp [exec, execClose, entryRefusal_not_admitted hc]

end Sys2Proof.Machine
end

section
/-! The state (10_state.md): the reset values, which instruction a step runs, the moves of SESS, the empty channel at a return, the records that only grow. -/

namespace Sys2Proof.Machine

/-! Reset (R35). -/

/-- Settles O10: each reset value is a field of the reset state. -/
theorem resetValues : Obligations.ResetValues := ⟨rfl, rfl, rfl, rfl, rfl⟩

/-- Settles O47: the reset state is the start of a session with the configuration of reset and its image. -/
theorem resetMeetsTheInvariant : Obligations.ResetMeetsTheInvariant :=
  resetRegs_inv (c := Config.atReset) (s := State.reset) (by decide) rfl

/-! What a step runs (R27, R184). -/

/-- Outside a faulted state the block in S_IDLE serves the host (R27, R231). -/
theorem step_idle {s : State} (hf : s.faulted = false) (hq : s.seq = .idle) : step s = hostStep s := by
  simp [step, machineStep, hf, hq]

/-- Outside a faulted state a running call goes on by one inner step (R27). -/
theorem step_running {s : State} (hf : s.faulted = false) (hq : s.seq ≠ .idle) : step s = innerStep s := by
  simp [step, machineStep, hf, hq]

/-- A call of the host is its instruction (R83). -/
theorem callEntry_eq_exec (c : HostCall) (s : State) : callEntry c s = exec c.instr s := by
  cases c <;> rfl

/-- In S_IDLE the instruction fetched is the host call at the head of the inbox (R184). -/
theorem hostStep_of_fetch {s u : State} {i : Instr} (hq : s.seq = .idle) (h : fetch s = some (i, u)) :
    hostStep s = exec i u := by
  rw [fetch, if_pos hq] at h
  split at h
  · rename_i c rest hi
    obtain ⟨rfl, rfl⟩ := Prod.mk.inj (Option.some.inj h)
    rw [hostStep, hi]
    exact callEntry_eq_exec c _
  · simp at h

/-- With no acknowledgement outstanding the instruction fetched is the frame that SEQ names, run where the block stands (R27). -/
theorem seqPhase_of_fetch {s u : State} {i : Instr} (hq : s.seq ≠ .idle) (ha : s.ackpend.val = 0)
    (h : fetch s = some (i, u)) : seqPhase s = exec i u := by
  rw [fetch, if_neg hq, if_pos ha] at h
  split at h
  case h_1 hseq hmode =>
    obtain ⟨rfl, rfl⟩ := Prod.mk.inj (Option.some.inj h)
    simp only [seqPhase, hseq, hmode, exec]
  case h_2 hseq hhalf =>
    obtain ⟨d, hd, hiu⟩ := Option.map_eq_some_iff.1 h
    obtain ⟨rfl, rfl⟩ := Prod.mk.inj hiu
    simp only [seqPhase, fillPhase, hseq, hhalf, hd, exec]
  case h_3 hseq hhalf =>
    obtain ⟨rfl, rfl⟩ := Prod.mk.inj (Option.some.inj h)
    simp only [seqPhase, fillPhase, hseq, hhalf, exec]
  case h_4 hseq | h_5 hseq =>
    obtain ⟨rfl, rfl⟩ := Prod.mk.inj (Option.some.inj h)
    simp only [seqPhase, hseq, exec]
  case h_6 => simp at h

/-- The acknowledgement taken up by an inner step is the instruction that its byte is, followed by the sequencer's move (R82, R124). -/
theorem innerStep_ack {s : State} {b : Byte} {rest : List RxAnswer} (ha : s.ackpend.val ≠ 0)
    (hr : s.link.rxAnswers = .byte b :: rest) :
    innerStep s = andThen (exec (ackInstr b) (setRx rest s)) (fun t => .next (settle s.seq t)) := by
  simp only [innerStep, if_neg ha, hr, ackInstr]
  cases decodeAck b <;> rfl

/-- Inside an entry point an inner step runs the instruction fetched, and the sequencer moves on (R27, R164). -/
theorem innerStep_of_fetch {s u : State} {i : Instr} (hq : s.seq ≠ .idle) (h : fetch s = some (i, u)) :
    innerStep s = andThen (exec i u) (fun t => .next (settle s.seq t)) := by
  by_cases ha : s.ackpend.val = 0
  · rw [innerStep, if_pos ha, seqPhase_of_fetch hq ha h]
  · rw [fetch, if_neg hq, if_neg ha] at h
    split at h
    · rename_i b rest hr
      obtain ⟨rfl, rfl⟩ := Prod.mk.inj (Option.some.inj h)
      exact innerStep_ack ha hr
    · simp at h

/-- Settles O45, by whether an entry point runs. -/
theorem stepRunsTheFetchedInstruction : Obligations.StepRunsTheFetchedInstruction := by
  intro s u i hf h
  split
  case isTrue hq => rw [step_idle hf hq, hostStep_of_fetch hq h]
  case isFalse hq => rw [step_running hf hq, innerStep_of_fetch hq h]

/-! What a step that starts no session can be. -/

/-- Where the step would take a host input, none that starts a session stands first. -/
theorem not_session_of_startsSession {s : State} (hn : startsSession s = false) (hq : s.seq = .idle ∨ s.faulted = true)
    (c : Cfg) (r : List HostInput) : s.inbox ≠ .session c :: r := by
  intro hi
  rcases hq with hq | hf
  · simp [startsSession, hi, hq] at hn
  · simp [startsSession, hi, hf] at hn

/-- A faulted state answers a next state to the start of a session only (R211, R230). -/
theorem not_faulted_of_next {s t : State} (hn : startsSession s = false) (h : step s = .next t) : s.faulted = false := by
  by_contra hf
  have hf : s.faulted = true := by simpa using hf
  rw [step, machineStep, if_pos hf, faultedStep] at h
  split at h
  · rename_i c r hi
    exact not_session_of_startsSession hn (.inr hf) c r hi
  · simp at h

/-- A step that starts no session waits, takes an image, enters a host call, or goes on with a running one. -/
theorem step_kinds_no_session {s t : State} (hn : startsSession s = false) (h : step s = .next t) :
    t = s
    ∨ (s.seq = .idle ∧ ∃ im r, s.inbox = .image im :: r ∧ t = (s.setInbox r).setImg im.canon)
    ∨ (s.seq = .idle ∧ ∃ c r, s.inbox = .call c :: r ∧ callEntry c (s.setInbox r) = .next t)
    ∨ (s.seq ≠ .idle ∧ innerStep s = .next t) := by
  have hf := not_faulted_of_next hn h
  cases step_kinds hf h with
  | wait _ ht => exact .inl ht
  | image hq r im hi ht => exact .inr (.inl ⟨hq, im, r, hi, ht⟩)
  | session c r hi _ _ =>
    have hq : s.seq ≠ .idle := fun hq => not_session_of_startsSession hn (.inl hq) c r hi
    exact .inr (.inr (.inr ⟨hq, step_running hf hq ▸ h⟩))
  | call hq c r hi hcall => exact .inr (.inr (.inl ⟨hq, c, r, hi, hcall⟩))
  | inner hq hinner => exact .inr (.inr (.inr ⟨hq, hinner⟩))

/-- The next state of a running call is one that `CallRel` describes. -/
theorem innerStep_callRel {s t : State} (h : RunInv s) (hq : s.seq ≠ .idle) (hst : innerStep s = .next t) :
    CallRel s t := by
  obtain ⟨u, hu, -, hrel⟩ := innerStep_spec h hq
  exact Host.Outcome.next.inj (hu.symm.trans hst) ▸ hrel

/-- The next state of a host call is one that `CallEnd` describes. -/
theorem callEntry_callEnd {s t : State} (h : RunInv s) (hq : s.seq = .idle) (c : HostCall)
    (hst : callEntry c s = .next t) : CallEnd s t := by
  rcases callEntry_spec h hq c with ⟨r, hr⟩ | ⟨u, hu, -, hend⟩
  · simp [hr] at hst
  · exact Host.Outcome.next.inj (hu.symm.trans hst) ▸ hend

/-! The moves of SESS (R23). -/

theorem SessMove.refl (q : Sess) : SessMove q q := by cases q <;> trivial

/-- A running call leaves SESS, or moves it from IDLE to READY at INIT's return, or to ABORTED at a link error (R181, R203). -/
theorem CallRel.sessMove {s t : State} (h : CallRel s t) (hs : s.sess = .idle ∨ s.sess = .ready) :
    SessMove s.sess t.sess := by
  rcases h with ⟨-, hsame, -⟩ | ⟨-, hsame | ⟨hidle, hready⟩, -⟩ | ⟨_, _, _, -, -, -, -, -, -, -, haborted, -⟩
  · exact hsame ▸ SessMove.refl _
  · exact hsame ▸ SessMove.refl _
  · rw [hidle, hready]; trivial
  · rcases hs with hs | hs <;> rw [hs, haborted] <;> trivial

/-- A host call leaves SESS at a guard's return, halts it from READY, closes it from where CLOSE is admitted, or moves it as a running call does (R22, R23). -/
theorem CallEnd.sessMove {s t : State} (h : CallEnd s t) : SessMove s.sess t.sess := by
  rcases h with ⟨_, hguard⟩ | ⟨hready, hhalted, -⟩ | ⟨hcall, hs⟩ | ⟨hclosed, hs⟩
  · rw [hguard]; exact SessMove.refl _
  · rw [hready, hhalted]; trivial
  · exact hcall.sessMove hs
  · rw [hclosed]
    rcases hs with hs | hs | hs <;> rw [hs] <;> trivial

/-- Settles O51, by what a step that starts no session can be. -/
theorem sessionMoves : Obligations.SessionMoves := by
  intro s t h hst hn
  rcases step_kinds_no_session hn hst with rfl | ⟨-, im, r, -, rfl⟩ | ⟨hq, c, r, -, hcall⟩ | ⟨hq, hinner⟩
  · exact SessMove.refl _
  · exact SessMove.refl _
  · exact (callEntry_callEnd (h.run.setInbox r) hq c hcall).sessMove
  · exact (innerStep_callRel h.run hq hinner).sessMove (h.run.sess_of_running hq)

/-! The channel at a return (R34). -/

/-- A running call that has not come back to S_IDLE has returned no outcome (R200). -/
theorem CallRel.results_of_running {s t : State} (h : CallRel s t) (hq : t.seq ≠ .idle) : t.results = s.results := by
  rcases h with ⟨-, -, hresults, -⟩ | ⟨-, -, -, hidle⟩ | ⟨_, _, _, -, -, -, -, -, -, hidle, -⟩
  · exact hresults
  · exact absurd hidle hq
  · exact absurd hidle hq

/-- A host call that is still running has returned no outcome (R200). -/
theorem CallEnd.results_of_running {s t : State} (h : CallEnd s t) (hs : s.seq = .idle) (hq : t.seq ≠ .idle) :
    t.results = s.results := by
  rcases h with ⟨_, hguard⟩ | ⟨-, -, -, -, -, -, hidle, -⟩ | ⟨hcall, -⟩ | ⟨hclosed, -⟩
  · exact absurd (by rw [hguard]; exact hs) hq
  · exact absurd hidle hq
  · exact hcall.results_of_running hq
  · exact absurd (by rw [hclosed]; exact hs) hq

/-- A step that leaves an entry point running returns no outcome (R200). -/
theorem step_results_of_running {s t : State} (h : Inv s) (hst : step s = .next t) (hq : t.seq ≠ .idle) :
    t.results = s.results := by
  cases step_kinds h.no_invariant_fault hst with
  | wait _ ht => rw [ht]
  | image _ r im _ ht => rw [ht]; rfl
  | session c r _ _ ht => rw [ht]; rfl
  | call hs c r _ hcall => exact (callEntry_callEnd (h.run.setInbox r) hs c hcall).results_of_running hs hq
  | inner hs hinner => exact (innerStep_callRel h.run hs hinner).results_of_running hq

/-- In S_IDLE the invariant's own part for SEQ is R34. -/
theorem Inv.channelEmpty {s : State} (h : Inv s) (hq : s.seq = .idle) (hs : s.sess = .idle ∨ s.sess = .ready) :
    ChannelEmpty s := by
  have hp := h.phase
  simp only [PhaseInv, hq] at hp
  exact hp hs

/-- Settles O50: an outcome is returned in S_IDLE only, and there the invariant, which the step keeps, empties the channel. -/
theorem returnedCallsLeaveTheChannelEmpty : Obligations.ReturnedCallsLeaveTheChannelEmpty := by
  intro s t h hst hret hs
  have hq : t.seq = .idle := by
    by_contra hq
    exact hret.elim (fun hne => hne (step_results_of_running h hst hq)) hq
  obtain ⟨hpcnt, hackpend⟩ := (stepKeepsTheInvariant s t h hst).channelEmpty hq hs
  exact ⟨hpcnt, hackpend, hq⟩

/-! The records (R13, R20, R30). -/

/-- The part of `Grows` that speaks of the records: FAULTS, the events, the outcomes and the configuration. -/
theorem Grows.records {s t : State} (h : Grows s t) :
    (∀ c ∈ s.faults, c ∈ t.faults) ∧ (∃ es, t.events = s.events ++ es) ∧ (∃ rs, t.results = s.results ++ rs)
      ∧ t.cfg = s.cfg :=
  ⟨h.faults, h.events, h.results, h.cfg⟩

/-- Settles O53: a call only adds to the records, and taking a host input or an image touches none of them. -/
theorem recordsOnlyGrow : Obligations.RecordsOnlyGrow := by
  intro s t hst hn
  rcases step_kinds_no_session hn hst with rfl | ⟨-, im, r, -, rfl⟩ | ⟨-, c, r, -, hcall⟩ | ⟨-, hinner⟩
  · exact (Grows.refl _).records
  · exact (Grows.refl s).records
  · exact (leads_callEntry c (s.setInbox r) t hcall).records
  · exact (leads_innerStep s t hinner).records

end Sys2Proof.Machine
end

section
/-! The memory (20_memory.md): no step faults, the four bytes that the block writes, the bootloader's pages and bytes. -/

namespace Sys2Proof.Machine

/-! No fault (R52, R131, R211). -/

/-- From a state that meets the invariant the block in S_IDLE never faults: a call is refused or answers a next state, every other input is taken or refused. -/
theorem hostStep_ne_fault {s : State} (h : RunInv s) (hq : s.seq = .idle) (r : Fault) : hostStep s ≠ .fault r := by
  unfold hostStep
  split
  case h_1 | h_3 => simp
  case h_2 c rest _ =>
    rcases callEntry_spec (h.setInbox rest) hq c with ⟨q, href⟩ | ⟨t, ht, -⟩
    · simp [href]
    · simp [ht]
  case h_4 cfg rest _ =>
    unfold beginSession
    split <;> simp

/-- Settles O49: S_IDLE by what the host asks for, a running call by its inner step. -/
theorem noFaultFromTheInvariant : Obligations.NoFaultFromTheInvariant := by
  intro s r h
  by_cases hq : s.seq = .idle
  · rw [step_idle h.no_invariant_fault hq]
    exact hostStep_ne_fault h.run hq r
  · obtain ⟨t, ht, -⟩ := innerStep_spec h.run hq
    rw [step_running h.no_invariant_fault hq, ht]
    simp

/-! The bootloader code bytes (R58, R64). -/

/-- In S_IDLE nothing reads a bootloader byte: a handover replaces the image, a session start keeps it, and a call reads below R + 2 only. -/
theorem hostStep_mirror {m : Memory} {s : State} (h : RunInv s) (hq : s.seq = .idle)
    (hm : EqBelow (s.cfg.reservedStart + 2) s.img.mem m) :
    Mirrors (s.cfg.reservedStart + 2) (hostStep s) (hostStep (withMem m s)) := by
  unfold hostStep
  rw [show (withMem m s).inbox = s.inbox from rfl]
  split
  case h_1 => exact Mirrors.next hm
  case h_2 c rest _ => exact callEntry_mirror (h.setInbox rest) hq hm c
  case h_3 im rest _ =>
    have hwf := Image.mem_wf (Image.canon_wf im)
    exact Mirrors.next (t := (s.setInbox rest).setImg im.canon) ⟨fun _ _ => rfl, hwf, hwf⟩
  case h_4 cfg rest _ =>
    unfold beginSession
    split
    · exact Mirrors.next (t := resetRegs cfg (s.setInbox rest)) hm
    · intro t ht; simp at ht

/-- No step reads a bootloader code byte. -/
theorem step_mirror {m : Memory} {s : State} (h : Inv s) (hm : EqBelow (s.cfg.reservedStart + 2) s.img.mem m) :
    Mirrors (s.cfg.reservedStart + 2) (step s) (step (withMem m s)) := by
  have hf := h.no_invariant_fault
  by_cases hq : s.seq = .idle
  · rw [step_idle hf hq, step_idle (s := withMem m s) hf hq]
    exact hostStep_mirror h.run hq hm
  · rw [step_running hf hq, step_running (s := withMem m s) hf hq]
    exact innerStep_mirror h.run hq hm

/-- Settles O57: the step from the other image mirrors the step from this one. -/
theorem bootloaderBytesDoNotMatter : Obligations.BootloaderBytesDoNotMatter := by
  intro s t m h hm heq hst
  obtain ⟨k, hk, hbelow, -⟩ := step_mirror h ⟨heq, Image.mem_wf h.img_wf, hm⟩ t hst
  exact ⟨withMem k t, hk, rfl, hbelow⟩

/-! The four bytes (R53, R31). -/

/-- The part of `Grows` that speaks of the image: its bytes but at 0, 1, R and R+1, the tag and the sizes. -/
theorem Grows.image {s t : State} (h : Grows s t) :
    (∀ a, a ≠ 0 → a ≠ 1 → a ≠ s.cfg.reservedStart → a ≠ s.cfg.reservedStart + 1 →
      memRead t.img.mem a = memRead s.img.mem a)
    ∧ t.img.tag = s.img.tag ∧ t.img.size = s.img.size ∧ t.img.reserved = s.img.reserved :=
  ⟨h.bytes, h.tag, h.size, h.reserved⟩

/-- Settles O54: of the steps that start no session, only a handover and the writes of a call touch the image. -/
theorem imageChangesOnlyAtFourBytes : Obligations.ImageChangesOnlyAtFourBytes := by
  intro s t hst hn hi
  rcases step_kinds_no_session hn hst with rfl | ⟨hq, im, r, hin, -⟩ | ⟨-, c, r, -, hcall⟩ | ⟨-, hinner⟩
  · exact (Grows.refl _).image
  · simp [handsImage, hq, hin] at hi
  · exact (leads_callEntry c (s.setInbox r) t hcall).image
  · exact (leads_innerStep s t hinner).image

/-! The pages that are sent (R58, R64, R166). -/

/-- From a state that meets the invariant a step issues ERASE and WRITE frames only of pages that may be sent. -/
theorem step_adds {s t : State} (h : Inv s) (hst : step s = .next t) : Adds s t := by
  cases step_kinds h.no_invariant_fault hst with
  | wait _ ht => exact ht ▸ .refl s
  | image _ r im _ ht => exact ht ▸ .of rfl
  | session c r _ _ ht => exact ht ▸ .of rfl
  | call hq c r _ hcall => exact adds_call (h.run.setInbox r) hq c t hcall
  | inner hq hinner => exact adds_inner h.run hq hinner

/-- Settles O56: each new event is fine for every page address. -/
theorem bootloaderPagesAreNeverSent : Obligations.BootloaderPagesAreNeverSent := by
  intro s t h hst
  obtain ⟨es, hes, hfine⟩ := step_adds h hst
  exact ⟨es, hes, fun base => ⟨fun he => hfine _ he base (.inl rfl), fun he => hfine _ he base (.inr rfl)⟩⟩

end Sys2Proof.Machine
end

section
/-! The encoding (30_encoding.md): the decoder and the encoder are inverse to each other, and every step keeps the wire well formed. -/

namespace Sys2Proof

/-! The acknowledgement byte as an instruction (R82, R101). -/

theorem ackInstr_of_ne_zero {b : Byte} (hb : b ≠ 0x00#8) : ackInstr b = .ackViolation b := by
  simp only [ackInstr, decodeAck, if_neg hb]

/-! The decoder after the encoder. -/

/-- HANDSHAKE is the only instruction that a reader of the stream takes for another (R85). -/
theorem onWire_of_ne_handshake {i : Instr} (h : i ≠ .handshake) : i.onWire = i := by
  cases i
  case handshake => exact absurd rfl h
  all_goals rfl

/-- HANDSHAKE is bit-identical to LOAD 0x00, 0x00 (R85). -/
theorem encode_onWire (i : Instr) : encode i.onWire = encode i := by
  by_cases h : i = .handshake
  · subst h; rfl
  · rw [onWire_of_ne_handshake h]

/-- The decoder reads the encoding of a well-formed instruction as what the instruction is on the wire (R82 to R85).
Only the operand of ACK_VIOLATION needs its range: the byte 0x00 is ACK_SUCCESS. -/
theorem decode_encode {c : Cfg} {i : Instr} (h : i.wf c = true) : decode (encode i) = .ok i.onWire := by
  cases i with
  | load d0 d1 => exact decodeFrame_frameLoad d0 d1
  | fill off => exact decodeFrame_frameFill off
  | erase base => exact decodeFrame_frameErase base
  | write base => exact decodeFrame_frameWrite base
  | handshake => exact decodeFrame_frameHandshake
  | ackViolation b => exact congrArg Except.ok (ackInstr_of_ne_zero (of_decide_eq_true h))
  | ackSuccess | init | pageWrite | close => rfl

/-- Settles O4, by the round trip of each instruction and HANDSHAKE's shared bits. -/
theorem decodeOfEncode : Obligations.DecodeOfEncode := fun _ i h =>
  ⟨decode_encode h, onWire_of_ne_handshake, encode_onWire i⟩

/-! The encoder after the decoder. -/

/-- A frame whose checksum holds is the encoder's frame of its payload and command (R100). -/
theorem enc_eq_of_checksum {f : Frame} {c : Byte} (hsum : f.b2 = f.b0 ^^^ f.b1 ^^^ f.b3) (hc : f.b3 = c) :
    enc f.b0 f.b1 c = f := by
  cases f
  simp only at hsum hc
  simp only [enc, hsum, hc]

/-- The encoder's frame of a 16-bit operand, given by its two payload bytes (R54). -/
@[simp] theorem enc_lo_hi_word16 (l h c : Byte) : enc (lo (word16 l h)) (hi (word16 l h)) c = enc l h c := by
  rw [lo_word16, hi_word16]

/-- A frame that the classifier accepts is the encoding of what it is read as: its checksum holds, and its command byte is one of the four (R84, R103). -/
theorem encode_of_decodeFrame {f : Frame} {i : Instr} (h : decodeFrame f = .ok i) : encode i = .frame f := by
  by_cases hsum : f.b2 = f.b0 ^^^ f.b1 ^^^ f.b3
  · rw [decodeFrame, if_neg (not_not_intro hsum)] at h
    split_ifs at h with hload hfill herase hwrite <;> obtain rfl := Except.ok.inj h
    · exact congrArg Transaction.frame (enc_eq_of_checksum hsum hload)
    · exact congrArg Transaction.frame ((enc_lo_hi_word16 ..).trans (enc_eq_of_checksum hsum hfill))
    · exact congrArg Transaction.frame ((enc_lo_hi_word16 ..).trans (enc_eq_of_checksum hsum herase))
    · exact congrArg Transaction.frame ((enc_lo_hi_word16 ..).trans (enc_eq_of_checksum hsum hwrite))
  · simp [decodeFrame, hsum] at h

/-- Every byte is the encoding of the acknowledgement it is read as (R82, R101). -/
theorem encode_ackInstr (b : Byte) : encode (ackInstr b) = .ack b := by
  by_cases hb : b = 0x00#8
  · subst hb; rfl
  · rw [ackInstr_of_ne_zero hb]; rfl

/-- A host call that decodes has the arguments of its entry point (R83). -/
theorem encode_of_decodeHostOp {op : HostOp} {args : List Nat} {i : Instr} (h : decodeHostOp op args = .ok i) :
    encode i = .hostop op args := by
  unfold decodeHostOp at h
  split at h
  case h_4 => simp at h
  all_goals obtain rfl := Except.ok.inj h; rfl

/-- Settles O5, by the three kinds of transaction. -/
theorem encodeOfDecode : Obligations.EncodeOfDecode := by
  intro x i h
  cases x with
  | frame f => exact encode_of_decodeFrame h
  | ack b => exact Except.ok.inj h ▸ encode_ackInstr b
  | hostop op args => exact encode_of_decodeHostOp h

/-- Settles O7: the decoder runs on each of the written-out words. -/
theorem writtenOutWordsDecode : Obligations.WrittenOutWordsDecode :=
  ⟨by decide, by decide, by decide, by decide, by decide, by decide, by decide, by decide⟩

end Sys2Proof

namespace Sys2Proof.Machine

/-! The wire (R91, R103, R131). -/

/-- The start of a session empties the buffer and sends nothing (R35, R230). -/
theorem wire_resetRegs {s : State} (h : WireOk s) (c : Cfg) : WireOk (resetRegs c s) := by
  obtain ⟨-, hevents⟩ := h
  refine ⟨fun f hf => ?_, hevents⟩
  have hempty : queued (resetRegs c s) = [] := List.take_zero
  simp [hempty] at hf

/-- A session start that is admitted resets the registers. -/
theorem wire_beginSession {s : State} (h : WireOk s) (c : Cfg) : Leads WireOk (beginSession c s) := by
  unfold beginSession
  split
  · exact Leads.next (wire_resetRegs h c)
  · intro t ht; simp at ht

/-- A faulted state goes on by a session start only (R211, R230). -/
theorem wire_faultedStep {s : State} (h : WireOk s) : Leads WireOk (faultedStep s) := by
  unfold faultedStep
  split
  · rename_i c rest _
    exact wire_beginSession (s := s.setInbox rest) h c
  · intro t ht; simp at ht

/-- Settles O55, by the kinds of step; only a host call and a running one transmit. -/
theorem stepKeepsTheWireWellFormed : Obligations.StepKeepsTheWireWellFormed := by
  intro s t h hst
  cases hf : s.faulted with
  | true =>
    rw [step, machineStep, if_pos hf] at hst
    exact wire_faultedStep h t hst
  | false =>
    cases step_kinds hf hst with
    | wait _ ht => exact ht ▸ h
    | image _ r im _ ht => exact ht ▸ h
    | session c r _ _ ht => exact ht ▸ wire_resetRegs (s := s.setInbox r) h c
    | call _ c r _ hcall => exact wire_call (s := s.setInbox r) h c t hcall
    | inner _ hinner => exact wire_inner h t hinner

end Sys2Proof.Machine
end

section
/-! The frame codec (40_frame_codec.md): the encoder and its checksum, every acknowledgement byte, and the names under which frames are rejected. -/

namespace Sys2Proof

/-! The encoder (R100). -/

/-- Settles O1: both sides are the encoder's definition. -/
theorem encoderBuildsTheFourBytes : Obligations.EncoderBuildsTheFourBytes := fun _ _ _ => ⟨rfl, rfl⟩

/-! The checksum (R102). -/

/-- The encoder's checksum is the only byte that makes the four bytes XOR to zero. -/
theorem eq_enc_b2_of_xor_eq_zero {pl ph c cs : Byte} (h : pl ^^^ ph ^^^ cs ^^^ c = 0#8) : cs = (enc pl ph c).b2 := by
  have hsame : pl ^^^ ph ^^^ cs ^^^ c = pl ^^^ ph ^^^ (enc pl ph c).b2 ^^^ c := h.trans (enc_xor pl ph c).symm
  exact (BitVec.xor_right_inj _).mp ((BitVec.xor_left_inj _).mp hsame)

theorem enc_b2_xor_payloadLow (pl ph c m : Byte) : (enc (pl ^^^ m) ph c).b2 = (enc pl ph c).b2 ^^^ m := by
  simp only [enc]; ac_rfl

theorem enc_b2_xor_payloadHigh (pl ph c m : Byte) : (enc pl (ph ^^^ m) c).b2 = (enc pl ph c).b2 ^^^ m := by
  simp only [enc]; ac_rfl

theorem enc_b2_xor_command (pl ph c m : Byte) : (enc pl ph (c ^^^ m)).b2 = (enc pl ph c).b2 ^^^ m := by
  simp only [enc]; ac_rfl

/-- Settles O2: a changed input changes the checksum by the same bits, so two inputs changed alike cancel. -/
theorem checksumLaws : Obligations.ChecksumLaws := by
  intro pl ph c m
  refine ⟨enc_xor pl ph c, fun _ => eq_enc_b2_of_xor_eq_zero, enc_b2_xor_payloadLow .., enc_b2_xor_payloadHigh ..,
    enc_b2_xor_command .., ?_, ?_, ?_⟩
  · rw [enc_b2_xor_payloadLow, enc_b2_xor_payloadHigh, xor_cancel_right]
  · rw [enc_b2_xor_payloadLow, enc_b2_xor_command, xor_cancel_right]
  · rw [enc_b2_xor_payloadHigh, enc_b2_xor_command, xor_cancel_right]

/-! The acknowledgement decoder (R101). -/

/-- Settles O3: the decoder asks only whether the byte is 0x00. -/
theorem ackDecoderIsTotal : Obligations.AckDecoderIsTotal :=
  ⟨rfl, rfl, fun _ hb => ⟨if_neg hb, congrArg Except.ok (ackInstr_of_ne_zero hb)⟩⟩

/-! The frame classifier (R103). -/

/-- The checksum is checked before the command byte is looked at. -/
theorem decodeFrame_of_not_checksum {f : Frame} (hsum : f.b2 ≠ f.b0 ^^^ f.b1 ^^^ f.b3) :
    decodeFrame f = .error .badChecksum := if_pos hsum

/-- No frame of the encoder is rejected for its checksum, whatever its command byte (R100). -/
theorem decodeFrame_enc_ne_badChecksum (pl ph c : Byte) : decodeFrame (enc pl ph c) ≠ .error .badChecksum := by
  rw [decodeFrame_enc]
  split_ifs <;> simp

/-- A frame of the encoder is rejected exactly when its command byte is none of the four codes (R88). -/
theorem decodeFrame_enc_eq_unknownCmd_iff (pl ph c d : Byte) :
    decodeFrame (enc pl ph c) = .error (.unknownCmd d) ↔
      c = d ∧ d ≠ 0x00#8 ∧ d ≠ 0x01#8 ∧ d ≠ 0x03#8 ∧ d ≠ 0x05#8 := by
  rw [decodeFrame_enc]
  constructor
  · intro h
    split_ifs at h with hload hfill herase hwrite
    obtain rfl : c = d := by simpa using h
    exact ⟨rfl, hload, hfill, herase, hwrite⟩
  · rintro ⟨rfl, hload, hfill, herase, hwrite⟩
    rw [if_neg hload, if_neg hfill, if_neg herase, if_neg hwrite]

theorem decodeFrame_eq_badChecksum_iff (f : Frame) :
    decodeFrame f = .error .badChecksum ↔ f.b2 ≠ f.b0 ^^^ f.b1 ^^^ f.b3 := by
  refine ⟨fun hbad hsum => ?_, decodeFrame_of_not_checksum⟩
  rw [← enc_eq_of_checksum hsum rfl] at hbad
  exact decodeFrame_enc_ne_badChecksum _ _ _ hbad

theorem decodeFrame_eq_unknownCmd_iff (f : Frame) (c : Byte) :
    decodeFrame f = .error (.unknownCmd c) ↔
      f.b2 = f.b0 ^^^ f.b1 ^^^ f.b3 ∧ f.b3 = c ∧ c ≠ 0x00#8 ∧ c ≠ 0x01#8 ∧ c ≠ 0x03#8 ∧ c ≠ 0x05#8 := by
  by_cases hsum : f.b2 = f.b0 ^^^ f.b1 ^^^ f.b3
  · have henc := decodeFrame_enc_eq_unknownCmd_iff f.b0 f.b1 f.b3 c
    rw [enc_eq_of_checksum hsum rfl] at henc
    exact henc.trans (and_iff_right hsum).symm
  · rw [decodeFrame_of_not_checksum hsum]
    simp [hsum]

/-- Settles O6: a frame whose checksum fails is BAD_CHECKSUM, and any other is the encoder's frame of its command byte. -/
theorem classifierRejectsByName : Obligations.ClassifierRejectsByName := fun f =>
  ⟨decodeFrame_eq_badChecksum_iff f, decodeFrame_eq_unknownCmd_iff f⟩

end Sys2Proof
end

section
/-! The Pipelined Ack Channel (41_ack_channel.md): submit, the batch of eight, the unbuffered exchange, one acknowledgement, the flush, and the counts of a page pass. -/

namespace Sys2Proof.Machine

/-! Submit (R120). -/

theorem enqueue_eq (f : Frame) (s : State) (h : s.pcnt.val < 8) :
    enqueue f s h = { s with pbuf := s.pbuf.set s.pcnt.val f h, pcnt := ⟨s.pcnt.val + 1, by omega⟩ } := rfl

/-- Settles O12: below capacity `submit` is the append to PBUF. -/
theorem submitBelowCapacityQueues : Obligations.SubmitBelowCapacityQueues := by
  intro i f s hi ha hp
  refine ⟨enqueue f s (by omega), ?_, rfl, rfl, enqueue_pbuf f s _⟩
  rw [exec_pipelined hi, submit_below ha hp]

/-! The batch of eight (R121). -/

/-- The eighth LOAD or FILL transmits the seven frames queued and its own, eight acknowledgements outstanding. -/
theorem exec_pipelined_full {i : Instr} {f : Frame} {s : State} (hi : PipelinedFrame i f) (ha : s.ackpend.val = 0)
    (hp : s.pcnt.val = 7) :
    exec i s = .next (transmit (batchBytes (s.pbuf.toList.take 7 ++ [f])) 8 (enqueue f s (by omega))) := by
  have hk : (enqueue f s (by omega)).pcnt = 8 := Fin.ext (congrArg (· + 1) hp)
  rw [exec_pipelined hi, submit_full ha hp, transmitAndReconcile, queued_enqueue, hk]
  simp only [queued, hp]

/-- The eighth frame stands at PBUF[7], the other entries are unchanged. -/
theorem enqueue_pbuf_seven {s : State} (hp : s.pcnt.val = 7) (f : Frame) (j : Fin 8) :
    (enqueue f s (by omega)).pbuf[j] = if j.val = 7 then f else s.pbuf[j] := by
  rw [enqueue_pbuf, hp]

/-- The eighth frame takes PCNT to 8. -/
theorem enqueue_full_eq {s : State} (hp : s.pcnt.val = 7) (f : Frame) :
    enqueue f s (by omega) = { s with pbuf := (enqueue f s (by omega)).pbuf, pcnt := 8 } := by
  have hk : (⟨s.pcnt.val + 1, by omega⟩ : Fin 9) = 8 := Fin.ext (congrArg (· + 1) hp)
  rw [enqueue_eq, hk]

/-- Settles O13: the transmission of the batch with eight successes. -/
theorem submitAtCapacitySendsTheBatch : Obligations.SubmitAtCapacitySendsTheBatch := by
  intro i f s rest hi ha hp htx hrx
  have ha0 : s.ackpend = 0 := Fin.ext ha
  refine ⟨_, exec_pipelined_full hi ha hp, ?_⟩
  rw [transmit_success (k := 8) (s := enqueue f s (by omega)) (by decide) htx hrx]
  refine ⟨?_, enqueue_pbuf_seven hp f⟩
  rw [enqueue_full_eq hp]; simp only [ha0]; rfl

/-- Settles O14: the transmission of the batch with a failed send. -/
theorem failedBatchSendAborts : Obligations.FailedBatchSendAborts := by
  intro i f s hi ha hp htx
  refine ⟨_, exec_pipelined_full hi ha hp, ?_⟩
  rw [transmit_fail (s := enqueue f s (by omega)) htx]
  refine ⟨?_, enqueue_pbuf_seven hp f⟩
  rw [enqueue_full_eq hp]; rfl

/-- Settles O15: the transmission of the batch whose acknowledgement `j` fails. -/
theorem batchStopsAtFirstFailure : Obligations.BatchStopsAtFirstFailure := by
  intro i f s j a c rest hi ha hp htx hj hc hrx
  refine ⟨_, exec_pipelined_full hi ha hp, ?_⟩
  rw [transmit_failure (k := 8) (s := enqueue f s (by omega)) hj hc htx hrx]
  refine ⟨?_, rfl, enqueue_pbuf_seven hp f⟩
  rw [enqueue_full_eq hp]

/-! The unbuffered exchange (R130). -/

/-- On an empty channel ERASE, WRITE and HANDSHAKE transmit their frame, one acknowledgement outstanding. -/
theorem exec_unbuffered_empty {i : Instr} {f : Frame} {s : State} (hi : UnbufferedFrame i f) (he : ChannelEmpty s) :
    exec i s = .next (transmit [f.b0, f.b1, f.b2, f.b3] 1 s) := by
  rw [exec_unbuffered hi, sendUnbuffered_empty he.1 he.2, Frame.bytes]

/-- Settles O16: the counts that the exchange sets to 0 were 0. -/
theorem unbufferedExchangeCompletes : Obligations.UnbufferedExchangeCompletes := by
  intro i f s rest hi he htx hrx
  have hp0 : s.pcnt = 0 := Fin.ext he.1
  have ha0 : s.ackpend = 0 := Fin.ext he.2
  rw [exec_unbuffered_empty hi he, transmit_success (k := 1) (by decide) htx hrx]
  simp only [hp0, ha0]; rfl

/-- Settles O17: the failing call is the send, or the one read. -/
theorem unbufferedExchangeFails : Obligations.UnbufferedExchangeFails := by
  intro i f s hi he
  refine ⟨fun htx => ?_, fun a c rest htx hc hrx => ?_⟩
  · rw [exec_unbuffered_empty hi he, transmit_fail htx]; rfl
  · rw [exec_unbuffered_empty hi he, transmit_failure (k := 1) (j := 0) (by decide) hc htx hrx]; simp

/-! One acknowledgement (R124). -/

/-- Settles O18: the last outstanding acknowledgement also empties the buffer. -/
theorem ackSuccessCountsOff : Obligations.AckSuccessCountsOff := by
  intro s ha
  refine ⟨receiveAck 0x00#8 s, rfl, ?_⟩
  rw [receiveAck_success ha]
  refine ⟨rfl, Nat.succ_pred ha, ?_⟩
  exact apply_ite Fin.val _ _ _

/-- Settles O19: the byte's protocol violation is raised as a link error. -/
theorem ackViolationAborts : Obligations.AckViolationAborts := by
  intro b s hb ha
  have hv : exec (.ackViolation b) s = .next (receiveAck b s) := rfl
  rw [hv, receiveAck_violation ha hb, raiseLink_eq]
  rfl

/-! The flush (R125, R126). -/

/-- Settles O20: a flush is no operation, or one transmission of what is queued. -/
theorem flushForcesThePartialBatch : Obligations.FlushForcesThePartialBatch := by
  intro s ha
  have ha0 : s.ackpend = 0 := Fin.ext ha
  refine ⟨flush_empty ha, fun rest hp htx hrx => ?_⟩
  rw [flush_some ha hp, transmitAndReconcile, transmit_success hp htx hrx, ← ha0, queued]

/-! The counts of a page pass (R132, R165). -/

/-- An unbuffered exchange has the events of a batch of one frame. -/
theorem exchangeEvents_eq_batchEvents (f : Frame) : exchangeEvents f = batchEvents [f] := by
  simp [exchangeEvents, batchEvents, batchBytes]

section
variable {p : Event → Bool} {tx rx : Bool} (htx : ∀ bytes, p (.tx bytes) = tx) (hrx : ∀ a, p (.rx a) = rx)
include htx hrx

/-- One batch is one `Tx` and one `Rx` for each frame. -/
theorem countP_batchEvents (fs : List Frame) : (batchEvents fs).countP p = tx.toNat + rx.toNat * fs.length := by
  simp only [batchEvents, List.countP_cons, List.countP_replicate, htx, hrx]
  cases tx <;> cases rx <;> simp [Nat.add_comm]

theorem countP_fullBatches (fs : List Frame) (n : Nat) (hn : 8 * n ≤ fs.length) :
    (fullBatches fs n).countP p = n * (tx.toNat + rx.toNat * 8) := by
  induction n with
  | zero => simp [fullBatches]
  | succ n ih =>
    have hl : ((fs.drop (8 * n)).take 8).length = 8 := by simp; omega
    rw [fullBatches_succ, List.countP_append, ih (by omega), countP_batchEvents htx hrx, hl, Nat.succ_mul]

/-- The batches of a fill are its frames in eights, and one more for what is left. -/
theorem countP_batches (fs : List Frame) :
    ((batches fs).flatMap batchEvents).countP p
      = tx.toNat * (fs.length / 8 + if fs.length % 8 = 0 then 0 else 1) + rx.toNat * fs.length := by
  have hdiv := Nat.div_add_mod fs.length 8
  have hdrop : (fs.drop (8 * (fs.length / 8))).length = fs.length % 8 := by rw [List.length_drop]; omega
  have hlen : rx.toNat * fs.length = rx.toNat * (8 * (fs.length / 8)) + rx.toNat * (fs.length % 8) := by
    rw [← Nat.mul_add, hdiv]
  rw [batches_events, List.countP_append, countP_fullBatches htx hrx _ _ (by omega), hlen]
  split
  case isTrue h => rw [h, List.countP_nil]; ring
  case isFalse h => rw [countP_batchEvents htx hrx, hdrop]; ring

theorem countP_exchangeEvents (f : Frame) : (exchangeEvents f).countP p = tx.toNat + rx.toNat := by
  rw [exchangeEvents_eq_batchEvents, countP_batchEvents htx hrx, List.length_singleton, Nat.mul_one]

/-- The events of a page pass that a predicate counts which looks only at whether an event is a `Tx` or an `Rx`. -/
theorem countP_pageEvents (read : Nat → Byte) (base : Nat) {size : Nat} (h : size % 2 = 0) :
    (pageEvents read base size).countP p = tx.toNat * pageTxCount size + rx.toNat * pageRxCount size := by
  rw [pageEvents, List.countP_append, List.countP_append, countP_batches htx hrx, countP_exchangeEvents htx hrx,
    countP_exchangeEvents htx hrx, fillFrames_length read base h, pageTxCount, pageRxCount]
  ring

end

/-- Settles O35: the count of the `Tx` events, of the `Rx` events, and of both. -/
theorem pagePassEventCounts : Obligations.PagePassEventCounts := by
  intro read base size h _
  simp only [← List.countP_eq_length_filter]
  refine ⟨?_, ?_, ?_⟩
  · rw [countP_pageEvents (tx := true) (rx := false) (fun _ => rfl) (fun _ => rfl) read base h]
    simp [pageTxCount]
  · rw [countP_pageEvents (tx := false) (rx := true) (fun _ => rfl) (fun _ => rfl) read base h]
    simp [pageRxCount]
  · rw [← List.countP_true, countP_pageEvents (tx := true) (rx := true) (fun _ => rfl) (fun _ => rfl) read base h]
    simp

end Sys2Proof.Machine
end

section
/-! The Page Writer (42_page_writer.md): the guards, the redirected vector, the rewrite of the four image bytes, and the page passes. -/

namespace Sys2Proof.Machine

/-! The guards (R140 to R144). -/

/-- A request whose guards end the call returns there: nothing is left to run. -/
theorem exec_pageWrite_of_guard {s t : State} {a n : Nat} (h : PageWriteAdmitted s)
    (hguard : guardPhase a n (requested a n s) = .next t) (hidle : t.seq = .idle) :
    exec (.pageWrite a n) s = .next t := by
  rw [exec_pageWrite h, hguard, andThen_next, runCall_idle hidle]

/-- A guard's own return writes the request registers and the outcome only: SEQ is back where it was (R180). -/
theorem finish_requested_eq {s : State} (hseq : s.seq = .idle) (r : Result) (a n : Nat) :
    finish r (requested a n s) =
      { s with
        pw := { s.pw with addr := latch17 a, count := latch17 n }
        results := s.results ++ [r] } := by
  rw [finish_eq, requested_eq, ← hseq]

/-- Settles O24: the tag is the first guard, and what it returns writes no other register. -/
theorem otherMemoryClassIsUnsupported : Obligations.OtherMemoryClassIsUnsupported := by
  intro s a n h htag
  obtain ⟨-, -, hseq, -⟩ := h.1
  refine ⟨_, exec_pageWrite_of_guard h (guardPhase_unsupported htag) rfl, ?_, latch17_toNat, latch17_toNat⟩
  rw [finish_requested_eq hseq]

/-- Settles O25: the second guard raises the policy violation. -/
theorem reservedRegionRequestHalts : Obligations.ReservedRegionRequestHalts := by
  intro s a n h htag ha
  obtain ⟨-, -, hseq, -⟩ := h.1
  refine ⟨_, exec_pageWrite_of_guard h (guardPhase_reserved htag ha) rfl, ?_⟩
  rw [raisePolicy_eq, requested_eq, ← hseq]

/-- Settles O26: the third guard returns the count it was given. -/
theorem pairedPageIsSilentSuccess : Obligations.PairedPageIsSilentSuccess := by
  intro s a n h htag hlo hhi
  obtain ⟨-, -, hseq, -⟩ := h.1
  refine ⟨_, exec_pageWrite_of_guard h (guardPhase_paired htag hhi hlo) rfl, ?_⟩
  rw [finish_requested_eq hseq]

/-- An address up to R − S lies below R, since S is positive (R59). -/
theorem lt_reservedStart_of_le {c : Cfg} (h : c.wf = true) {a : Nat} (ha : a ≤ c.reservedStart - c.pageSize) :
    a < c.reservedStart := by
  have hend := Cfg.wf_page_end h ha
  obtain ⟨hS, -⟩ := Cfg.wf_sizes h
  omega

/-- Settles O27: the request passes the three guards and fails R144's precondition. -/
theorem partialOrUnalignedRequestIsRefused : Obligations.PartialOrUnalignedRequestIsRefused := by
  intro s a n h htag ha hreq
  obtain ⟨hwf, -⟩ := h.1
  rw [exec_pageWrite h,
    guardPhase_partial (s := requested a n s) htag (lt_reservedStart_of_le hwf ha) ha hreq, andThen_refused]

/-! The redirected vector (R151, R154, U14, R158). -/

theorem isRelativeJump_iff (w : Word) : isRelativeJump w = true ↔ w.toNat / 0x1000 = 0xC := decide_eq_true_iff

/-- An offset that fits the twelve bits below the nibble 0xC is added to it. -/
theorem rjmpWord_toNat {k : Nat} (h : k < 2 ^ 12) : (0xC000#16 ||| BitVec.ofNat 16 k).toNat = 0xC000 + k := by
  rw [BitVec.toNat_or, BitVec.toNat_ofNat (x := k), Nat.mod_eq_of_lt (h.trans (by decide))]
  exact (Nat.two_pow_add_eq_or_of_lt h 0xC).symm

/-- The redirected vector is the number of its mode (R154, U14). -/
theorem redirectedVector_toNat (c : Cfg) (orig : Word) : (redirectedVector c orig).toNat = vectorNumber c orig := by
  unfold redirectedVector vectorNumber
  cases c.redirect with
  | field12 => exact rjmpWord_toNat (Nat.mod_lt _ (by decide))
  | add16 => exact BitVec.toNat_ofNat ..

theorem vectorNumber_field12 {c : Cfg} (h : c.redirect = .field12) (orig : Word) :
    vectorNumber c orig = 0xC000 + (orig.toNat % 0x1000 + c.reservedSize / 2) % 0x1000 := by
  rw [vectorNumber, h]

theorem vectorNumber_add16 {c : Cfg} (h : c.redirect = .add16) (orig : Word) :
    vectorNumber c orig = (orig.toNat + c.reservedSize / 2) % 0x10000 := by
  rw [vectorNumber, h]

/-- Settles O29: what is added to 0xC000 stays below 0x1000. -/
theorem vectorAddsInTheOffsetField : Obligations.VectorAddsInTheOffsetField := by
  intro c orig h
  have hvec := (redirectedVector_toNat c orig).trans (vectorNumber_field12 h orig)
  refine ⟨hvec, ?_⟩
  rw [isRelativeJump_iff, hvec]
  omega

/-- Settles O30: without a carry out of the offset field the add leaves the nibble as it is. -/
theorem redirectModesAgreeOutsideTheBand : Obligations.RedirectModesAgreeOutsideTheBand := by
  intro c d orig hc hd hsize
  have hvec := (redirectedVector_toNat d orig).trans (vectorNumber_add16 hd orig)
  refine ⟨hvec, fun hjump hband => BitVec.eq_of_toNat_eq ?_⟩
  rw [isRelativeJump_iff] at hjump
  rw [hvec, redirectedVector_toNat, vectorNumber_field12 hc]
  omega

/-- In a flash whose word count divides 0x1000 a relative jump adds the whole word: neither the sign of the offset nor the
bits above it matter. -/
theorem rjmpTarget_of_dvd {n : Nat} (h : n ∣ 0x1000) (p : Nat) (w : Word) :
    rjmpTarget n p w = ((p + w.toNat + 1) % n : Nat) := by
  have hn := Int.natCast_dvd_natCast.2 h
  rw [Int.natCast_mod (p + w.toNat + 1)]
  unfold rjmpTarget
  refine Int.ModEq.of_dvd hn ?_
  rw [Int.ModEq]
  split <;> omega

/-- In the default mode the vector is the sum of the entry word and V/2 but for multiples of 0x1000 (R154). -/
theorem redirectedVector_modEq {c : Cfg} (h : c.redirect = .field12) (orig : Word) :
    (redirectedVector c orig).toNat ≡ orig.toNat + c.reservedSize / 2 [MOD 0x1000] := by
  rw [redirectedVector_toNat, vectorNumber_field12 h, Nat.ModEq]
  omega

/-- N and V are even, so R/2 and V/2 make up the N/2 words of the flash. -/
theorem reservedStart_half_add {c : Cfg} (h : c.wf = true) :
    c.reservedStart / 2 + c.reservedSize / 2 = c.imageSize / 2 := by
  obtain ⟨hS, -, hN, -, -, hV, -⟩ := (Cfg.wf_iff c).1 h
  obtain ⟨-, -, -, hV2, hR, -⟩ := Cfg.wf_sizes h
  have hS2 : 2 ∣ c.pageSize := Nat.dvd_of_mod_eq_zero hS
  have hN2 : 2 ∣ c.imageSize := hS2.trans (Nat.dvd_of_mod_eq_zero hN)
  have hV3 : 2 ∣ c.reservedSize - 2 := hS2.trans (Nat.dvd_of_mod_eq_zero hV)
  omega

/-- Settles O31: the jump moves up by R/2 words and its offset by V/2, together once around the flash. -/
theorem redirectionKeepsTheTarget : Obligations.RedirectionKeepsTheTarget := by
  intro c orig hwf hmode hdiv
  have hn : c.imageSize / 2 ∣ 0x1000 := Nat.dvd_of_mod_eq_zero hdiv
  have hvec := (redirectedVector_modEq hmode orig).of_dvd hn
  have hsum := reservedStart_half_add hwf
  rw [rjmpTarget_of_dvd hn, rjmpTarget_of_dvd hn]
  refine congrArg Nat.cast ?_
  calc c.reservedStart / 2 + (redirectedVector c orig).toNat + 1
    _ ≡ c.reservedStart / 2 + (orig.toNat + c.reservedSize / 2) + 1 [MOD c.imageSize / 2] :=
        (hvec.add_left _).add_right _
    _ = 0 + orig.toNat + 1 + c.imageSize / 2 := by omega
    _ ≡ 0 + orig.toNat + 1 [MOD c.imageSize / 2] := Nat.add_modEq_right

/-! The redirection of page 0 (R150 to R157). -/

/-- The entry word is the little-endian word of the image's first two bytes (R55, R150). -/
theorem entryWord_eq {s : State} {orig : Word}
    (h : orig.toNat = (memRead s.img.mem 0).toNat + 0x100 * (memRead s.img.mem 1).toNat) : entryWord s = orig := by
  refine BitVec.eq_of_toNat_eq ?_
  rw [entryWord, word16_toNat, h]
  omega

/-- A page-0 request passes the guards and comes to the redirection (R145). -/
theorem exec_pageWrite_zero {s : State} (h : PageWriteAdmitted s) (htag : s.img.tag = "flash") :
    exec (.pageWrite 0 s.cfg.pageSize) s
      = andThen (redirectPhase ((requested 0 s.cfg.pageSize s).setSeq .redirect)) runCall := by
  have hpos : 0 < s.cfg.reservedStart := lt_reservedStart_of_le h.1.1 (Nat.zero_le _)
  rw [exec_pageWrite h]
  exact congrArg (andThen · runCall) (guardPhase_zero (s := requested 0 s.cfg.pageSize s) htag hpos)

/-- Settles O28: the check comes before the image writes. -/
theorem badEntryWordHalts : Obligations.BadEntryWordHalts := by
  intro s orig h htag horig hnibble
  obtain ⟨hwf, -, hseq, -⟩ := h.1
  obtain rfl := entryWord_eq horig
  have hjump : isRelativeJump (entryWord s) = false := by
    rw [Bool.eq_false_iff, ne_eq, isRelativeJump_iff]
    exact hnibble
  have hbad := redirectPhase_bad (s := (requested 0 s.cfg.pageSize s).setSeq .redirect) hwf h.2.1 hjump
  refine ⟨_, by rw [exec_pageWrite_zero h htag, hbad, andThen_next, runCall_idle rfl], ?_⟩
  rw [raisePolicy_eq, ← hseq]
  rfl

/-! An accepted page-0 request, whatever the link answers (R152 to R157). -/

/-- The state in which the pass of RESV_PAGE is started: the entry word captured, the four image bytes written (R150 to R155). -/
def rewritten (s : State) : State :=
  { requested 0 s.cfg.pageSize s with
    pw := { (requested 0 s.cfg.pageSize s).pw with orig := entryWord s }
    img := redirectedImage s.cfg (redirectedVector s.cfg (entryWord s)) s.img
    events := s.events ++ redirectEvents s.cfg (redirectedVector s.cfg (entryWord s)) }

theorem rewritten_eq (s : State) : rewritten s =
    { s with
      seq := .guard
      pw := { s.pw with addr := latch17 0, count := latch17 s.cfg.pageSize, orig := entryWord s }
      img := redirectedImage s.cfg (redirectedVector s.cfg (entryWord s)) s.img
      events := s.events ++ redirectEvents s.cfg (redirectedVector s.cfg (entryWord s)) } := rfl

/-- A page-0 request whose entry word passes the check runs from there (R145, R156). -/
theorem exec_pageWrite_rewritten {s : State} (h : PageWriteAdmitted s) (htag : s.img.tag = "flash")
    (hjump : isRelativeJump (entryWord s) = true) :
    exec (.pageWrite 0 s.cfg.pageSize) s = runCall (startPass s.cfg.resvPage .resv (rewritten s)) := by
  have hgood := redirectPhase_good (s := (requested 0 s.cfg.pageSize s).setSeq .redirect) h.1.1 h.2.1 hjump
  rw [exec_pageWrite_zero h htag, hgood, andThen_next]
  rfl

/-- The request's count register holds S, which fits it. -/
theorem latch17_pageSize {c : Cfg} (h : c.wf = true) : (latch17 c.pageSize).toNat = c.pageSize := by
  obtain ⟨-, -, hN, -, hR, h2S, -⟩ := Cfg.wf_sizes h
  exact latch17_toNat (by omega)

/-- The start of the RESV pass meets what a running call relies on. -/
theorem rewritten_runInv {s : State} (h : PageWriteAdmitted s) (hempty : ChannelEmpty s) (himg : s.img.wf = true)
    (htag : s.img.tag = "flash") : RunInv (startPass s.cfg.resvPage .resv (rewritten s)) := by
  obtain ⟨⟨hwf, hfault, -, hsess⟩, hsize, hres⟩ := h
  obtain ⟨hS, -, hN, hV, hR, -, hpage⟩ := Cfg.wf_sizes hwf
  have hbase : s.cfg.resvPage < 0x10000 := by omega
  exact startPass_inv hwf (redirectedImage_wf hwf hsize himg _) hfault hsess htag hsize hres (latch17_pageSize hwf)
    hempty.2 hempty.1 hbase (Cfg.wf_aligned hwf).2 rfl

/-- A running call of a READY session leaves it READY or ABORTED. -/
theorem CallRel.ready_or_aborted {s t : State} (h : CallRel s t) (hs : s.sess = .ready) :
    t.sess = .ready ∨ t.sess = .aborted := by
  rcases h with ⟨-, hsame, -⟩ | ⟨-, hsame | ⟨hidle, -⟩, -⟩ | ⟨_, _, _, -, -, -, -, -, -, -, habort, -⟩
  · exact .inl (hsame.trans hs)
  · exact .inl (hsame.trans hs)
  · simp [hs] at hidle
  · exact .inr habort

/-- Settles O32: the redirection is done before the first frame, and the run of the passes only adds events. -/
theorem redirectionRewritesFourBytes : Obligations.RedirectionRewritesFourBytes := by
  intro s orig h hempty himg htag horig hnibble
  obtain rfl := entryWord_eq horig
  obtain ⟨hwf, -, -, hsess⟩ := h.1
  have hrun := rewritten_runInv h hempty himg htag
  obtain ⟨t, hdrive, -, hcall⟩ := drive_spec hrun (by simp [startPass]) (callFuel s.cfg)
  obtain ⟨himgT, horigT⟩ := drive_keepsImage hrun hdrive
  have hgrows := leads_drive _ _ t hdrive
  obtain ⟨es, hes⟩ := hgrows.events
  refine ⟨t, redirectedVector s.cfg (entryWord s), es, ?_, redirectedVector_toNat .., horigT, hes, fun a => ?_,
    hgrows.tag, hgrows.size, hgrows.reserved, hgrows.cfg, hgrows.inbox, hcall.ready_or_aborted hsess⟩
  · rw [exec_pageWrite_rewritten h htag ((isRelativeJump_iff _).2 hnibble)]
    exact hdrive
  · rw [himgT]
    exact redirectedImage_read hwf himg _ a

/-! A page pass whose every answer is a success (R160 to R164). -/

/-- A transport whose lists begin with successes, by their number. -/
theorem eq_goodLink {l : Link} {t r : Nat} {txs : List TxAnswer} {rxs : List RxAnswer}
    (htx : l.txAnswers = List.replicate t .ok ++ txs) (hrx : l.rxAnswers = List.replicate r (.byte 0#8) ++ rxs) :
    l = goodLink t r txs rxs l.txDraws := by
  rw [goodLink, ← htx, ← hrx]

/-- A pass begins at the first word of a page that lies in the buffer. -/
theorem startPass_fillStart {s : State} {base : Nat} (pass : Pass) (hwf : s.cfg.wf = true) (hfault : s.faulted = false)
    (hempty : ChannelEmpty s) (hin : base + s.cfg.pageSize ≤ s.img.size) : FillStart (startPass base pass s) :=
  ⟨hwf, rfl, hempty.2, hfault, hempty.1, rfl, rfl, by
    have hle : (BitVec.ofNat 16 base).toNat ≤ base := (BitVec.toNat_ofNat ..).trans_le (Nat.mod_le ..)
    exact (Nat.add_le_add_right hle _).trans hin⟩

/-- The end of a pass whose every answer is a success, written in the state that the pass was started in. -/
def passed (base : Nat) (pass : Pass) (pbuf : Vector Frame 8) (l : Link) (s : State) : State :=
  { s with
    seq := .write, pbuf := pbuf, pcnt := 0
    pw := { s.pw with
      pass := pass, base := BitVec.ofNat 16 base, idx := BitVec.ofNat 16 ((s.cfg.pageSize - 1) / 2), half := .fill }
    link := l
    events := s.events ++ pageEvents (memRead s.img.mem) base s.cfg.pageSize }

theorem passDone_startPass {s : State} {base : Nat} (pass : Pass) (hwf : s.cfg.wf = true) (hbase : base < 0x10000)
    (pbuf : Vector Frame 8) (l : Link) : passDone (startPass base pass s) pbuf l = passed base pass pbuf l s := by
  obtain ⟨hS, heven, -⟩ := Cfg.wf_sizes hwf
  have hlast : ¬ (s.cfg.pageSize - 1) % 2 = 0 := by omega
  have hb : (BitVec.ofNat 16 base).toNat = base := (BitVec.toNat_ofNat ..).trans (Nat.mod_eq_of_lt hbase)
  simp [passDone, passed, startPass, pwAt, State.setPw, State.setSeq, hlast, hb]

/-- The run of a pass from the state that it is started in. -/
theorem startPass_run {s : State} {base : Nat} (pass : Pass) (hwf : s.cfg.wf = true) (hfault : s.faulted = false)
    (hempty : ChannelEmpty s) (hsize : s.img.size = s.cfg.imageSize) (hin : base + s.cfg.pageSize ≤ s.cfg.imageSize)
    {T X : Nat} {txs : List TxAnswer} {rxs : List RxAnswer}
    (hl : s.link = goodLink (pageTxCount s.cfg.pageSize + T) (pageRxCount s.cfg.pageSize + X) txs rxs s.link.txDraws) :
    ∃ pbuf, RunsTo (s.cfg.pageSize + 3) (startPass base pass s)
      (advanceWrite (passed base pass pbuf (goodLink T X txs rxs s.link.txDraws) s)) := by
  obtain ⟨hS, -, hN, -⟩ := Cfg.wf_sizes hwf
  obtain ⟨pbuf, hrun⟩ := pass_run (startPass_fillStart pass hwf hfault hempty (hin.trans_eq hsize.symm)) hl
  refine ⟨pbuf, ?_⟩
  rw [← passDone_startPass pass hwf (by omega)]
  exact hrun

/-- PW_IDX at the end of a pass is at the last word of the page. -/
theorem lastIdx_toNat {c : Cfg} (h : c.wf = true) :
    (BitVec.ofNat 16 ((c.pageSize - 1) / 2)).toNat = c.pageSize / 2 - 1 := by
  obtain ⟨hS, heven, hN, -, hR, h2S, -⟩ := Cfg.wf_sizes h
  rw [BitVec.toNat_ofNat]
  omega

/-- After the MAIN pass the call returns OK with PW_COUNT (R148). -/
theorem advanceWrite_passed_main (base : Nat) (pbuf : Vector Frame 8) (l : Link) (s : State) :
    advanceWrite (passed base .main pbuf l s) = finish (.ok s.pw.count.toNat) (passed base .main pbuf l s) := rfl

/-- After the RESV pass the pass of page 0 begins (R145). -/
theorem advanceWrite_passed_resv (base : Nat) (pbuf : Vector Frame 8) (l : Link) (s : State) :
    advanceWrite (passed base .resv pbuf l s) = startPass 0 .main (passed base .resv pbuf l s) := rfl

/-- The fuel of a call is enough for two passes. -/
theorem runCall_of_runsTo {s t : State} {n : Nat} (h : RunsTo n s t) (hidle : t.seq = .idle)
    (hn : n ≤ s.cfg.pageSize + 3 + (s.cfg.pageSize + 3)) : runCall s = .next t :=
  h.drive hidle (by unfold callFuel; omega)

/-- A request for an ordinary page passes the guards and starts the MAIN pass (R146). -/
theorem exec_pageWrite_ordinary {s : State} {a : Nat} (h : PageWriteAdmitted s) (htag : s.img.tag = "flash") (hpos : 0 < a)
    (hle : a ≤ s.cfg.reservedStart - s.cfg.pageSize) (halign : a % s.cfg.pageSize = 0) :
    exec (.pageWrite a s.cfg.pageSize) s = runCall (startPass a .main (requested a s.cfg.pageSize s)) := by
  have hlt := lt_reservedStart_of_le h.1.1 hle
  rw [exec_pageWrite h]
  exact congrArg (andThen · runCall)
    (guardPhase_ordinary (s := requested a s.cfg.pageSize s) htag hlt hle halign (Nat.ne_of_gt hpos))

/-- Settles O33: the MAIN pass of the page, then the return. -/
theorem ordinaryPageIsWritten : Obligations.OrdinaryPageIsWritten := by
  intro s a txs rxs h hempty htag hpos hle halign htx hrx
  obtain ⟨hwf, hfault, hseq, -⟩ := h.1
  obtain ⟨-, -, hN, -, hR, -⟩ := Cfg.wf_sizes hwf
  have hend := Cfg.wf_page_end hwf hle
  have hin : a + s.cfg.pageSize ≤ s.cfg.imageSize := by omega
  have hcount := latch17_pageSize hwf
  obtain ⟨pbuf, hrun⟩ := startPass_run (s := requested a s.cfg.pageSize s) (T := 0) (X := 0) .main
    hwf hfault hempty h.2.1 hin (eq_goodLink htx hrx)
  have hexec := (exec_pageWrite_ordinary h htag hpos hle halign).trans
    (runCall_of_runsTo hrun rfl (Nat.le_add_right ..))
  refine ⟨_, hexec, ?_, rfl, latch17_toNat (by omega), hcount, lastIdx_toNat hwf⟩
  have hp : s.pcnt = 0 := Fin.ext hempty.1
  rw [advanceWrite_passed_main, finish_eq, ← hseq]
  simp only [passed, requested_eq, hcount, hp]
  rfl

/-- Settles O34: the redirection, the RESV pass of RESV_PAGE, the MAIN pass of page 0, and the return. -/
theorem pageZeroIsWritten : Obligations.PageZeroIsWritten := by
  intro s orig txs rxs h hempty himg htag horig hnibble htx hrx
  obtain rfl := entryWord_eq horig
  obtain ⟨hwf, hfault, hseq, -⟩ := h.1
  obtain ⟨-, -, hN, hV, hR, h2S, hpage⟩ := Cfg.wf_sizes hwf
  have hresvIn : s.cfg.resvPage + s.cfg.pageSize ≤ s.cfg.imageSize := by omega
  have hmainIn : 0 + s.cfg.pageSize ≤ s.cfg.imageSize := by omega
  have hcount := latch17_pageSize hwf
  rw [two_mul] at htx hrx
  obtain ⟨pbuf, hresv⟩ := startPass_run (s := rewritten s) .resv hwf hfault hempty h.2.1 hresvIn (eq_goodLink htx hrx)
  rw [advanceWrite_passed_resv] at hresv
  obtain ⟨pbuf', hmain⟩ := startPass_run (s := passed s.cfg.resvPage .resv pbuf
      (goodLink (pageTxCount s.cfg.pageSize) (pageRxCount s.cfg.pageSize) txs rxs s.link.txDraws) (rewritten s))
    (base := 0) (T := 0) (X := 0) (txs := txs) (rxs := rxs) .main hwf hfault ⟨rfl, hempty.2⟩ h.2.1 hmainIn rfl
  have hexec := (exec_pageWrite_rewritten h htag ((isRelativeJump_iff _).2 hnibble)).trans
    (runCall_of_runsTo (hresv.trans hmain) rfl le_rfl)
  have hread : memRead (redirectedImage s.cfg (redirectedVector s.cfg (entryWord s)) s.img).mem
      = redirectedRead s.cfg (redirectedVector s.cfg (entryWord s)) (memRead s.img.mem) :=
    funext (redirectedImage_read hwf himg _)
  refine ⟨_, redirectedVector s.cfg (entryWord s), hexec, redirectedVector_toNat .., ?_, congrFun hread, rfl,
    latch17_toNat (by decide), hcount, lastIdx_toNat hwf⟩
  have hp : s.pcnt = 0 := Fin.ext hempty.1
  rw [advanceWrite_passed_main, finish_eq, ← hseq]
  simp only [passed, rewritten_eq, hcount, hp, hread]
  rfl

end Sys2Proof.Machine
end

section
/-! The host interface (43_host_interface.md): acknowledgements in two portions, INIT, CLOSE, an image handed over, and the calls that are refused. -/

namespace Sys2Proof.Machine

/-! Delivery in portions (R186, R242). -/

/-- One acknowledgement does not look at the answers behind it. -/
theorem receiveAck_setRx (b : Byte) (r : List RxAnswer) (s : State) :
    receiveAck b (setRx r s) = setRx r (receiveAck b s) := by
  by_cases h : s.ackpend.val = 0
  · rw [receiveAck_assert h, receiveAck_assert (s := setRx r s) h]; rfl
  · by_cases hb : b = 0#8
    · subst hb
      rw [receiveAck_success h, receiveAck_success (s := setRx r s) h]; rfl
    · rw [receiveAck_violation h hb, receiveAck_violation (s := setRx r s) h hb]; rfl

/-- Reconciliation reads the answers it is given, and what the transport held before does not matter. -/
theorem reconcileFrom_setRx (l r : List RxAnswer) (s : State) : reconcileFrom l (setRx r s) = reconcileFrom l s := by
  induction l generalizing s with
  | nil => rfl
  | cons a rest ih =>
    by_cases h : s.ackpend.val = 0
    · rw [reconcileFrom_done h, reconcileFrom_done (s := setRx r s) h]; rfl
    · cases a with
      | fail => rw [reconcileFrom_cons_fail h, reconcileFrom_cons_fail (s := setRx r s) h]; rfl
      | byte b =>
        by_cases hb : b = 0#8
        · subst hb
          rw [reconcileFrom_cons_success h, reconcileFrom_cons_success (s := setRx r s) h, receiveAck_setRx, ih]
        · rw [reconcileFrom_cons_violation h hb, reconcileFrom_cons_violation (s := setRx r s) h hb, receiveAck_setRx]; rfl

/-- After successes that are all awaited, reconciliation goes on as if it began there. -/
theorem reconcileFrom_successes_append (k : Nat) (more : List RxAnswer) (s : State) (hk : k ≤ s.ackpend.val) :
    reconcileFrom (List.replicate k (.byte 0#8) ++ more) s
      = reconcileFrom more (reconcileFrom (List.replicate k (.byte 0#8)) s) := by
  induction k generalizing s with
  | zero => exact (reconcileFrom_setRx more [] s).symm
  | succ k ih =>
    have h : s.ackpend.val ≠ 0 := by omega
    have hleft : (receiveAck 0#8 s).ackpend.val = s.ackpend.val - 1 := by rw [receiveAck_success h]
    rw [List.replicate_succ, List.cons_append, reconcileFrom_cons_success h, reconcileFrom_cons_success h,
      ih _ (by omega)]

/-- Settles O23: the two reads of the transport are the reads of its two portions. -/
theorem splitDeliveryIsTheSame : Obligations.SplitDeliveryIsTheSame := by
  intro s k more hk hrx
  calc reconcile (setRx more (reconcile s))
    _ = reconcileFrom more (reconcileFrom s.link.rxAnswers s) := reconcileFrom_setRx more more _
    _ = reconcileFrom (s.link.rxAnswers ++ more) s := by rw [hrx, reconcileFrom_successes_append k more s hk]
    _ = reconcile (setRx (s.link.rxAnswers ++ more) s) := (reconcileFrom_setRx _ _ s).symm

/-! INIT (R181). -/

/-- An entered INIT whose one inner step ends in S_IDLE has returned. -/
theorem exec_init_of_innerStep {s t : State} (h : Admitted .idle s) (ha : s.ackpend.val = 0)
    (hinner : innerStep (s.setSeq .handshake) = .next t) (hidle : t.seq = .idle) : exec .init s = .next t := by
  have ⟨_, hfault, _, _⟩ := h
  have hrun : RunsTo 1 (s.setSeq .handshake) t := RunsTo.step (by simp) hfault ha hinner
  rw [exec_init h]
  exact runCall_of_runsTo hrun hidle (by omega)

/-- INIT whose handshake completes: the session is opened and OK(0) returned (R181). -/
theorem exec_init_done {s u : State} (h : Admitted .idle s) (ha : s.ackpend.val = 0)
    (hphase : seqPhase (s.setSeq .handshake) = .next u)
    (hq : u.seq = .handshake) (hack : u.ackpend.val = 0) (hfault : u.faulted = false) :
    exec .init s = .next (finish (.ok 0) (u.setSess .ready)) := by
  have hadvance : advance u = finish (.ok 0) (u.setSess .ready) := by simp only [advance, hq]
  exact exec_init_of_innerStep h ha (hadvance ▸ innerStep_advance ha hphase hq hack hfault) rfl

/-- INIT whose handshake raises a link error has returned with it (R203). -/
theorem exec_init_raised {s u : State} (h : Admitted .idle s) (ha : s.ackpend.val = 0)
    (hphase : seqPhase (s.setSeq .handshake) = .next u) (hq : u.seq = .idle) : exec .init s = .next u := by
  have hsettle : settle .handshake u = u := if_neg (by simp [hq])
  have hinner : innerStep (s.setSeq .handshake) = .next u := by
    rw [innerStep, setSeq_ackpend, if_pos ha, hphase, andThen_next, setSeq_seq, hsettle]
  exact exec_init_of_innerStep h ha hinner hq

/-- In the default reading S_HANDSHAKE runs the instruction HANDSHAKE (R85, R181). -/
theorem seqPhase_zeroFrame {s : State} (hmode : s.cfg.handshake = .zeroFrame) :
    seqPhase (s.setSeq .handshake) = exec .handshake (s.setSeq .handshake) := by
  simp only [seqPhase, setSeq_seq, setSeq_cfg, hmode, exec]

/-- In the alternative reading S_HANDSHAKE awaits one acknowledgement (U13). -/
theorem seqPhase_noFrame {s : State} (hmode : s.cfg.handshake = .noFrame) :
    seqPhase (s.setSeq .handshake) = .next (reconcile ((s.setSeq .handshake).setAckpend 1)) := by
  simp only [seqPhase, setSeq_seq, setSeq_cfg, hmode]

/-- The instruction HANDSHAKE sends the all-zero frame (R85). -/
theorem unbufferedFrame_handshake : UnbufferedFrame .handshake ⟨0x00#8, 0x00#8, 0x00#8, 0x00#8⟩ :=
  .inr (.inr ⟨rfl, rfl⟩)

/-- Settles O36: the handshake is an unbuffered exchange that completes. -/
theorem initOpensTheSession : Obligations.InitOpensTheSession := by
  intro s rest h he hmode htx hrx
  have ⟨_, hfault, hseq, _⟩ := h
  have hexchange := unbufferedExchangeCompletes _ _ (s.setSeq .handshake) rest unbufferedFrame_handshake he htx hrx
  rw [exec_init_done h he.2 ((seqPhase_zeroFrame hmode).trans hexchange) rfl he.2 hfault, finish_eq, ← hseq]
  rfl

/-- Settles O37: the handshake is an unbuffered exchange that fails, at its send or at its one read. -/
theorem initFailureAborts : Obligations.InitFailureAborts := by
  intro s h he hmode
  have ⟨_, _, hseq, _⟩ := h
  obtain ⟨hsend, hread⟩ := unbufferedExchangeFails _ _ (s.setSeq .handshake) unbufferedFrame_handshake he
  refine ⟨fun htx => ?_, fun a c rest htx hc hrx => ?_⟩
  · rw [exec_init_raised h he.2 ((seqPhase_zeroFrame hmode).trans (hsend htx)) rfl, ← hseq]
    rfl
  · rw [exec_init_raised h he.2 ((seqPhase_zeroFrame hmode).trans (hread a c rest htx hc hrx)) rfl, ← hseq]
    rfl

/-- Settles O38: the one read of the handshake succeeds, and the counts it sets to 0 were 0. -/
theorem initWithoutAFrame : Obligations.InitWithoutAFrame := by
  intro s rest h he hmode hrx
  have ⟨_, hfault, hseq, _⟩ := h
  have hp0 : s.pcnt = 0 := Fin.ext he.1
  have ha0 : s.ackpend = 0 := Fin.ext he.2
  have hread : reconcile ((s.setSeq .handshake).setAckpend 1) = { s with
      seq := .handshake
      link := { s.link with rxAnswers := rest }
      events := s.events ++ [.rx (.byte 0#8)] } := by
    rw [reconcile, setAckpend_link, setSeq_link, hrx]
    refine (reconcileFrom_successes 1 rest _ rfl one_ne_zero).trans ?_
    simp only [hp0, ha0]
    rfl
  rw [exec_init_done h he.2 ((seqPhase_noFrame hmode).trans (congrArg _ hread)) rfl he.2 hfault, finish_eq, ← hseq]
  rfl

/-! An image handed over (R188). -/

/-- A byte of an image in canonical form: the last cell listed for an address inside the buffer, else erased flash. -/
theorem memRead_canon (im : Image) (a : Nat) : memRead im.canon.mem a = handedByte im a := by
  have hread := memRead_foldl_memWrite (im.mem.filter (fun c => decide (c.1 < im.size))) (m := []) rfl a
  refine hread.trans ?_
  rw [List.filter_filter, handedByte]
  by_cases ha : a < im.size
  · have hin : ∀ c : Host.Cell, (decide (c.1 = a) && decide (c.1 < im.size)) = decide (c.1 = a) := by
      intro c
      simp only [← Bool.decide_and, and_iff_left_of_imp (fun h : c.1 = a => h ▸ ha)]
    rw [if_pos ha, List.filter_congr (fun c _ => hin c)]
    rfl
  · have hout : im.mem.filter (fun c => decide (c.1 = a) && decide (c.1 < im.size)) = [] := by
      rw [List.filter_eq_nil_iff]
      intro c _
      simp only [← Bool.decide_and, decide_eq_true_eq]
      omega
    rw [if_neg ha, hout]
    rfl

/-- Settles O58: the step in S_IDLE takes the image in canonical form. -/
theorem imageHandover : Obligations.ImageHandover := by
  intro s im rest hfault hseq hinbox
  refine ⟨(s.setInbox rest).setImg im.canon, ?_, rfl, Image.canon_wf im, memRead_canon im⟩
  rw [step_idle hfault hseq, hostStep, hinbox]

/-! CLOSE (R182). -/

/-- CLOSE once it is admitted (R182). -/
theorem exec_close {q : Sess} {s : State} (h : Admitted q s) (hq : q.admitsClose = true) :
    exec .close s = .next (closePhase (s.setSeq .close)) := by
  simp [exec, execClose, entryRefusal_none h hq]

/-- CLOSE goes through S_CLOSE and is back in S_IDLE: it writes SESS, one event and the outcome. -/
theorem closePhase_close_eq {s : State} (hseq : s.seq = .idle) : closePhase (s.setSeq .close) =
    { s with sess := .closed, events := s.events ++ [.tclose], results := s.results ++ [.ok 0] } := by
  rw [closePhase, finish_eq, ← hseq]
  rfl

/-- Settles O39, by the SESS value that admits the call. -/
theorem closeReleasesTheTransport : Obligations.CloseReleasesTheTransport := by
  rintro s (h | h | h) <;>
  · have ⟨_, _, hseq, _⟩ := h
    rw [exec_close h rfl, closePhase_close_eq hseq]

/-! The calls that are refused (R183, R188). -/

/-- Where SESS does not admit an entry point, or one is running, it is refused (R183). -/
theorem entryRefusal_of_not_admitted {p : Sess → Bool} {s : State} (hwf : s.cfg.wf = true)
    (h : s.seq ≠ .idle ∨ p s.sess = false) : entryRefusal p s = some .entryNotAdmitted := by
  rw [entryRefusal, if_neg (by simp [hwf]), if_neg]
  rintro ⟨-, hseq, hp⟩
  rcases h with h | h
  · exact h hseq
  · simp [hp] at h

theorem admitsInit_eq_false_iff (q : Sess) : q.admitsInit = false ↔ q ≠ .idle := by
  cases q <;> decide

theorem admitsPageWrite_eq_false_iff (q : Sess) : q.admitsPageWrite = false ↔ q ≠ .ready := by
  cases q <;> decide

theorem admitsClose_eq_false_iff (q : Sess) : q.admitsClose = false ↔ q = .halted ∨ q = .closed := by
  cases q <;> decide

/-- Settles O40, by entry point. -/
theorem entryPointsNotAdmittedAreRefused : Obligations.EntryPointsNotAdmittedAreRefused := by
  intro s hwf
  refine ⟨fun h => ?_, fun h a n => ?_, fun h => ?_⟩
  · simp [exec, execInit, entryRefusal_of_not_admitted hwf (h.imp_right (admitsInit_eq_false_iff _).2)]
  · simp [exec, execPageWrite, entryRefusal_of_not_admitted hwf (h.imp_right (admitsPageWrite_eq_false_iff _).2)]
  · simp [exec, execClose, entryRefusal_of_not_admitted hwf (h.imp_right (admitsClose_eq_false_iff _).2)]

theorem accessorMatches_eq_false {s : State} (h : s.img.size ≠ s.cfg.imageSize ∨ s.img.reserved ≠ s.cfg.reservedSize) :
    accessorMatches s = false := by
  rcases h with h | h <;> simp [accessorMatches, h]

/-- Settles O41: the sizes are compared once the call is admitted. -/
theorem otherAccessorSizesAreRefused : Obligations.OtherAccessorSizesAreRefused := by
  intro s a n h hsizes
  have hadmits := entryRefusal_none h (p := Sess.admitsPageWrite) rfl
  simp [exec, execPageWrite, hadmits, accessorMatches_eq_false hsizes]

end Sys2Proof.Machine
end

section
/-! Outcomes and errors (60_exceptions.md): the codes, a false assert and the faulted state after it, the step that aborts or halts a session, one outcome a call. -/

namespace Sys2Proof.Machine

/-- Settles O42: each code is the value of its constructor. -/
theorem outcomeAndCauseCodes : Obligations.OutcomeAndCauseCodes :=
  ⟨fun _ => rfl, rfl, fun _ => rfl, fun _ => rfl, rfl, rfl, fun _ => rfl, fun _ => rfl, fun _ => rfl, fun _ => rfl⟩

/-! A false assert (R131, R211). -/

/-- Both acknowledgement instructions read their byte (R101, R124). -/
theorem exec_ackSuccess (s : State) : exec .ackSuccess s = .next (receiveAck 0x00#8 s) := rfl

theorem exec_ackViolation (b : Byte) (s : State) : exec (.ackViolation b) s = .next (receiveAck b s) := rfl

/-- Settles O21, by the operation whose assert is false. -/
theorem failedAssertIsRecorded : Obligations.FailedAssertIsRecorded := by
  refine fun s => ⟨fun i f hi h => ?_, fun i f hi h => ?_, fun h => ⟨?_, fun b => ?_⟩, fun h => ?_⟩
  · rw [exec_pipelined hi, submit_assert h, assertFailed_eq]
  · rw [exec_unbuffered hi, sendUnbuffered_assert h, assertFailed_eq]
  · rw [exec_ackSuccess, receiveAck_assert h, assertFailed_eq]
  · rw [exec_ackViolation, receiveAck_assert h, assertFailed_eq]
  · rw [flush_assert h, assertFailed_eq]

/-! The faulted state (R211). -/

/-- In a faulted state no entry point is admitted, whatever SESS is (R211). -/
theorem entryRefusal_of_faulted {s : State} (hwf : s.cfg.wf = true) (hf : s.faulted = true) (p : Sess → Bool) :
    entryRefusal p s = some .entryNotAdmitted := by
  simp [entryRefusal, hwf, hf]

/-- A faulted state that starts no session faults at its next step (R211, R230). -/
theorem step_of_faulted {s : State} (hf : s.faulted = true) (hn : startsSession s = false) :
    step s = .fault .invariantRecorded := by
  rw [step, machineStep, if_pos hf, faultedStep]
  split
  case h_1 c rest hi => exact absurd hi (not_session_of_startsSession hn (.inr hf) c rest)
  case h_2 => rfl

/-- Settles O22, by entry point. -/
theorem faultedStateAdmitsNothing : Obligations.FaultedStateAdmitsNothing := by
  intro s hwf hf
  have hrefused := entryRefusal_of_faulted hwf hf
  refine ⟨?_, fun a n => ?_, ?_, step_of_faulted hf⟩
  · simp [exec, execInit, hrefused]
  · simp [exec, execPageWrite, hrefused]
  · simp [exec, execClose, hrefused]

/-! Where a session dies (R203, R204). -/

/-- A step that moves SESS from a state that meets the invariant, and not to IDLE as a session start does, is a host call, taken from the inbox or going on (R22). -/
theorem callEnd_of_sess_moved {s t : State} (h : Inv s) (hst : step s = .next t) (hs : t.sess ≠ s.sess)
    (hidle : t.sess ≠ .idle) : ∃ r, CallEnd (s.setInbox r) t := by
  cases step_kinds h.no_invariant_fault hst with
  | wait _ ht => exact absurd (ht ▸ rfl) hs
  | image _ r im _ ht => exact absurd (ht ▸ rfl) hs
  | session c r _ _ ht => exact absurd (ht ▸ rfl) hidle
  | call hq c r _ hcall => exact ⟨r, callEntry_callEnd (h.run.setInbox r) hq c hcall⟩
  | inner hq hinner =>
    exact ⟨s.inbox, .inr (.inr (.inl ⟨innerStep_callRel h.run hq hinner, h.run.sess_of_running hq⟩))⟩

/-- A running call that ends the session has been ended by a link error (R203). -/
theorem CallRel.aborted_of_dead {s t : State} (h : CallRel s t) (hs : t.sess ≠ s.sess) (hr : t.sess ≠ .ready) :
    Aborted s t := by
  rcases h with ⟨-, hsame, -⟩ | ⟨-, hsame | ⟨-, hready⟩, -⟩ | haborted
  · exact absurd hsame hs
  · exact absurd hsame hs
  · exact absurd hready hr
  · exact haborted

/-- An aborted call has moved SESS to ABORTED (R203). -/
theorem Aborted.sess {s t : State} (h : Aborted s t) : t.sess = .aborted := by
  obtain ⟨_, _, _, -, -, -, -, -, -, -, hsess, -⟩ := h
  exact hsess

/-- Of the ends of a host call only a link error moves SESS to ABORTED (R203, R205). -/
theorem CallEnd.aborted {s t : State} (h : CallEnd s t) (hs : s.sess ≠ .aborted) (ht : t.sess = .aborted) :
    Aborted s t := by
  rcases h with ⟨_, hguard⟩ | ⟨-, hhalted, -⟩ | ⟨hcall, -⟩ | ⟨hclosed, -⟩
  · exact absurd (by rw [← ht, hguard]) hs
  · simp [hhalted] at ht
  · exact hcall.aborted_of_dead (ht ▸ hs.symm) (by simp [ht])
  · simp [hclosed] at ht

/-- Of the ends of a host call only a policy violation moves SESS to HALTED (R204, R205). -/
theorem CallEnd.halted {s t : State} (h : CallEnd s t) (hs : s.sess ≠ .halted) (ht : t.sess = .halted) :
    Halted s t := by
  rcases h with ⟨_, hguard⟩ | hhalted | ⟨hcall, -⟩ | ⟨hclosed, -⟩
  · exact absurd (by rw [← ht, hguard]) hs
  · exact hhalted
  · have haborted := (hcall.aborted_of_dead (ht ▸ hs.symm) (by simp [ht])).sess
    simp [ht] at haborted
  · simp [hclosed] at ht

/-- The last event of an aborted call is its first failing call, and its cause is the one returned and recorded (R123, R203, R206). -/
theorem Aborted.precise {s t : State} (h : Aborted s t) :
    ∃ es e c, t.events = s.events ++ es ++ [e] ∧ FailingCall e c
      ∧ (∀ a, Event.rx a ∈ es → a = .byte 0#8) ∧ Event.tclose ∉ es
      ∧ t.results = s.results ++ [.linkFailure c] ∧ t.faults = addCause c s.faults
      ∧ t.seq = .idle ∧ t.cfg = s.cfg := by
  obtain ⟨u, e, c, hcalm, hevents, hfail, -, hresults, hfaults, hseq, -, hcfg⟩ := h
  obtain ⟨es, hes, hplain⟩ := hcalm.events
  exact ⟨es, e, c, by rw [hevents, hes], hfail, fun a ha => (hplain _ ha).2 a rfl, fun hclose => (hplain _ hclose).1 rfl,
    hresults, hfaults, hseq, hcfg⟩

/-- Settles O43: only a host call can abort the session, and of its ends only the link error does. -/
theorem abortIsPrecise : Obligations.AbortIsPrecise := by
  intro s t h hst hs ht
  obtain ⟨r, hend⟩ := callEnd_of_sess_moved h hst (ht ▸ hs.symm) (by simp [ht])
  exact (hend.aborted hs ht).precise

/-- Settles O44: only a host call can halt the block, and of its ends only the policy violation does. -/
theorem haltIsPrecise : Obligations.HaltIsPrecise := by
  intro s t h hst hs ht
  obtain ⟨r, hend⟩ := callEnd_of_sess_moved h hst (ht ▸ hs.symm) (by simp [ht])
  obtain ⟨hready, -, hevents, himg, hlink, -, hseq, c, hpolicy, hresults, hfaults⟩ := hend.halted hs ht
  exact ⟨hready, hevents, himg, hlink, c, hpolicy, hresults, hfaults, hseq⟩

/-! One outcome a call (R200). -/

/-- A running call that is back in S_IDLE has returned one outcome (R200). -/
theorem CallRel.result_of_idle {s t : State} (h : CallRel s t) (hq : t.seq = .idle) :
    ∃ r, t.results = s.results ++ [r] := by
  rcases h with ⟨-, -, -, hrunning⟩ | ⟨-, -, ⟨n, hresults⟩, -⟩ | ⟨_, _, c, -, -, -, -, hresults, -⟩
  · exact absurd hq hrunning
  · exact ⟨_, hresults⟩
  · exact ⟨_, hresults⟩

/-- A host call that is back in S_IDLE has returned one outcome (R200). -/
theorem CallEnd.result_of_idle {s t : State} (h : CallEnd s t) (hq : t.seq = .idle) :
    ∃ r, t.results = s.results ++ [r] := by
  rcases h with ⟨r, hguard⟩ | ⟨-, -, -, -, -, -, -, c, -, hresults, -⟩ | ⟨hcall, -⟩ | ⟨hclosed, -⟩
  · exact ⟨r, by rw [hguard]⟩
  · exact ⟨_, hresults⟩
  · exact hcall.result_of_idle hq
  · exact ⟨_, by rw [hclosed]⟩

/-- A step inside an entry point that comes back to S_IDLE returns one outcome (R200). -/
theorem step_result_of_running {s t : State} (h : Inv s) (hst : step s = .next t) (hs : s.seq ≠ .idle)
    (hq : t.seq = .idle) : ∃ r, t.results = s.results ++ [r] := by
  rw [step_running h.no_invariant_fault hs] at hst
  exact (innerStep_callRel h.run hs hst).result_of_idle hq

/-- A step that enters an entry point and comes back to S_IDLE returns one outcome (R184, R200). -/
theorem step_result_of_call {s t : State} (h : Inv s) (hst : step s = .next t) (hs : s.seq = .idle)
    {c : HostCall} {rest : List HostInput} (hi : s.inbox = .call c :: rest) (hq : t.seq = .idle) :
    ∃ r, t.results = s.results ++ [r] := by
  rw [step_idle h.no_invariant_fault hs, hostStep, hi] at hst
  exact (callEntry_callEnd (h.run.setInbox rest) hs c hst).result_of_idle hq

/-- In S_IDLE a step that enters no entry point returns no outcome (R231). -/
theorem step_results_of_no_call {s t : State} (h : Inv s) (hst : step s = .next t) (hs : s.seq = .idle)
    (hn : ∀ c rest, s.inbox ≠ .call c :: rest) : t.results = s.results := by
  cases step_kinds h.no_invariant_fault hst with
  | wait _ ht => rw [ht]
  | image _ r im _ ht => rw [ht]; rfl
  | session c r _ _ ht => rw [ht]; rfl
  | call _ c r hi _ => exact absurd hi (hn c r)
  | inner hq _ => exact absurd hs hq

/-- Settles O52: a step that leaves an entry point running returns nothing, one that ends it one outcome. -/
theorem oneOutcomePerCall : Obligations.OneOutcomePerCall := by
  intro s t h hst
  have hrunning := step_results_of_running h hst
  refine ⟨fun hs => ?_, fun hs c rest hi => ?_, step_results_of_no_call h hst⟩
  · by_cases hq : t.seq = .idle
    · exact .inl ⟨hq, step_result_of_running h hst hs hq⟩
    · exact .inr ⟨hq, hrunning hq⟩
  · by_cases hq : t.seq = .idle
    · exact .inl ⟨hq, step_result_of_call h hst hs hi hq⟩
    · exact .inr ⟨hq, hrunning hq⟩

end Sys2Proof.Machine
end

section
/-! Reset and hazards (70_reset_and_hazards.md): the start of a session, and the block that waits. -/

namespace Sys2Proof.Machine

/-! The start of a session (R230). -/

/-- A session starts with an admitted configuration at the reset values (R35, R230). -/
theorem beginSession_admitted {c : Cfg} (h : c.wf = true) (s : State) : beginSession c s = .next (resetRegs c s) := by
  rw [beginSession, if_pos h]

/-- Settles O11, by whether the configuration is admitted: the registers are those of reset, the rest is kept. -/
theorem sessionStart : Obligations.SessionStart := by
  intro s c rest hi hq
  rw [step_session hi hq]
  refine ⟨fun hwf => ⟨resetRegs c (s.setInbox rest), beginSession_admitted hwf _, ?_⟩,
    fun hwf => beginSession_not_admitted hwf _⟩
  obtain ⟨hsess, hpcnt, hackpend, hseq, hfaults⟩ := resetValues
  exact ⟨hsess, hpcnt, hackpend, hseq, hfaults, rfl, rfl, rfl, rfl, rfl, rfl⟩

/-! Waiting (R231, R242). -/

/-- With no host input the block in S_IDLE stays as it is (R231). -/
theorem hostStep_no_input {s : State} (hi : s.inbox = []) : hostStep s = .next s := by
  rw [hostStep, hi]

/-- A blocking read with no answer stays as it is (R186, R242). -/
theorem innerStep_no_answer {s : State} (ha : s.ackpend.val ≠ 0) (hr : s.link.rxAnswers = []) :
    innerStep s = .next s := by
  rw [innerStep, if_neg ha, hr]

/-- Settles O46, by whether the block waits for the host or for an answer. -/
theorem waitingChangesNothing : Obligations.WaitingChangesNothing := by
  refine fun s hf => ⟨fun hq hi => ?_, fun hq ha hr => ?_⟩
  · rw [step_idle hf hq, hostStep_no_input hi]
  · rw [step_running hf hq, innerStep_no_answer ha hr]

end Sys2Proof.Machine
end
